-- ==== Sys2Proof/Word.lean ====
section
/-! DEFINITION. The widths of the block's words (R7, R50): bytes of a pixel, 16-bit codewords, events and
callbacks, 32-bit command words. -/

namespace Sys2Proof

/-- A colour byte, a device field or an opcode (`u8`). -/
abbrev Byte := BitVec 8

/-- A 16-bit word: a codeword, an `EVT` word, a `CB` word (R50). -/
abbrev Half16 := BitVec 16

/-- A 32-bit word: a packet word, `RES`, `pix_base`, `total`, `sent` (R7, R50). -/
abbrev Word := BitVec 32

end Sys2Proof
end

