-- ==== Sys2Proof/Config.lean ====
section
/-! DEFINITION. The configuration of the block (R5): the constants, the per-device parameters, the default
configuration the reset state carries, and the one free value of the model. -/

namespace Sys2Proof

/-- `LED_LIMIT` (R5, D30): the largest admitted LED count. -/
def ledLimit : Nat := 2 ^ 30

/-- `CW_PER_HALF` (R5): codewords in one half of the double buffer, two LEDs of 24 bits. -/
abbrev cwPerHalf : Nat := 48

/-- `CW_N` (R5, D6): codewords in the double buffer. -/
abbrev cwN : Nat := 96

/-- `LATCH_CW` (R5, D7): codewords in the latch buffer. -/
abbrev latchCw : Nat := 48

/-- Size of the pixel address space in bytes (R25, R30). -/
def pixSize : Nat := 2 ^ 32

/-- The parameters of one device (R5), fixed before power-on. -/
structure DevConfig where
  /-- `LED_MAX[d]`. -/
  ledMax : Nat
  /-- `TICKS[d]`, timer ticks per bit period. -/
  ticks : Nat
  /-- `PIXBASE[d]`, address of the device's own pixel buffer. -/
  pixBase : Nat
  /-- `TIMER[d]`, an opaque identifier. -/
  timer : Nat
  /-- `CHAN[d]`, an opaque identifier. -/
  chan : Nat
  /-- `STREAM[d]`, an opaque identifier. -/
  stream : Nat
deriving DecidableEq, Repr

/-- A configuration (R5): one record per device, `NDEV` is its length. -/
abbrev Config := List DevConfig

/-- One device, as the standing configuration of 95_test_vectors.md has it.
DESIGN CHOICE, log entry 1: the parameters are OPEN in R5; no statement rests on these values. -/
def Config.default : Config :=
  [{ ledMax := 8, ticks := 100, pixBase := 0x20000000, timer := 0, chan := 0, stream := 0 }]

/-- FREE VALUE, log entry 4: what an allocated pixel byte that nothing has written reads as (U3 "any value"; C11: it is
not a fault). It cannot be read after INIT. -/
opaque Config.powerOnByte : Nat → Byte

end Sys2Proof
end

