-- ==== Sys2Proof/Syntax.lean ====
section
/-! DEFINITION. The operations of the block (R52), one constructor per row of the opcode table. -/

namespace Sys2Proof

/-- The fifteen operations of R52. `dev` is the 8-bit device field of a `CMD` header, an `EVT` word or a `CB` word;
for the `CW` rows, whose word holds no device, it is the device whose compare register receives the word (R57).
Command operands are whole packet words; colour operands are truncated where they are used (R54). -/
inductive Instr where
  /-- `INIT` (R70). -/
  | init
  /-- `SET d, base, count` (R71). -/
  | set (dev : Byte) (base count : Word)
  /-- `RESET d` (R72). -/
  | reset (dev : Byte)
  /-- `GETLEDCOUNT d` (R73). -/
  | getLedCount (dev : Byte)
  /-- `SETCOLOR d, index, r, g, b` (R120). -/
  | setColor (dev : Byte) (index r g b : Word)
  /-- `FILLCOLOR d, r, g, b` (R121). -/
  | fillColor (dev : Byte) (r g b : Word)
  /-- `FILLSEG d, start, end, r, g, b` (R122). -/
  | fillSeg (dev : Byte) (first last r g b : Word)
  /-- `HT`: the half-transfer flag is serviced (R101). -/
  | ht (dev : Byte)
  /-- `TC`: the transfer-complete flag is serviced (R102). -/
  | tc (dev : Byte)
  /-- `TE`: the transfer-error flag is serviced (R103). -/
  | te (dev : Byte)
  /-- `CB.COMPLETE`: the completion callback (R112). -/
  | cbComplete (dev : Byte)
  /-- `CB.ERROR`: the error callback (R113). -/
  | cbError (dev : Byte)
  /-- `CW.ONE`: the codeword of a 1 bit (R83). -/
  | cwOne (dev : Byte)
  /-- `CW.ZERO`: the codeword of a 0 bit (R84). -/
  | cwZero (dev : Byte)
  /-- `CW.FILL`: the all-low codeword (R85). -/
  | cwFill (dev : Byte)
deriving DecidableEq, Repr

/-- The codeword symbols of one device (R57): the values that stand for a 1 bit and a 0 bit. -/
structure Symbols where
  hval : Half16
  lval : Half16
deriving DecidableEq, Repr

/-- Words on the four channels of the block (R50). The channel tells the format; the bits alone do not. -/
inductive Encoded where
  /-- A command packet: header and operand words (R51). -/
  | cmd (words : List Word)
  /-- An `EVT` word (R55). -/
  | evt (w : Half16)
  /-- A `CB` word (R56). -/
  | cb (w : Half16)
  /-- A `CW` word on its way to the compare register of device `dev` (R57). -/
  | cw (dev : Byte) (v : Half16)
deriving DecidableEq, Repr

/-- Why a word is no operation, by name (R58, R59, R57, R53). -/
inductive Reject where
  /-- `op` is not one of the seven (R58). -/
  | unknownOp
  /-- `zero ≠ 0` in a command header (R58). -/
  | reservedBits
  /-- `INIT` with `dev ≠ 0` (R58). -/
  | initDevice
  /-- Not all words of the packet are present (R53). -/
  | incomplete
  /-- Reserved `EVT` flag code (R59). -/
  | reservedFlag
  /-- Reserved `CB` variant (R59). -/
  | reservedVariant
  /-- Not a codeword of this device (R57). -/
  | notACodeword
deriving DecidableEq, Repr

end Sys2Proof
end

