-- ==== Sys2Proof/WellFormed.lean ====
section
/-! DEFINITION. Well-formedness. An `Instr` needs no check: its fields have exactly the widths of the encoding's fields,
and R53, R54 admit every operand value. What the spec does ask to be well-formed is the configuration (R6) and, for the
`CW` format, a device's pair of symbols (R17, R57). -/

namespace Sys2Proof

/-- The bounds of R5 on one device's parameters. -/
abbrev DevConfig.WellFormed (c : DevConfig) : Prop :=
  (1 ≤ c.ledMax ∧ c.ledMax ≤ ledLimit) ∧ (1 ≤ c.ticks ∧ c.ticks ≤ 65535) ∧
    (c.pixBase ≠ 0 ∧ c.pixBase + 3 * c.ledMax ≤ pixSize)

/-- Two devices share no pixel byte and no platform resource (R5, R25, D21, D31). -/
abbrev DevConfig.Apart (a b : DevConfig) : Prop :=
  (a.pixBase + 3 * a.ledMax ≤ b.pixBase ∨ b.pixBase + 3 * b.ledMax ≤ a.pixBase) ∧
    a.timer ≠ b.timer ∧ a.chan ≠ b.chan ∧ a.stream ≠ b.stream

/-- R6: a configuration is well-formed when every bound in the table of R5 holds. -/
abbrev Config.WellFormed (c : Config) : Prop :=
  (1 ≤ c.length ∧ c.length ≤ 256) ∧ (∀ x ∈ c, x.WellFormed) ∧ c.Pairwise DevConfig.Apart

/-- R17, R57: `0 < lval < hval`, so that the three codeword symbols are distinct. -/
abbrev Symbols.WellFormed (y : Symbols) : Prop :=
  0 < y.lval.toNat ∧ y.lval.toNat < y.hval.toNat

end Sys2Proof
end

