-- ==== Sys2Proof/Decode.lean ====
section
/-! DEFINITION. Decoding and encoding of the four word formats (R50 to R60). Decoding is total and rejects by name. -/

namespace Sys2Proof

/-- `op`, bits 31:24 of a command header (R51). -/
def headerOp (h : Word) : Byte := h.extractLsb' 24 8

/-- `dev`, bits 23:16 of a command header (R51). -/
def headerDev (h : Word) : Byte := h.extractLsb' 16 8

/-- `zero`, bits 15:0 of a command header (R51). -/
def headerZero (h : Word) : Half16 := h.extractLsb' 0 16

/-- The number of operand words is a function of `op` alone (R53). -/
def operandWords (op : Byte) : Nat :=
  if op = 0x02#8 then 2
  else if op = 0x10#8 then 4
  else if op = 0x11#8 then 3
  else if op = 0x12#8 then 5
  else 0

/-- A complete packet: one of the seven commands, or illegal by R58. `ops` are its operand words. -/
def decodeCommand (h : Word) (ops : List Word) : Except Reject Instr :=
  let dev := headerDev h
  let w (k : Nat) : Word := ops.getD k 0
  let legal (i : Instr) : Except Reject Instr :=
    if headerZero h = 0#16 then .ok i else .error .reservedBits
  if headerOp h = 0x01#8 then (if dev = 0#8 then legal .init else .error .initDevice)
  else if headerOp h = 0x02#8 then legal (.set dev (w 0) (w 1))
  else if headerOp h = 0x03#8 then legal (.reset dev)
  else if headerOp h = 0x04#8 then legal (.getLedCount dev)
  else if headerOp h = 0x10#8 then legal (.setColor dev (w 0) (w 1) (w 2) (w 3))
  else if headerOp h = 0x11#8 then legal (.fillColor dev (w 0) (w 1) (w 2))
  else if headerOp h = 0x12#8 then legal (.fillSeg dev (w 0) (w 1) (w 2) (w 3) (w 4))
  else .error .unknownOp

/-- What stands at the front of a stream of command words (R60): of each packet the mnemonic or that it is illegal, its device and
its operand words. In a command they are the constructor and its arguments. -/
inductive Packet where
  /-- Not all words of the packet are there yet: no command has been issued (R53). -/
  | incomplete
  /-- An illegal packet (R58): why, its device field and operand words, and the words after it. -/
  | illegal (why : Reject) (dev : Byte) (ops rest : List Word)
  /-- One of the seven commands and the words after it. -/
  | command (i : Instr) (rest : List Word)
deriving DecidableEq, Repr

/-- Split the first packet off a stream of words (R53, R60): the length is by `op`, whether or not the rest of the
header is legal. -/
def decodePacket : List Word → Packet
  | [] => .incomplete
  | h :: ws =>
    let n := operandWords (headerOp h)
    if ws.length < n then .incomplete
    else
      match decodeCommand h (ws.take n) with
      | .ok i => .command i (ws.drop n)
      | .error why => .illegal why (headerDev h) (ws.take n) (ws.drop n)

/-- Device field, bits 15:8 of an `EVT` or `CB` word (R55, R56). -/
def wordDev (w : Half16) : Byte := w.extractLsb' 8 8

/-- Flag or variant field, bits 7:0 of an `EVT` or `CB` word (R55, R56). -/
def wordCode (w : Half16) : Byte := w.extractLsb' 0 8

/-- An `EVT` word (R55): flag codes 1, 2, 3; the others are reserved (R59). -/
def decodeEvt (w : Half16) : Except Reject Instr :=
  if wordCode w = 1#8 then .ok (.ht (wordDev w))
  else if wordCode w = 2#8 then .ok (.tc (wordDev w))
  else if wordCode w = 3#8 then .ok (.te (wordDev w))
  else .error .reservedFlag

/-- A `CB` word (R56): variants 0 and 1; the others are reserved (R59). -/
def decodeCb (w : Half16) : Except Reject Instr :=
  if wordCode w = 0#8 then .ok (.cbComplete (wordDev w))
  else if wordCode w = 1#8 then .ok (.cbError (wordDev w))
  else .error .reservedVariant

/-- A `CW` word for device `dev` with the symbols `y` (R57). -/
def decodeCw (y : Symbols) (dev : Byte) (v : Half16) : Except Reject Instr :=
  if v = y.hval then .ok (.cwOne dev)
  else if v = y.lval then .ok (.cwZero dev)
  else if v = 0#16 then .ok (.cwFill dev)
  else .error .notACodeword

/-- Decode a word or packet by its channel; `y` gives each device's symbols. Of a word stream it reads the first
packet. -/
def decode (y : Byte → Symbols) : Encoded → Except Reject Instr
  | .cmd ws =>
    match decodePacket ws with
    | .incomplete => .error .incomplete
    | .illegal why _ _ _ => .error why
    | .command i _ => .ok i
  | .evt w => decodeEvt w
  | .cb w => decodeCb w
  | .cw dev v => decodeCw (y dev) dev v

/-- A command header with opcode `op` for device `dev` (R51). -/
def header (op dev : Byte) : Word := op ++ dev ++ 0#16

/-- An `EVT` or `CB` word (R55, R56). -/
def devWord (dev code : Byte) : Half16 := dev ++ code

/-- The words of an operation on its channel (R51 to R57). -/
def encode (y : Byte → Symbols) : Instr → Encoded
  | .init => .cmd [header 0x01 0]
  | .set dev base count => .cmd [header 0x02 dev, base, count]
  | .reset dev => .cmd [header 0x03 dev]
  | .getLedCount dev => .cmd [header 0x04 dev]
  | .setColor dev index r g b => .cmd [header 0x10 dev, index, r, g, b]
  | .fillColor dev r g b => .cmd [header 0x11 dev, r, g, b]
  | .fillSeg dev first last r g b => .cmd [header 0x12 dev, first, last, r, g, b]
  | .ht dev => .evt (devWord dev 1)
  | .tc dev => .evt (devWord dev 2)
  | .te dev => .evt (devWord dev 3)
  | .cbComplete dev => .cb (devWord dev 0)
  | .cbError dev => .cb (devWord dev 1)
  | .cwOne dev => .cw dev (y dev).hval
  | .cwZero dev => .cw dev (y dev).lval
  | .cwFill dev => .cw dev 0

/-- `hval` and `lval` of `T` ticks per bit period (R81): exact products, division rounding down. -/
def symbolsOfTicks (T : Nat) : Symbols :=
  { hval := BitVec.ofNat 16 (17 * T / 25), lval := BitVec.ofNat 16 (8 * T / 25) }

/-- The packet that a number stands for when bit 0 is the least significant bit of its header word and each later word
counts on from it: `k` words. -/
def wordsOfNat (w : Nat) : Nat → List Word
  | 0 => []
  | k + 1 => BitVec.ofNat 32 w :: wordsOfNat (w / 2 ^ 32) k

/-- The packet of an opcode-table word: header and exactly the operand words its `op` calls for, the bits above `nbits`
zero. -/
def tablePacket (nbits w : Nat) : List Word :=
  let w := w % 2 ^ nbits
  wordsOfNat w (1 + operandWords (headerOp (BitVec.ofNat 32 w)))

/-- The symbols a bare `CW` word of the table is read with: those of device 0 of the default configuration. A `CW` row has
no fixed bit pattern of its own (R57). DESIGN CHOICE, log entry 7. -/
def tableSymbols : Symbols := symbolsOfTicks ((Config.default.map DevConfig.ticks).headD 0)

/-- A bare 16-bit word without its channel. The formats `EVT`, `CB` and `CW` share bit patterns, so a choice is made:
a codeword of device 0 first, then a flag, then a callback. DESIGN CHOICE, log entry 7. -/
def decodeBare16 (v : Half16) : Option Instr :=
  match decodeCw tableSymbols 0 v with
  | .ok i => some i
  | .error _ =>
    match decodeEvt v with
    | .ok i => some i
    | .error _ => (decodeCb v).toOption

/-- The instruction the decoder reads from the bits of an opcode-table row. -/
def decodeTableWord (nbits w : Nat) : Option Instr :=
  if nbits ≤ 16 then decodeBare16 (BitVec.ofNat 16 (w % 2 ^ nbits))
  else
    match decodePacket (tablePacket nbits w) with
    | .command i _ => some i
    | .incomplete => none
    | .illegal _ _ _ _ => none

end Sys2Proof
end

