-- ==== Sys2Proof/Machine/State.lean ====
section
/-! DEFINITION. The state of the block (10_state.md), its power-on value (R160), and the reasons a step can stop. -/

namespace Sys2Proof.Machine

open Sys2Proof

/-- The driver state (R13). -/
inductive Fsm where
  | idle
  | transfer
  | latch
  | reset
deriving DecidableEq, Repr

/-- Which buffer the DMA stream reads (R20). -/
inductive DmaSrc where
  | cwbuf
  | latchbuf
deriving DecidableEq, Repr

/-- A half of the codeword double buffer (R16, R18): half 0 or half 1. -/
inductive Half where
  | h0
  | h1
deriving DecidableEq, Repr

/-- The two data flags (R92, R104). -/
inductive DataFlag where
  | ht
  | tc
deriving DecidableEq, Repr

/-- The two callbacks (R56). -/
inductive Callback where
  | complete
  | error
deriving DecidableEq, Repr

/-- The items of the output trace (R24). -/
inductive OutItem where
  /-- `En`: channel and stream were enabled. -/
  | en
  /-- `Dis`: channel and stream were disabled. -/
  | dis
  /-- `Cw(v)`: the compare register received `v` while the channel was enabled. -/
  | cw (v : Half16)
  /-- `Cb(c)`: a callback was invoked. -/
  | cb (c : Callback)
deriving DecidableEq, Repr

/-- One device (R2): its configuration, which no step changes (R5), and its state S2 to S20. -/
structure Device where
  /-- The parameters of R5. -/
  cfg : DevConfig
  /-- S2, R13. -/
  fsm : Fsm
  /-- S3, R14. -/
  pixBase : Word
  /-- S4, R14. -/
  total : Word
  /-- S5, R15. -/
  sent : Word
  /-- S6, R16: written and never read. -/
  half : Half
  /-- S7, R17. -/
  hval : Half16
  /-- S8, R17. -/
  lval : Half16
  /-- S9, R18. -/
  cw : Vector Half16 96
  /-- S10, R19: nothing writes it. -/
  latch : Vector Half16 48
  /-- S11, R20. -/
  dmaEn : Bool
  /-- S12, R20. -/
  dmaSrc : DmaSrc
  /-- S13, R20. -/
  dmaLen : Half16
  /-- S14, R20. -/
  dmaRd : Half16
  /-- S15, R21. -/
  htif : Bool
  /-- S15, R21. -/
  tcif : Bool
  /-- S15, R21. -/
  teif : Bool
  /-- S16, R21. -/
  htie : Bool
  /-- S16, R21. -/
  tcie : Bool
  /-- S16, R21. -/
  teie : Bool
  /-- S17, R22. -/
  chEn : Bool
  /-- S18, R22. -/
  ccr : Half16
  /-- S19, R23: sticky. -/
  underrun : Bool
  /-- S20, R24: oldest first. -/
  out : List OutItem
deriving DecidableEq, Repr

/-- The pixel address space (R25, R30): the bytes that have been written, by strictly rising address. -/
abbrev Memory := List Host.Cell

/-- Whose step is next (R8). `evt` is an `EVT` word put in by the environment: a spurious invocation of the handler (R100,
R59). -/
inductive Turn where
  /-- The host executes one packet from the command port. -/
  | host
  /-- The DMA reader of a device takes one beat. -/
  | beat (dev : Byte)
  /-- The DMA fault source of a device raises TE. -/
  | fault (dev : Byte)
  /-- The interrupt handler of a device is invoked. -/
  | isr (dev : Byte)
  /-- An `EVT` word is put in. -/
  | evt (w : Half16)
deriving DecidableEq, Repr

/-- The whole block. -/
structure State where
  /-- S0, R10. -/
  res : Word
  /-- S1, R12. -/
  inited : Bool
  /-- S21, R25. -/
  pix : Memory
  /-- The devices; `NDEV` is the length (R2, R5). -/
  devs : List Device
  /-- The model's own: the words the host has put at the command port and the block has not yet taken (R53, R60). -/
  port : List Word
  /-- The model's own: the environment's choice of the next steps (R8, R29). -/
  sched : List Turn
deriving DecidableEq, Repr

/-- Why the machine stops with a fault. -/
inductive Fault where
  /-- The encoder reads a pixel byte that lies in no device's buffer (R42, R147): raised by `SET`, `HT` and `TC`.
  The spec gives the step no result. Safe. -/
  | pixOutOfRange
  /-- A beat at an element index outside the buffer in use (R35 requires an index in range; R26 item 4 rules the case
  out in every reachable state). Raised by the DMA reader. Safe. -/
  | codewordIndex
deriving DecidableEq, Repr

/-- Why the model gives no meaning. -/
inductive Refusal where
  /-- An instruction without a meaning yet, by its mnemonic. Raised by no arm of this model. Safe. -/
  | notModelled (mnemonic : String)
  /-- The configuration is ill-formed (R6, R147): raised by `step`. Safe. -/
  | illFormedConfig
deriving DecidableEq, Repr

/-- Why a command fails (R130): visible to a model only, the host sees `RES = 0`. -/
inductive FailReason where
  | illegalCommand
  | badDevice
  | badConfig
  | notInitialised
  | notIdle
  | nullBuffer
  | zeroLength
  | oversize
  | outOfBounds
deriving DecidableEq, Repr

/-- `n` codewords 0, as a buffer. -/
abbrev zeroCodewords (n : Nat) : Vector Half16 n :=
  ⟨(List.replicate n 0#16).toArray, by simp⟩

/-- A device at power-on (R160). -/
def Device.powerOn (c : DevConfig) : Device :=
  { cfg := c, fsm := .idle, pixBase := 0, total := 0, sent := 0, half := .h0, hval := 0, lval := 0,
    cw := zeroCodewords 96, latch := zeroCodewords 48,
    dmaEn := false, dmaSrc := .cwbuf, dmaLen := 96, dmaRd := 0,
    htif := false, tcif := false, teif := false, htie := false, tcie := false, teie := false,
    chEn := false, ccr := 0, underrun := false, out := [] }

/-- The block at power-on with configuration `c` (R160): no pixel byte holds a value, no input waits. -/
def State.powerOn (c : Config) : State :=
  { res := 0, inited := false, pix := [], devs := c.map Device.powerOn, port := [], sched := [] }

/-- The machine right after reset: power-on with the default configuration. -/
def State.reset : State := State.powerOn Config.default

/-- The configuration of the block: that of its devices (R5). -/
def State.config (s : State) : Config := s.devs.map Device.cfg

end Sys2Proof.Machine
end

