-- ==== Sys2Proof/Machine/Operands.lean ====
section
/-! DEFINITION. Operand forms and address arithmetic: colour bytes (R54), the addresses of a pixel (R125, R82), the order in
which an LED's bytes are sent (R37), codeword symbols (R83 to R85). -/

namespace Sys2Proof.Machine

open Sys2Proof

/-- `trunc_8` of a colour operand (R54): bits 7:0, the rest is ignored. -/
def colour (w : Word) : Byte := w.setWidth 8

/-- Address of LED `i` in the device's own buffer (R125): exact. -/
def pixelAddr (c : DevConfig) (i : Nat) : Nat := c.pixBase + 3 * i

/-- Storage offset of the `c`-th byte sent: green, red, blue are 1, 0, 2 (R37, R82). -/
def channelOffset : Nat → Nat
  | 0 => 1
  | 1 => 0
  | _ => 2

/-- Address of the `c`-th byte sent of LED `led` of a transfer at `base` (R82): exact, never wrapped (R38). -/
def sentAddr (base : Word) (led c : Nat) : Nat := base.toNat + 3 * led + channelOffset c

/-- Bit `b` of a byte counted from the MSB (R82): `byte[7 - b]`. -/
def bitMsbFirst (x : Byte) (b : Nat) : Bool := x.getLsbD (7 - b)

/-- The codeword of a serial bit (R83, R84). -/
def bitCodeword (d : Device) (bit : Bool) : Half16 := if bit then d.hval else d.lval

/-- The half a data flag has vacated (R105). -/
def vacatedHalf : DataFlag → Half
  | .ht => .h0
  | .tc => .h1

/-- Number of a half (R18). -/
def halfIndex : Half → Nat
  | .h0 => 0
  | .h1 => 1

/-- The numeric code of a driver state (R13): naming only, visible nowhere. -/
def fsmCode : Fsm → Nat
  | .idle => 0
  | .transfer => 1
  | .latch => 2
  | .reset => 3

/-- The symbols of a device (R57). -/
def Device.symbols (d : Device) : Symbols := { hval := d.hval, lval := d.lval }

end Sys2Proof.Machine
end

