-- ==== Sys2Proof/Machine/Flags.lean ====
section
/-! DEFINITION. The DMA flags (R21): raising them and the underrun test (R92, R98), which one the handler services (R100),
clearing them. -/

namespace Sys2Proof.Machine

/-- An interrupt the handler can be invoked for (R55). -/
inductive Flag where
  | ht
  | tc
  | te
deriving DecidableEq, Repr

/-- R98: in `Transfer`, a data flag is raised while one is still pending. -/
def refillLate (d : Device) : Bool := decide (d.fsm = .transfer) && (d.htif || d.tcif)

/-- R92, R98: raise a data flag; a late refill sets the sticky underrun bit. -/
def raiseData (f : DataFlag) (d : Device) : Device :=
  match f with
  | .ht => { d with underrun := d.underrun || refillLate d, htif := true }
  | .tc => { d with underrun := d.underrun || refillLate d, tcif := true }

/-- R96: the fault source raises TE. -/
def raiseError (d : Device) : Device := { d with teif := true }

/-- The flag an invocation of the handler services (R100): TE, then HT, then TC, among those pending and enabled. -/
def pendingFlag (d : Device) : Option Flag :=
  if d.teif && d.teie then some .te
  else if d.htif && d.htie then some .ht
  else if d.tcif && d.tcie then some .tc
  else none

/-- Servicing a data flag clears it (R101, R102). -/
def clearData (f : DataFlag) (d : Device) : Device :=
  match f with
  | .ht => { d with htif := false }
  | .tc => { d with tcif := false }

/-- Servicing TE clears it (R103). -/
def clearError (d : Device) : Device := { d with teif := false }

/-- Clear the two data flags (R109). -/
def clearDataFlags (d : Device) : Device := { d with htif := false, tcif := false }

/-- Clear all three flags (R75, R110). -/
def clearFlags (d : Device) : Device := { d with htif := false, tcif := false, teif := false }

/-- Write all three interrupt enables (R75, R110). -/
def setEnables (b : Bool) (d : Device) : Device := { d with htie := b, tcie := b, teie := b }

/-- Some flag is pending (R21). -/
def Device.anyFlag (d : Device) : Bool := d.htif || d.tcif || d.teif

end Sys2Proof.Machine
end

