-- ==== Sys2Proof/Machine/Ops.lean ====
section
/-! DEFINITION. The named operations: pixel memory (R33, R34), devices, results and failures (R7, R10), the output trace
(R24), the DMA stream and the PWM channel (R75, R90, R91, R109, R110, R111), and the handler's entry and return (R142, R143). -/

namespace Sys2Proof.Machine

open Sys2Proof

/-! ### Pixel memory -/

/-- The canonical form: addresses strictly rising, all inside the space. An unlisted address holds no value, so no entry
equals what an unlisted address reads as. -/
abbrev Memory.wf (m : Memory) : Prop :=
  m.Pairwise (fun a b => a.1 < b.1) ∧ ∀ c ∈ m, c.1 < pixSize

/-- The byte last written at `a`, or no value (R33, R160). -/
def Memory.read : Memory → Nat → Option Byte
  | [], _ => none
  | (k, v) :: m, a => if k = a then some v else Memory.read m a

/-- `MemWrite(PIX, a, 1, v)` (R34). -/
def Memory.write : Memory → Nat → Byte → Memory
  | [], a, v => [(a, v)]
  | (k, w) :: m, a, v =>
    if a < k then (a, v) :: (k, w) :: m
    else if a = k then (a, v) :: m
    else (k, w) :: Memory.write m a v

/-- Write 0 to `n` bytes from `a` on (R70). -/
def Memory.zero (m : Memory) (a : Nat) : Nat → Memory
  | 0 => m
  | n + 1 => Memory.zero (m.write a 0) (a + 1) n

/-- `StorePixel(d, i, r, g, b)` (R125): red, green, blue at offsets 0, 1, 2. -/
def storePixel (c : DevConfig) (i : Nat) (r g b : Word) (m : Memory) : Memory :=
  ((m.write (pixelAddr c i) (colour r)).write (pixelAddr c i + 1) (colour g)).write (pixelAddr c i + 2) (colour b)

/-- `StorePixel` for `n` LEDs from LED `i` on (R121, R122). -/
def storePixels (c : DevConfig) (r g b : Word) (i : Nat) : Nat → Memory → Memory
  | 0, m => m
  | n + 1, m => storePixels c r g b (i + 1) n (storePixel c i r g b m)

/-- Zero the own buffers of all devices (R70). -/
def zeroBuffers (devs : List Device) (m : Memory) : Memory :=
  devs.foldl (fun m d => m.zero d.cfg.pixBase (3 * d.cfg.ledMax)) m

/-- `a` lies in the device's own pixel buffer (R25). -/
def DevConfig.owns (c : DevConfig) (a : Nat) : Bool :=
  decide (c.pixBase ≤ a) && decide (a < c.pixBase + 3 * c.ledMax)

/-- `a` is allocated: inside the address space and in some device's buffer (R25, R42). -/
def State.allocated (s : State) (a : Nat) : Bool :=
  decide (a < pixSize) && s.devs.any fun d => DevConfig.owns d.cfg a

/-- The byte the encoder reads at an allocated address (R33). A byte nothing has written is a free value (U3, C11; log entry
4); after INIT every allocated byte has been written. -/
def State.pixByte (s : State) (a : Nat) : Byte := (s.pix.read a).getD (Config.powerOnByte a)

/-! ### Devices, results, trace -/

/-- Device `dev`, if `dev < NDEV` (R74). -/
def State.dev? (s : State) (dev : Byte) : Option Device := s.devs[dev.toNat]?

/-- Put back the state of device `dev`. -/
def State.putDev (s : State) (dev : Byte) (d : Device) : State := { s with devs := s.devs.set dev.toNat d }

/-- `RES <- v` (R7, R10). -/
def State.withRes (s : State) (v : Word) : State := { s with res := v }

/-- `fail(reason)` (R7, R130): `RES <- 0`, nothing else changes, and the reason is not recorded. -/
def State.fail (s : State) (_reason : FailReason) : State := s.withRes 0

/-- `emit(d, item)` (R7, R24). -/
def emit (item : OutItem) (d : Device) : Device := { d with out := d.out ++ [item] }

/-! ### The DMA stream and the PWM channel -/

/-- DMA `configure(stream, src, compare register, length)` (R90). -/
def configure (src : DmaSrc) (len : Half16) (d : Device) : Device :=
  { d with dmaSrc := src, dmaLen := len, dmaRd := 0 }

/-- DMA `enable(stream)`, `disable(stream)` (R90). -/
def setStream (b : Bool) (d : Device) : Device := { d with dmaEn := b }

/-- Timing Harness `enable(channel)`, `disable(channel)` (R90). -/
def setChannel (b : Bool) (d : Device) : Device := { d with chEn := b }

/-- The driver state is written (R13). -/
def setFsm (f : Fsm) (d : Device) : Device := { d with fsm := f }

/-- Zero the codeword buffer (R70, R71, R111). -/
def zeroCw (d : Device) : Device := { d with cw := zeroCodewords 96 }

/-- `ArmCw(d)` (R75). -/
def armCw (d : Device) : Device :=
  emit .en (setChannel true (setEnables true (setStream true (clearFlags (configure .cwbuf 96 d)))))

/-- `StartLatch(d)` (R109): `teif`, the channel and the enables are left alone. -/
def startLatch (d : Device) : Device :=
  setFsm .latch (setStream true (configure .latchbuf 48 (clearDataFlags (setStream false d))))

/-- `CB.COMPLETE`, `CB.ERROR` (R112, R113): the callback is invoked. -/
def callback (c : Callback) (d : Device) : Device := emit (.cb c) d

/-- `Finish(d)` (R110). -/
def finish (d : Device) : Device :=
  callback .complete
    (setFsm .idle (emit .dis (setEnables false (clearFlags (setStream false (setChannel false d))))))

/-- The first lines of `ForceReset` (R111): an operation in flight is aborted. -/
def abort (d : Device) : Device :=
  if d.chEn || d.dmaEn then emit .dis (setStream false (setChannel false d)) else d

/-- The reset sequence covers the device's full LED count (R111, R14). -/
def coverAllLeds (d : Device) : Device := { d with total := BitVec.ofNat 32 d.cfg.ledMax, sent := 0 }

/-- `ForceReset(d)` (R111). -/
def forceReset (d : Device) : Device := setFsm .reset (armCw (coverAllLeds (zeroCw (abort d))))

/-- The codeword the next beat reads (R91). No element has an index outside the buffer (R35). -/
def fetchCodeword (d : Device) : Option Half16 :=
  match d.dmaSrc with
  | .cwbuf => d.cw[d.dmaRd.toNat]?
  | .latchbuf => d.latch[d.dmaRd.toNat]?

/-- `ccr` is written (R22). -/
def setCompare (v : Half16) (d : Device) : Device := { d with ccr := v }

/-- A codeword is written to the compare register (R35, R91): the trace gains it while the channel is enabled. -/
def deliver (v : Half16) (d : Device) : Device :=
  if d.chEn then emit (.cw v) (setCompare v d) else setCompare v d

/-- `dmaRd` is written (R91). -/
def setReader (r : Half16) (d : Device) : Device := { d with dmaRd := r }

/-- In the middle of the buffer HT is raised (R91, R92). -/
def raiseAtMiddle (d : Device) : Device := if d.dmaRd = d.dmaLen / 2 then raiseData .ht d else d

/-- At the end of the buffer the reader wraps and TC is raised (R91, R92, R97). -/
def wrapAtEnd (d : Device) : Device := if d.dmaRd = d.dmaLen then raiseData .tc (setReader 0 d) else d

/-- The second part of a beat (R91): the reader moves on. -/
def advanceReader (d : Device) : Device := wrapAtEnd (raiseAtMiddle (setReader (d.dmaRd + 1) d))

/-- `Beat(d)` of an enabled stream (R91). -/
def beatDevice (d : Device) : Except Fault Device :=
  match fetchCodeword d with
  | some v => .ok (advanceReader (deliver v d))
  | none => .error .codewordIndex

/-! ### Taking an interrupt and returning from it -/

/-- Handler entry (R142): nothing is saved, no mode, mask or stack changes; the handler is given the device and the flag
of R100. It is enabled only once the block is initialised. -/
def takeInterrupt (s : State) (d : Device) : Option Flag :=
  if s.inited then pendingFlag d else none

/-- Handler return (R143): nothing is restored; the device's state is what the handler left. -/
def returnFromInterrupt (s : State) (dev : Byte) (d : Device) : State := s.putDev dev d

end Sys2Proof.Machine
end

