-- ==== Sys2Proof/Machine/Encoder.lean ====
section
/-! DEFINITION. The encoder (41_encoder.md): `EncodeHalf` (R82), called by `SET` and by the handler. -/

namespace Sys2Proof.Machine

open Sys2Proof

/-- Codeword `j` of a half whose first LED is `first` (R82): LED slot `j / 24`, byte slot `j % 24 / 8`, bit `j % 8`; 0 where
no LED is left. -/
def codewordOf (s : State) (d : Device) (first j : Nat) : Half16 :=
  if first + j / 24 < d.total.toNat then
    bitCodeword d (bitMsbFirst (s.pixByte (sentAddr d.pixBase (first + j / 24) (j % 24 / 8))) (j % 8))
  else 0

/-- The three bytes of LED `led` are allocated (R42). -/
def ledReadable (s : State) (d : Device) (led : Nat) : Bool :=
  s.allocated (sentAddr d.pixBase led 0) && s.allocated (sentAddr d.pixBase led 1) &&
    s.allocated (sentAddr d.pixBase led 2)

/-- Every pixel byte `EncodeHalf(d, h, first)` reads is allocated (R82, R42). -/
def halfReadable (s : State) (d : Device) (first : Nat) : Bool :=
  (decide (d.total.toNat ≤ first) || ledReadable s d first) &&
    (decide (d.total.toNat ≤ first + 1) || ledReadable s d (first + 1))

/-- Put 48 codewords into half `h` of the double buffer (R18). -/
def writeHalf (h : Half) (new : Nat → Half16) (cw : Vector Half16 96) : Vector Half16 96 :=
  let l := (List.range 48).map new
  match h with
  | .h0 => ⟨(l ++ cw.toList.drop 48).toArray, by simp [l]⟩
  | .h1 => ⟨(cw.toList.take 48 ++ l).toArray, by simp [l]⟩

/-- `half` is written (R16). -/
def setHalf (h : Half) (d : Device) : Device := { d with half := h }

/-- The codeword buffer is written (R18). -/
def setCw (cw : Vector Half16 96) (d : Device) : Device := { d with cw := cw }

/-- `EncodeHalf(d, h, first)` (R82). It writes the 48 codewords of half `h` and nothing else; a read outside every
device's buffer gives the step no result (R42). -/
def encodeHalf (s : State) (h : Half) (first : Nat) (d : Device) : Except Fault Device :=
  if halfReadable s d first then .ok (setCw (writeHalf h (codewordOf s d first) d.cw) d)
  else .error .pixOutOfRange

end Sys2Proof.Machine
end

