-- ==== Sys2Proof/Machine/Driver.lean ====
section
/-! DEFINITION. The driver commands `INIT`, `SET`, `RESET`, `GETLEDCOUNT` (40_driver_commands.md). -/

namespace Sys2Proof.Machine

open Sys2Proof

/-! ### Checks, in the order of R74 -/

/-- `dev < NDEV`, else `BadDevice` (R74). -/
def requireDevice (s : State) (dev : Byte) : Except FailReason Device :=
  match s.dev? dev with
  | some d => .ok d
  | none => .error .badDevice

/-- Then `inited = 1`, else `NotInitialised` (R71, R72, R123). -/
def requireInited (s : State) (dev : Byte) : Except FailReason Device :=
  match requireDevice s dev with
  | .ok d => if s.inited then .ok d else .error .notInitialised
  | .error r => .error r

/-- Then `fsm = Idle`, else `NotIdle` (R71, R72). -/
def requireIdle (s : State) (dev : Byte) : Except FailReason Device :=
  match requireInited s dev with
  | .ok d => if d.fsm = .idle then .ok d else .error .notIdle
  | .error r => .error r

/-! ### INIT -/

/-- The tick counts INIT derives for a device (R81). -/
def tickCounts (c : DevConfig) : Symbols := symbolsOfTicks c.ticks

/-- `0 < l[d] < h[d] ≤ TICKS[d]` (R70). -/
def tickCountsUsable (c : DevConfig) : Bool :=
  decide (0 < (tickCounts c).lval.toNat) && decide ((tickCounts c).lval.toNat < (tickCounts c).hval.toNat) &&
    decide ((tickCounts c).hval.toNat ≤ c.ticks)

/-- A device as the first successful INIT leaves it (R70): `underrun` and `out` are not touched. -/
def initDevice (d : Device) : Device :=
  { d with
    hval := (tickCounts d.cfg).hval, lval := (tickCounts d.cfg).lval
    fsm := .idle, pixBase := 0, total := 0, sent := 0, half := .h0
    cw := zeroCodewords 96, dmaEn := false, dmaSrc := .cwbuf, dmaLen := 96, dmaRd := 0
    htif := false, tcif := false, teif := false, htie := false, tcie := false, teie := false
    chEn := false, ccr := 0 }

/-- `INIT` (R70): idempotent; all-or-nothing. -/
def execInit (s : State) : Host.Outcome State Fault Refusal :=
  if s.inited then .next (s.withRes 1)
  else if s.devs.all fun d => tickCountsUsable d.cfg then
    .next { s with devs := s.devs.map initDevice, pix := zeroBuffers s.devs s.pix, inited := true, res := 1 }
  else .next (s.fail .badConfig)

/-! ### SET -/

/-- The checks of `SET` in the order of R71. -/
def checkSet (s : State) (dev : Byte) (base count : Word) : Except FailReason Device :=
  match requireIdle s dev with
  | .error r => .error r
  | .ok d =>
    if base = 0 then .error .nullBuffer
    else if count = 0 then .error .zeroLength
    else if d.cfg.ledMax < count.toNat then .error .oversize
    else .ok d

/-- The initial full-buffer encode of `SET` (R71): half 0 takes LEDs 0 and 1, half 1 takes LEDs 2 and 3. -/
def encodeBoth (s : State) (d : Device) : Except Fault Device :=
  match encodeHalf s .h0 0 (zeroCw d) with
  | .error f => .error f
  | .ok d => encodeHalf s .h1 2 d

/-- `SET` stores the buffer pointer and length (R71). -/
def setBuffer (base count : Word) (d : Device) : Device := { d with pixBase := base, total := count, sent := 0 }

/-- The device after a successful `SET` (R71). -/
def startSet (s : State) (base count : Word) (d : Device) : Except Fault Device :=
  match encodeBoth s (setBuffer base count d) with
  | .error f => .error f
  | .ok d => .ok (setFsm .transfer (armCw (setHalf .h1 d)))

/-- `SET d, base, count` (R71). -/
def execSet (dev : Byte) (base count : Word) (s : State) : Host.Outcome State Fault Refusal :=
  match checkSet s dev base count with
  | .error r => .next (s.fail r)
  | .ok d =>
    match startSet s base count d with
    | .error f => .fault f
    | .ok d => .next ((s.putDev dev d).withRes 1)

/-! ### RESET -/

/-- `RESET d` (R72). -/
def execReset (dev : Byte) (s : State) : Host.Outcome State Fault Refusal :=
  match requireIdle s dev with
  | .error r => .next (s.fail r)
  | .ok d => .next ((s.putDev dev (forceReset d)).withRes 1)

/-! ### GETLEDCOUNT -/

/-- `GETLEDCOUNT d` (R73): a bad device or an uninitialised block gives the count 0. -/
def execGetLedCount (dev : Byte) (s : State) : Host.Outcome State Fault Refusal :=
  match requireInited s dev with
  | .error r => .next (s.fail r)
  | .ok d => .next (s.withRes (BitVec.ofNat 32 d.cfg.ledMax))

end Sys2Proof.Machine
end

