-- ==== Sys2Proof/Machine/Events.lean ====
section
/-! DEFINITION. The events `HT`, `TC`, `TE` (43_sequencer.md). The handlers are total: an event of a device that does not exist
changes nothing (R59), a spurious one runs the same pseudocode (R100, R108). -/

namespace Sys2Proof.Machine

open Sys2Proof

/-- `AdvTransfer(d, f)` (R105), with the incremented `sent`. `sent + 2` is exact (R78). -/
def advTransfer (s : State) (f : DataFlag) (d : Device) : Except Fault Device :=
  if d.sent.toNat < d.total.toNat then
    match encodeHalf s (vacatedHalf f) (d.sent.toNat + 2) d with
    | .ok d => .ok (setHalf (vacatedHalf f) d)
    | .error e => .error e
  else .ok (startLatch d)

/-- `AdvReset(d)` (R106). -/
def advReset (d : Device) : Device :=
  if d.total.toNat ≤ d.sent.toNat then startLatch d else d

/-- `AdvLatch(d, f)` (R107). -/
def advLatch (f : DataFlag) (d : Device) : Device :=
  match f with
  | .ht => d
  | .tc => finish d

/-- `sent <- sent +_32 2` (R104): one LED-pair's worth, modulo 2^32. -/
def countPair (d : Device) : Device := { d with sent := d.sent + 2 }

/-- `Advance(d, f)` (R104). -/
def advance (s : State) (f : DataFlag) (d : Device) : Except Fault Device :=
  match d.fsm with
  | .transfer => advTransfer s f (countPair d)
  | .reset => .ok (advReset (countPair d))
  | .latch => .ok (advLatch f (countPair d))
  | .idle => .ok (countPair d)

/-- `OnHT`, `OnTC` (R101, R102). -/
def onData (s : State) (f : DataFlag) (d : Device) : Except Fault Device := advance s f (clearData f d)

/-- `OnTE` (R103). -/
def onError (inited : Bool) (d : Device) : Device :=
  if inited then forceReset (callback .error (clearError d)) else clearError d

/-- One service of a data flag of device `dev`. -/
def serviceData (f : DataFlag) (dev : Byte) (s : State) : Host.Outcome State Fault Refusal :=
  match s.dev? dev with
  | none => .next s
  | some d =>
    match onData s f d with
    | .ok d => .next (returnFromInterrupt s dev d)
    | .error e => .fault e

/-- `HT` (R101). -/
def execHt (dev : Byte) (s : State) : Host.Outcome State Fault Refusal := serviceData .ht dev s

/-- `TC` (R102). -/
def execTc (dev : Byte) (s : State) : Host.Outcome State Fault Refusal := serviceData .tc dev s

/-- `TE` (R103). -/
def execTe (dev : Byte) (s : State) : Host.Outcome State Fault Refusal :=
  match s.dev? dev with
  | none => .next s
  | some d => .next (returnFromInterrupt s dev (onError s.inited d))

end Sys2Proof.Machine
end

