-- ==== Sys2Proof/Machine/Outputs.lean ====
section
/-! DEFINITION. The operations of the block towards the outside: the callbacks `CB.COMPLETE`, `CB.ERROR` (R112, R113) and the
codewords `CW.ONE`, `CW.ZERO`, `CW.FILL` (R83 to R85). No turn puts one in: a callback is run by `Finish` and by the handler of
TE, a codeword by a beat. Of a device that does not exist they change nothing (log entry 6). -/

namespace Sys2Proof.Machine

open Sys2Proof

/-- An output operation on device `dev`. -/
def output (dev : Byte) (f : Device → Device) (s : State) : State :=
  match s.dev? dev with
  | none => s
  | some d => s.putDev dev (f d)

/-- `CB.COMPLETE` (R112): the trace gains `Cb(Complete)`. -/
def execCbComplete (dev : Byte) (s : State) : Host.Outcome State Fault Refusal :=
  .next (output dev (callback .complete) s)

/-- `CB.ERROR` (R113): the trace gains `Cb(Error)`. -/
def execCbError (dev : Byte) (s : State) : Host.Outcome State Fault Refusal :=
  .next (output dev (callback .error) s)

/-- `CW.ONE` (R83): the compare register receives `hval`. -/
def execCwOne (dev : Byte) (s : State) : Host.Outcome State Fault Refusal :=
  .next (output dev (fun d => deliver (bitCodeword d true) d) s)

/-- `CW.ZERO` (R84): the compare register receives `lval`. -/
def execCwZero (dev : Byte) (s : State) : Host.Outcome State Fault Refusal :=
  .next (output dev (fun d => deliver (bitCodeword d false) d) s)

/-- `CW.FILL` (R85): the compare register receives 0. -/
def execCwFill (dev : Byte) (s : State) : Host.Outcome State Fault Refusal :=
  .next (output dev (deliver 0) s)

end Sys2Proof.Machine
end

