-- ==== Sys2Proof/Machine/PixelStore.lean ====
section
/-! DEFINITION. The pixel writers `SETCOLOR`, `FILLCOLOR`, `FILLSEG` (44_pixel_store.md). -/

namespace Sys2Proof.Machine

open Sys2Proof

/-- `StorePixel` for the LEDs `i .. i + n - 1` of a device, then `RES <- 1` (R120 to R122). -/
def storeRange (s : State) (d : Device) (i n : Nat) (r g b : Word) : State :=
  { s with pix := storePixels d.cfg r g b i n s.pix }.withRes 1

/-- `SETCOLOR d, index, r, g, b` (R120). -/
def execSetColor (dev : Byte) (index r g b : Word) (s : State) : Host.Outcome State Fault Refusal :=
  match requireInited s dev with
  | .error e => .next (s.fail e)
  | .ok d =>
    if d.cfg.ledMax ≤ index.toNat then .next (s.fail .outOfBounds)
    else .next (storeRange s d index.toNat 1 r g b)

/-- `FILLCOLOR d, r, g, b` (R121). -/
def execFillColor (dev : Byte) (r g b : Word) (s : State) : Host.Outcome State Fault Refusal :=
  match requireInited s dev with
  | .error e => .next (s.fail e)
  | .ok d => .next (storeRange s d 0 d.cfg.ledMax r g b)

/-- `FILLSEG d, start, end, r, g, b` (R122): both ends included. -/
def execFillSeg (dev : Byte) (first last r g b : Word) (s : State) : Host.Outcome State Fault Refusal :=
  match requireInited s dev with
  | .error e => .next (s.fail e)
  | .ok d =>
    if d.cfg.ledMax ≤ last.toNat ∨ last.toNat < first.toNat then .next (s.fail .outOfBounds)
    else .next (storeRange s d first.toNat (last.toNat - first.toNat + 1) r g b)

end Sys2Proof.Machine
end

