-- ==== Sys2Proof/Machine/Dispatch.lean ====
section
/-! DEFINITION. One arm per operation of R52: a direct call of its meaning. -/

namespace Sys2Proof.Machine

open Sys2Proof

-- One arm per row of the opcode table.
def exec (i : Instr) (s : State) : Host.Outcome State Fault Refusal :=
  match i with
  | .init => Sys2Proof.Machine.execInit s
  | .set dev base count => Sys2Proof.Machine.execSet dev base count s
  | .reset dev => Sys2Proof.Machine.execReset dev s
  | .getLedCount dev => Sys2Proof.Machine.execGetLedCount dev s
  | .setColor dev index r g b => Sys2Proof.Machine.execSetColor dev index r g b s
  | .fillColor dev r g b => Sys2Proof.Machine.execFillColor dev r g b s
  | .fillSeg dev first last r g b => Sys2Proof.Machine.execFillSeg dev first last r g b s
  | .ht dev => Sys2Proof.Machine.execHt dev s
  | .tc dev => Sys2Proof.Machine.execTc dev s
  | .te dev => Sys2Proof.Machine.execTe dev s
  | .cbComplete dev => Sys2Proof.Machine.execCbComplete dev s
  | .cbError dev => Sys2Proof.Machine.execCbError dev s
  | .cwOne dev => Sys2Proof.Machine.execCwOne dev s
  | .cwZero dev => Sys2Proof.Machine.execCwZero dev s
  | .cwFill dev => Sys2Proof.Machine.execCwFill dev s

end Sys2Proof.Machine
end

