-- ==== Sys2Proof/Machine/Agents.lean ====
section
/-! DEFINITION. The agents' steps (R8): the host's packet, a beat, a transfer error, an invocation of the handler, an `EVT` word
put in by the environment. A turn whose agent is not enabled changes nothing but that the turn is over. Also what places an
opcode-table word where the machine fetches it. -/

namespace Sys2Proof.Machine

open Sys2Proof

/-- The host's step (R53, R58, R60): one packet from the command port. An incomplete packet is no command; an illegal one does
`fail(IllegalCommand)` and is consumed. -/
def hostTurn (s : State) : Host.Outcome State Fault Refusal :=
  match decodePacket s.port with
  | .incomplete => .next s
  | .illegal _ _ _ rest => .next (State.fail { s with port := rest } .illegalCommand)
  | .command i rest => exec i { s with port := rest }

/-- `Beat(d)` (R91), enabled when `dma_en = 1` (R99). -/
def beatTurn (dev : Byte) (s : State) : Host.Outcome State Fault Refusal :=
  match s.dev? dev with
  | none => .next s
  | some d =>
    if d.dmaEn then
      match beatDevice d with
      | .ok d => .next (s.putDev dev d)
      | .error e => .fault e
    else .next s

/-- `Fault(d)` (R96), enabled when `dma_en = 1`. -/
def faultTurn (dev : Byte) (s : State) : Host.Outcome State Fault Refusal :=
  match s.dev? dev with
  | none => .next s
  | some d => if d.dmaEn then .next (s.putDev dev (raiseError d)) else .next s

/-- The event instruction that services a flag (R100). -/
def flagInstr (dev : Byte) : Flag → Instr
  | .ht => .ht dev
  | .tc => .tc dev
  | .te => .te dev

/-- `Isr(d)` (R100): one invocation of the handler services exactly one flag. -/
def isrTurn (dev : Byte) (s : State) : Host.Outcome State Fault Refusal :=
  match s.dev? dev with
  | none => .next s
  | some d =>
    match takeInterrupt s d with
    | some f => exec (flagInstr dev f) s
    | none => .next s

/-- An `EVT` word put in by the environment: a spurious invocation (R100); a reserved code is ignored (R59). -/
def evtTurn (w : Half16) (s : State) : Host.Outcome State Fault Refusal :=
  match decodeEvt w with
  | .ok i => exec i s
  | .error _ => .next s

/-- The step of the agent whose turn it is. -/
def runTurn (t : Turn) (s : State) : Host.Outcome State Fault Refusal :=
  match t with
  | .host => hostTurn s
  | .beat dev => beatTurn dev s
  | .fault dev => faultTurn dev s
  | .isr dev => isrTurn dev s
  | .evt w => evtTurn w s

/-- Take the next turn; with no turn left nothing happens. -/
def takeTurn (s : State) : Host.Outcome State Fault Refusal :=
  match s.sched with
  | [] => .next s
  | t :: ts => runTurn t { s with sched := ts }

/-- The next turn of device `dev` under the eager schedule (R62, `RUN d`): every pending and enabled flag is serviced before the
next beat. None once the device is `Idle` with no such flag. -/
def eagerTurn (s : State) (dev : Byte) : Option Turn :=
  match s.dev? dev with
  | none => none
  | some d =>
    if (takeInterrupt s d).isSome then some (.isr dev)
    else if d.fsm = .idle then none
    else if d.dmaEn then some (.beat dev)
    else none

/-- Have the DMA reader of device `dev` fetch the codeword `v` next: it stands at `dma_rd` of the codeword buffer, the stream is
enabled, the device holds its tick counts, and the next turn is a beat. -/
def placeCodeword (dev : Byte) (v : Half16) (s : State) : State :=
  { output dev (fun d =>
      { d with hval := (tickCounts d.cfg).hval, lval := (tickCounts d.cfg).lval,
               cw := d.cw.set! d.dmaRd.toNat v, dmaEn := true, dmaSrc := .cwbuf }) s with
    sched := [.beat dev] }

/-- Have device `dev` finish a frame next: it is in `Latch` with TC alone pending and enabled, and the next turn is the handler's.
`CB.COMPLETE` is run by `Finish` and by nothing else (R112). -/
def placeCompletion (dev : Byte) (s : State) : State :=
  { output dev (fun d =>
      { d with fsm := .latch, htif := false, tcif := true, teif := false, tcie := true }) s with
    inited := true, sched := [.isr dev] }

/-- Have device `dev` run the error callback next: TE is pending and enabled, and the next turn is the handler's. `CB.ERROR` is
run by the handler of TE and by nothing else (R113). -/
def placeError (dev : Byte) (s : State) : State :=
  { output dev (fun d => { d with teif := true, teie := true }) s with
    inited := true, sched := [.isr dev] }

/-- Place an opcode-table word where the next step fetches it: a packet at the command port, an `EVT` word before the handler, a
codeword before the DMA reader, a callback before the step that runs it. -/
def placeTableWord (s : State) (nbits w : Nat) : State :=
  if nbits ≤ 16 then
    let v := BitVec.ofNat 16 (w % 2 ^ nbits)
    match decodeBare16 v with
    | some (.cwOne dev) => placeCodeword dev v s
    | some (.cwZero dev) => placeCodeword dev v s
    | some (.cwFill dev) => placeCodeword dev v s
    | some (.cbComplete dev) => placeCompletion dev s
    | some (.cbError dev) => placeError dev s
    | _ => { s with sched := [.evt v] }
  else { s with port := tablePacket nbits w, sched := [.host] }

end Sys2Proof.Machine
end

