-- ==== Sys2Proof/Machine/Observe.lean ====
section
/-! DEFINITION. The end of a run and what is observed then (R171). -/

namespace Sys2Proof.Machine

open Sys2Proof

/-- R171: nothing is in flight and nothing is pending. -/
abbrev quiescent (s : State) : Prop :=
  ∀ d ∈ s.devs, d.fsm = .idle ∧ d.dmaEn = false ∧ d.chEn = false ∧ d.anyFlag = false

/-- R171: every command has been executed and the state is quiescent. No command is left when the port is used up; the beginning of
a packet whose other words never come is no command (R53; log entry 13). -/
abbrev runOver (s : State) : Prop := decodePacket s.port = .incomplete ∧ quiescent s

/-- What is observed of a run that is over (R171); the lists are by device index. -/
structure Observation where
  /-- `RES`. -/
  res : Word
  /-- Every `out[d]`. -/
  out : List (List OutItem)
  /-- Every device's pixel buffer, in address order; a byte nothing has written holds no value. -/
  buffers : List (List (Option Byte))
  /-- Every `underrun[d]`. -/
  underrun : List Bool
deriving DecidableEq, Repr

/-- The bytes of a device's own pixel buffer (R25). -/
def ownBuffer (s : State) (d : Device) : List (Option Byte) :=
  (List.range (3 * d.cfg.ledMax)).map fun k => s.pix.read (d.cfg.pixBase + k)

/-- The four things observed (R171). -/
def observe (s : State) : Observation :=
  { res := s.res, out := s.devs.map Device.out, buffers := s.devs.map (ownBuffer s), underrun := s.devs.map Device.underrun }

/-- The final observation, once the run is over (R171). -/
def finalObservation (s : State) : Option Observation := if runOver s then some (observe s) else none

end Sys2Proof.Machine
end

