-- ==== Sys2Proof/Safety.lean ====
section
/-! DEFINITION. What counts as a good state and a good run, in the words the statements use: the invariants of R26, the form of the
pixel memory, the double-buffer rule of R87, the data stream of R89, and the hypotheses of the statements. -/

namespace Sys2Proof.Safety

open Sys2Proof Sys2Proof.Machine

/-! ### The output trace -/

/-- Reading a trace item by item (R26 item 8): is a frame open? `none` once the trace is malformed. -/
def traceStep : Option Bool → OutItem → Option Bool
  | some false, .en => some true
  | some true, .dis => some false
  | some true, .cw _ => some true
  | some b, .cb _ => some b
  | _, _ => none

/-- Whether the last frame of a trace is still open, if `En` and `Dis` alternate and every `Cw` lies between them. -/
def frameOpen (out : List OutItem) : Option Bool := out.foldl traceStep (some false)

/-- The codewords of the last frame of a trace: the `Cw` items since the last `En`. -/
def frameCodewords (out : List OutItem) : List Half16 :=
  out.foldl (fun acc item =>
    match item with
    | .en => []
    | .cw v => acc ++ [v]
    | .dis => acc
    | .cb _ => acc) []

/-! ### Invariants -/

/-- All three enables and the stream and channel enables have the value `b` (R26 item 2). -/
abbrev enablesAre (b : Bool) (d : Device) : Prop :=
  d.dmaEn = b ∧ d.chEn = b ∧ d.htie = b ∧ d.tcie = b ∧ d.teie = b

/-- A codeword of the device (R86). -/
abbrev isCodeword (d : Device) (v : Half16) : Prop := v = 0 ∨ v = d.lval ∨ v = d.hval

/-- The invariants of one device (R26, R17, R19). -/
structure DeviceInv (inited : Bool) (d : Device) : Prop where
  /-- R26 item 1. -/
  quiet : inited = false → d.fsm = .idle ∧ d.htif = false ∧ d.tcif = false ∧ d.teif = false
  /-- R26 item 2. -/
  idle : d.fsm = .idle → enablesAre false d
  /-- R26 item 2. -/
  inFlight : d.fsm ≠ .idle → enablesAre true d
  /-- R26 item 3. -/
  codewordBuffer : d.fsm = .transfer ∨ d.fsm = .reset → d.dmaSrc = .cwbuf ∧ d.dmaLen = 96
  /-- R26 item 3. -/
  latchBuffer : d.fsm = .latch → d.dmaSrc = .latchbuf ∧ d.dmaLen = 48
  /-- R26 item 4. -/
  reader : d.dmaRd.toNat < d.dmaLen.toNat
  /-- R26 item 5. -/
  codewords : ∀ v ∈ d.cw.toList, isCodeword d v
  /-- R26 item 5. -/
  compare : isCodeword d d.ccr ∧ d.ccr.toNat ≤ d.cfg.ticks
  /-- R26 item 6. -/
  resetLow : d.fsm = .reset → ∀ v ∈ d.cw.toList, v = 0
  /-- R26 item 7. -/
  length : d.total.toNat ≤ d.cfg.ledMax ∧ (d.fsm = .transfer → 1 ≤ d.total.toNat)
  /-- R26 item 8. -/
  trace : frameOpen d.out = some (decide (d.fsm ≠ .idle))
  /-- R17, and the power-on values before INIT. -/
  symbols : if inited then d.symbols.WellFormed ∧ d.hval.toNat ≤ d.cfg.ticks else d.hval = 0 ∧ d.lval = 0
  /-- R19. -/
  latchLow : ∀ v ∈ d.latch.toList, v = 0

/-- The invariants of R26 hold of every device. -/
def BlockInv (s : State) : Prop := ∀ d ∈ s.devs, DeviceInv s.inited d

/-- The pixel memory is in its canonical form, and once the block is initialised every allocated byte has been written (R33,
C11). -/
def MemoryInv (s : State) : Prop :=
  Memory.wf s.pix ∧
    (s.inited = true → ∀ d ∈ s.devs, ∀ a, DevConfig.owns d.cfg a = true → (s.pix.read a).isSome = true)

/-- R87, R88: in `Transfer`, as long as no underrun was recorded, at most one data flag is pending, and the reader is outside
the half that flag has vacated. -/
def DoubleBuffer (d : Device) : Prop :=
  d.fsm = .transfer → d.underrun = false →
    ¬(d.htif = true ∧ d.tcif = true) ∧ (d.htif = true → 48 ≤ d.dmaRd.toNat) ∧ (d.tcif = true → d.dmaRd.toNat < 48)

/-- Every transfer in flight reads its device's own buffer, as the source's host has it (R42). -/
def OwnBuffers (s : State) : Prop := ∀ d ∈ s.devs, d.fsm = .transfer → d.pixBase.toNat = d.cfg.pixBase

/-- At most `n` steps of the eager schedule of device `dev` (R62, `RUN d`), put before the turns still to come; it ends early when
the device is done. -/
def runEager (dev : Byte) : Nat → State → Host.Outcome State Machine.Fault Refusal
  | 0, s => .next s
  | n + 1, s =>
    match eagerTurn s dev with
    | none => .next s
    | some turn =>
      match step { s with sched := turn :: s.sched } with
      | .next t => runEager dev n t
      | .fault r => .fault r
      | .refused r => .refused r

/-! ### The encoder's rule in the spec's own indices -/

/-- The serial bit of byte slot `c` and bit slot `b` of LED `led` of a transfer at `base` (R82): the byte at offset 1, 0, 2, bit
7 - b. -/
def serialBit (s : State) (base led c b : Nat) : Bool :=
  (s.pixByte (base + 3 * led + [1, 0, 2].getD c 0)).getLsbD (7 - b)

/-- R82: half `h` of `cw` holds the encoding of the LEDs `first` and `first + 1` of device `d`'s transfer. -/
def HoldsLeds (s : State) (d : Device) (h first : Nat) (cw : Vector Half16 96) : Prop :=
  ∀ k c b, k < 2 → c < 3 → b < 8 →
    cw[48 * h + 24 * k + 8 * c + b]? =
      some (if first + k < d.total.toNat then
              (if serialBit s d.pixBase.toNat (first + k) c b then d.hval else d.lval)
            else 0)

/-- R42: the three bytes of every LED among `first`, `first + 1` that is left are allocated. -/
def LedsAllocated (s : State) (base total first : Nat) : Prop :=
  ∀ led, (led = first ∨ led = first + 1) → led < total →
    ∀ off, off < 3 → s.allocated (base + 3 * led + off) = true

/-- Codeword `j` of the data stream `Enc(p, n)` followed by zeros (R89), for the pixels as they are in `s`. -/
def streamCodeword (s : State) (d : Device) (j : Nat) : Half16 :=
  if j / 24 < d.total.toNat then
    (if serialBit s d.pixBase.toNat (j / 24) (j % 24 / 8) (j % 8) then d.hval else d.lval)
  else 0

/-- How many data flags are pending. -/
def pendingData (d : Device) : Nat := (if d.htif then 1 else 0) + (if d.tcif then 1 else 0)

/-- Where a frame of device `d` stands in `Transfer`, for the stream `f` (R89): what has been sent is the stream's beginning, the
flags, the counter and the reader agree, the half being read holds its part of the stream, and so does the next half once it has
been refilled. -/
structure SendingFrame (s : State) (d : Device) (f : Nat → Half16) : Prop where
  stream : ∀ j, f j = streamCodeword s d j
  sent : frameCodewords d.out = (List.range (frameCodewords d.out).length).map f
  progress : (frameCodewords d.out).length = 24 * d.sent.toNat + 48 * pendingData d + d.dmaRd.toNat % 48
  even : d.sent.toNat % 2 = 0
  side : d.dmaRd.toNat / 48 = (d.sent.toNat / 2 + pendingData d) % 2
  oneFlag : ¬(d.htif = true ∧ d.tcif = true)
  htSide : d.htif = true → 48 ≤ d.dmaRd.toNat
  tcSide : d.tcif = true → d.dmaRd.toNat < 48
  remains : d.sent.toNat < d.total.toNat
  reading : ∀ j, j < 48 → d.cw[48 * (d.dmaRd.toNat / 48) + j]? =
    some (f (48 * ((frameCodewords d.out).length / 48) + j))
  next : pendingData d = 0 → ∀ j, j < 48 → d.cw[48 * (1 - d.dmaRd.toNat / 48) + j]? =
    some (f (48 * ((frameCodewords d.out).length / 48 + 1) + j))

/-- Where a frame stands in `Latch`, for the stream `f` of `n` LEDs (R116): all data has gone out, then zeros only. -/
structure LatchingFrame (d : Device) (f : Nat → Half16) : Prop where
  low : ∀ j, 24 * d.total.toNat ≤ j → f j = 0
  sent : frameCodewords d.out = (List.range (frameCodewords d.out).length).map f
  zeros : 24 * d.total.toNat + d.dmaRd.toNat ≤ (frameCodewords d.out).length
  whole : d.tcif = true → 24 * d.total.toNat + 48 ≤ (frameCodewords d.out).length

/-- A frame begun by `SET` stands well (R89). -/
def FrameOk (s : State) (d : Device) (f : Nat → Half16) : Prop :=
  (d.fsm = .transfer → SendingFrame s d f) ∧ (d.fsm = .latch → LatchingFrame d f)

/-! ### Hypotheses of the statements -/

/-- The next turn of a block with a well-formed configuration is `t`, and `ts` follow. -/
abbrev NextTurn (s : State) (t : Turn) (ts : List Turn) : Prop :=
  s.config.WellFormed ∧ s.sched = t :: ts

/-- Device `dev` is `d`, and the block is initialised. -/
abbrev Ready (s : State) (dev : Byte) (d : Device) : Prop := s.dev? dev = some d ∧ s.inited = true

/-- The checks 2 to 7 of `SET` (R71) pass. -/
abbrev SetAllowed (s : State) (dev : Byte) (d : Device) (base count : Word) : Prop :=
  Ready s dev d ∧ d.fsm = .idle ∧ base ≠ 0 ∧ count ≠ 0 ∧ count.toNat ≤ d.cfg.ledMax

/-- The event instruction of a data flag (R55). -/
def dataEvent (f : DataFlag) (dev : Byte) : Instr :=
  match f with
  | .ht => .ht dev
  | .tc => .tc dev

/-- Device `dev` is `d`, in state `fsm`. -/
abbrev InState (s : State) (dev : Byte) (d : Device) (fsm : Fsm) : Prop := s.dev? dev = some d ∧ d.fsm = fsm

/-- `t` differs from `s` in no device but number `dev`. -/
def OthersSame (s t : State) (dev : Byte) : Prop :=
  t.devs.length = s.devs.length ∧ ∀ k, k ≠ dev.toNat → t.devs[k]? = s.devs[k]?

/-- The device whose agent, other than the host, takes the turn; an `EVT` word names its device. -/
def turnDevice : Turn → Option Byte
  | .host => none
  | .beat dev => some dev
  | .fault dev => some dev
  | .isr dev => some dev
  | .evt w => some (wordDev w)

/-- The device a command names; `INIT` names none. -/
def commandDevice : Instr → Option Byte
  | .init => none
  | .set dev _ _ => some dev
  | .reset dev => some dev
  | .getLedCount dev => some dev
  | .setColor dev _ _ _ _ => some dev
  | .fillColor dev _ _ _ => some dev
  | .fillSeg dev _ _ _ _ _ => some dev
  | .ht dev => some dev
  | .tc dev => some dev
  | .te dev => some dev
  | .cbComplete dev => some dev
  | .cbError dev => some dev
  | .cwOne dev => some dev
  | .cwZero dev => some dev
  | .cwFill dev => some dev

/-- The flag of device number `k` that a turn services: the handler's turn services the one of R100, an `EVT` word the one it names
(R55). -/
def servicedFlag (s : State) (k : Nat) (d : Device) : Turn → Option Flag
  | .host => none
  | .beat _ => none
  | .fault _ => none
  | .isr dev => if dev.toNat = k then takeInterrupt s d else none
  | .evt w =>
    if (wordDev w).toNat = k then
      (if wordCode w = 1#8 then some .ht else if wordCode w = 2#8 then some .tc
        else if wordCode w = 3#8 then some .te else none)
    else none

end Sys2Proof.Safety
end

