-- ==== Sys2Proof/Certificates/Slice0/Obligations.lean ====
section
/-! DEFINITION. The statements for the provers. -/

section

open Sys2Proof Sys2Proof.Machine Sys2Proof.Safety

/-! ### Encodings -/

/-- Words of 95_test_vectors.md section 2.1 decode to what they stand for (R51, R52, R55, R56, R57). -/
def Obligations.SpecWordsDecode : Prop :=
  decodePacket [0x02030000#32, 0x20000100#32, 0x3C#32] = .command (.set 3 0x20000100 60) [] ∧
  decodePacket [0x12000000#32, 2#32, 5#32, 1#32, 2#32, 3#32] = .command (.fillSeg 0 2 5 1 2 3) [] ∧
  decodePacket [0x11000000#32, 1#32, 2#32, 3#32, 0x03000000#32] = .command (.fillColor 0 1 2 3) [0x03000000#32] ∧
  decodePacket [0x02000001#32, 0x20000000#32, 1#32] = .illegal .reservedBits 0 [0x20000000#32, 1#32] [] ∧
  decodePacket [0x01010000#32] = .illegal .initDevice 1 [] [] ∧
  decodePacket [0xFF05FFFF#32, 7#32] = .illegal .unknownOp 5 [] [7#32] ∧
  decodeEvt 0x0203#16 = .ok (.te 2) ∧
  decodeCb 0x0100#16 = .ok (.cbComplete 1) ∧
  decodeCw { hval := 68, lval := 32 } 0 32#16 = .ok (.cwZero 0)

/-- Decoding an encoded instruction gives it back, for every instruction and every operand (R51 to R57); the symbols of a device
are distinct (R17). -/
def Obligations.EncodeThenDecode : Prop :=
  ∀ (y : Byte → Symbols) (i : Instr), (∀ (dev : Byte), (y dev).WellFormed) → decode y (encode y i) = .ok i

/-- Every word or packet the decoder accepts is the encoding of the instruction it gives: no bit is ignored. Of a command stream
it is the words up to the rest. -/
def Obligations.DecodeThenEncode : Prop :=
  (∀ (y : Byte → Symbols) (ws : List Word) (i : Instr) (rest : List Word), decodePacket ws = .command i rest →
      ∃ used, ws = used ++ rest ∧ encode y i = .cmd used) ∧
  (∀ (y : Byte → Symbols) (w : Half16) (i : Instr), decodeEvt w = .ok i → encode y i = .evt w) ∧
  (∀ (y : Byte → Symbols) (w : Half16) (i : Instr), decodeCb w = .ok i → encode y i = .cb w) ∧
  (∀ (y : Byte → Symbols) dev v i, decodeCw (y dev) dev v = .ok i → encode y i = .cw dev v)

/-- R53: the number of operand words is by `op` alone, a packet takes that many words whether or not it is legal, and a packet whose
words are not all there is no command. Of an illegal packet the decoder gives the device field and the operand words (R60). -/
def Obligations.PacketLengths : Prop :=
  (operandWords 0x01 = 0 ∧ operandWords 0x02 = 2 ∧ operandWords 0x03 = 0 ∧ operandWords 0x04 = 0 ∧
    operandWords 0x10 = 4 ∧ operandWords 0x11 = 3 ∧ operandWords 0x12 = 5 ∧
    ∀ op, op ∉ [0x02#8, 0x10#8, 0x11#8, 0x12#8] → operandWords op = 0) ∧
  (∀ (h : Word) (ws : List Word), operandWords (headerOp h) ≤ ws.length →
    (∃ i, decodePacket (h :: ws) = .command i (ws.drop (operandWords (headerOp h)))) ∨
    (∃ why, decodePacket (h :: ws) =
      .illegal why (headerDev h) (ws.take (operandWords (headerOp h))) (ws.drop (operandWords (headerOp h))))) ∧
  (∀ (s : State) (ts : List Turn) (h : Word) (ws : List Word), NextTurn s .host ts → s.port = h :: ws → ws.length < operandWords (headerOp h) →
    step s = .next { s with sched := ts })

/-- R58: a complete packet is illegal exactly when its `op` is none of the seven, its bits 15:0 are not 0, or it is an `INIT` with a
device; it then sets `RES` to 0, is consumed, and changes nothing else. A legal packet for a device that does not exist has the same
visible result (R74). -/
def Obligations.IllegalPackets : Prop :=
  (∀ (h : Word) (ws : List Word), operandWords (headerOp h) ≤ ws.length →
    ((∃ why dev ops rest, decodePacket (h :: ws) = .illegal why dev ops rest) ↔
      (headerOp h ∉ [0x01#8, 0x02#8, 0x03#8, 0x04#8, 0x10#8, 0x11#8, 0x12#8] ∨ headerZero h ≠ 0 ∨
        (headerOp h = 0x01 ∧ headerDev h ≠ 0)))) ∧
  (∀ (s : State) (ts : List Turn) (h : Word) (ws : List Word) (why : Reject) (dev : Byte) (ops rest : List Word),
    NextTurn s .host ts → s.port = h :: ws → decodePacket s.port = .illegal why dev ops rest →
    dev = headerDev h ∧ ops = ws.take (operandWords (headerOp h)) ∧ rest = ws.drop (operandWords (headerOp h)) ∧
    step s = .next { s with res := 0, port := rest, sched := ts }) ∧
  (∀ (s : State) (ts : List Turn) (i : Instr) (dev : Byte) (rest : List Word), NextTurn s .host ts → decodePacket s.port = .command i rest →
    commandDevice i = some dev → s.dev? dev = none → step s = .next { s with res := 0, port := rest, sched := ts })

/-! ### The step -/

/-- When the words at the command port decode to a command, the host's step is that command's, past its words. -/
def Obligations.StepRunsPacket : Prop :=
  ∀ (s : State) (ts : List Turn) (i : Instr) (rest : List Word), NextTurn s .host ts → decodePacket s.port = .command i rest →
    step s = exec i { s with port := rest, sched := ts }

/-- An `EVT` word put in runs the event it decodes to (R100, spurious invocation; log entry 12); a reserved code changes nothing
(R59). -/
def Obligations.StepRunsEventWord : Prop :=
  ∀ (s : State) (ts : List Turn) (w : Half16), NextTurn s (.evt w) ts →
    (∀ (i : Instr), decodeEvt w = .ok i → step s = exec i { s with sched := ts }) ∧
    (wordCode w ∉ [1#8, 2#8, 3#8] → step s = .next { s with sched := ts })

/-- R100: an invocation of the handler services exactly one pending and enabled flag, TE before HT before TC, in an initialised block;
it is not enabled otherwise. -/
def Obligations.HandlerDispatch : Prop :=
  ∀ (s : State) (ts : List Turn) (dev : Byte) (d : Device), NextTurn s (.isr dev) ts → s.dev? dev = some d →
    step s =
      if s.inited = true ∧ d.teif = true ∧ d.teie = true then exec (.te dev) { s with sched := ts }
      else if s.inited = true ∧ d.htif = true ∧ d.htie = true then exec (.ht dev) { s with sched := ts }
      else if s.inited = true ∧ d.tcif = true ∧ d.tcie = true then exec (.tc dev) { s with sched := ts }
      else .next { s with sched := ts }

/-- R91, R92, R98: a beat copies the codeword at `dma_rd` to the compare register, appends it to the trace while the channel is
enabled, moves the reader on circularly, raises HT in the middle and TC at the end, and records an underrun when it raises a data
flag in `Transfer` while one is pending. It changes nothing else. -/
def Obligations.BeatCopiesOneCodeword : Prop :=
  ∀ (s : State) (ts : List Turn) (dev : Byte) (d : Device) (v : Half16), NextTurn s (.beat dev) ts → s.dev? dev = some d → d.dmaEn = true →
    (d.dmaSrc = .cwbuf → d.cw[d.dmaRd.toNat]? = some v) → (d.dmaSrc = .latchbuf → d.latch[d.dmaRd.toNat]? = some v) →
    step s = .next ({ s with sched := ts }.putDev dev
      { d with
        ccr := v
        out := if d.chEn then d.out ++ [OutItem.cw v] else d.out
        dmaRd := if d.dmaRd.toNat + 1 = d.dmaLen.toNat then 0 else d.dmaRd + 1
        htif := d.htif || decide (d.dmaRd.toNat + 1 = d.dmaLen.toNat / 2)
        tcif := d.tcif || decide (d.dmaRd.toNat + 1 = d.dmaLen.toNat)
        underrun := d.underrun || (decide (d.fsm = Fsm.transfer) && (d.htif || d.tcif) &&
          (decide (d.dmaRd.toNat + 1 = d.dmaLen.toNat / 2) || decide (d.dmaRd.toNat + 1 = d.dmaLen.toNat))) })

/-- A beat runs the codeword instruction that the fetched codeword decodes to, and then moves the reader on (R57, R91); where the
invariants hold, every codeword of an initialised block's device decodes (R57, R86). -/
def Obligations.BeatRunsCodeword : Prop :=
  (∀ (s : State) (ts : List Turn) (dev : Byte) (d : Device) (v : Half16) (i : Instr) (t : State) (e : Device),
    NextTurn s (.beat dev) ts → s.dev? dev = some d → d.dmaEn = true →
    fetchCodeword d = some v → decodeCw d.symbols dev v = .ok i →
    exec i { s with sched := ts } = .next t → t.dev? dev = some e →
    step s = .next (t.putDev dev (advanceReader e))) ∧
  (∀ (s : State) (dev : Byte) (d : Device) (v : Half16), BlockInv s → s.inited = true → d ∈ s.devs →
    fetchCodeword d = some v → ∃ i, decodeCw d.symbols dev v = .ok i)

/-- R96: the step of the fault source is enabled exactly while the stream is; it then raises TE and changes nothing else. -/
def Obligations.FaultSourceRaisesError : Prop :=
  ∀ (s : State) (ts : List Turn) (dev : Byte) (d : Device), NextTurn s (.fault dev) ts → s.dev? dev = some d →
    step s = .next (if d.dmaEn = true then { s with sched := ts }.putDev dev { d with teif := true } else { s with sched := ts })

/-- R99: a disabled stream has no beat (and its fault source does not act, R96), and where the invariants hold a stream is disabled
exactly when its channel is. -/
def Obligations.DisabledStreamIsStill : Prop :=
  (∀ (s : State) (ts : List Turn) (dev : Byte) (d : Device), s.dev? dev = some d → d.dmaEn = false →
    (NextTurn s (.beat dev) ts → step s = .next { s with sched := ts }) ∧
    (NextTurn s (.fault dev) ts → step s = .next { s with sched := ts })) ∧
  (∀ (s : State) (d : Device), BlockInv s → d ∈ s.devs → d.dmaEn = d.chEn)

/-- R6: exactly a block with an ill-formed configuration is given no meaning. -/
def Obligations.IllFormedRefused : Prop :=
  ∀ (s : State), (∃ r, step s = .refused r) ↔ ¬ s.config.WellFormed

/-! ### INIT -/

/-- R81: the tick counts, and that they are usable exactly from 4 ticks on. -/
def Obligations.TickCounts : Prop :=
  ∀ T, 1 ≤ T → T ≤ 65535 →
    (symbolsOfTicks T).hval.toNat = 17 * T / 25 ∧ (symbolsOfTicks T).lval.toNat = 8 * T / 25 ∧
    ((symbolsOfTicks T).WellFormed ↔ 4 ≤ T) ∧ (symbolsOfTicks T).hval.toNat ≤ T

/-- R70: the first `INIT` of a block whose devices all have 4 ticks or more sets every device to its initial state, computes the tick
counts, zeroes every device's pixel buffer and no other byte, and answers 1. `underrun` and `out` are not touched. -/
def Obligations.InitCompletes : Prop :=
  ∀ (s : State), s.inited = false → (∀ d ∈ s.devs, 4 ≤ d.cfg.ticks ∧ d.cfg.ticks ≤ 65535) →
    ∃ t, exec .init s = .next t ∧
      t = { s with res := 1, inited := true, devs := t.devs, pix := t.pix } ∧
      t.devs = s.devs.map (fun d => { d with
        hval := BitVec.ofNat 16 (17 * d.cfg.ticks / 25), lval := BitVec.ofNat 16 (8 * d.cfg.ticks / 25)
        fsm := .idle, pixBase := 0, total := 0, sent := 0, half := .h0
        cw := Vector.replicate 96 0, dmaEn := false, dmaSrc := .cwbuf, dmaLen := 96, dmaRd := 0
        htif := false, tcif := false, teif := false, htie := false, tcie := false, teie := false
        chEn := false, ccr := 0 }) ∧
      (∀ d ∈ s.devs, ∀ (a : Nat), d.cfg.pixBase ≤ a → a < d.cfg.pixBase + 3 * d.cfg.ledMax → t.pix.read a = some 0) ∧
      (∀ (a : Nat), (∀ d ∈ s.devs, ¬(d.cfg.pixBase ≤ a ∧ a < d.cfg.pixBase + 3 * d.cfg.ledMax)) →
        t.pix.read a = s.pix.read a)

/-- R70: a repeated `INIT` answers 1 and changes nothing, in any state; and `INIT` is all-or-nothing: with fewer than 4 ticks on some
device it answers 0 and changes nothing, for all devices. -/
def Obligations.InitChangesNothing : Prop :=
  (∀ s : State, s.inited = true → exec .init s = .next { s with res := 1 }) ∧
  (∀ s : State, s.inited = false → (∃ d ∈ s.devs, d.cfg.ticks < 4) → exec .init s = .next { s with res := 0 })

/-! ### SET, RESET, GETLEDCOUNT -/

/-- R71: a `SET` whose checks pass and whose first four LEDs are allocated encodes both halves, arms the stream on the codeword
buffer, enables stream, interrupts and channel, emits `En`, goes to `Transfer` and answers 1. It changes nothing else. -/
def Obligations.SetCompletes : Prop :=
  ∀ (s : State) (dev : Byte) (d : Device) (base count : Word), SetAllowed s dev d base count →
    LedsAllocated s base.toNat count.toNat 0 → LedsAllocated s base.toNat count.toNat 2 →
    ∃ cw, exec (.set dev base count) s = .next ({ s with res := 1 }.putDev dev
        { d with
          pixBase := base, total := count, sent := 0, half := .h1, cw := cw
          dmaSrc := .cwbuf, dmaLen := 96, dmaRd := 0, dmaEn := true
          htif := false, tcif := false, teif := false, htie := true, tcie := true, teie := true
          chEn := true, out := d.out ++ [OutItem.en], fsm := .transfer }) ∧
      HoldsLeds s { d with pixBase := base, total := count } 0 0 cw ∧
      HoldsLeds s { d with pixBase := base, total := count } 1 2 cw

/-- R71: the seven checks decide the reason in their order, and each failure answers 0 and changes nothing else. -/
def Obligations.SetRejects : Prop :=
  ∀ (s : State) (dev : Byte) (base count : Word),
    (s.dev? dev = none → checkSet s dev base count = .error .badDevice) ∧
    (∀ (d : Device), s.dev? dev = some d →
      checkSet s dev base count =
        if s.inited = false then .error .notInitialised
        else if d.fsm ≠ .idle then .error .notIdle
        else if base = 0 then .error .nullBuffer
        else if count = 0 then .error .zeroLength
        else if d.cfg.ledMax < count.toNat then .error .oversize
        else .ok d) ∧
    (∀ (r : FailReason), checkSet s dev base count = .error r → exec (.set dev base count) s = .next { s with res := 0 })

/-- R71, R42: in a well-formed configuration a `SET` of the device's own buffer never faults. -/
def Obligations.SetOwnBufferCompletes : Prop :=
  ∀ (s : State) (dev : Byte) (d : Device) (base count : Word), s.config.WellFormed → SetAllowed s dev d base count → base.toNat = d.cfg.pixBase →
    ∃ t e, exec (.set dev base count) s = .next t ∧ t.res = 1 ∧ t.dev? dev = some e ∧ e.fsm = .transfer ∧
      e.out = d.out ++ [OutItem.en]

/-- R42, R71: a `SET` that would read an unallocated pixel byte is the fault `PixOutOfRange`. -/
def Obligations.SetForeignBufferFaults : Prop :=
  ∀ (s : State) (dev : Byte) (d : Device) (base count : Word) (led off : Nat), SetAllowed s dev d base count → led < 4 → led < count.toNat → off < 3 →
    s.allocated (base.toNat + 3 * led + off) = false →
    exec (.set dev base count) s = .fault .pixOutOfRange

/-- The source's test (X6, R82): when the green byte of LED 0 is 0b10110000, the first eight codewords after a `SET` are
`[H,L,H,H,L,L,L,L]`. -/
def Obligations.GreenByteCodewords : Prop :=
  ∀ (s : State) (dev : Byte) (d : Device) (base count : Word) (t : State) (e : Device), SetAllowed s dev d base count → s.pix.read (base.toNat + 1) = some 0b10110000#8 →
    exec (.set dev base count) s = .next t → t.dev? dev = some e →
    e.cw.toList.take 8 = [d.hval, d.lval, d.hval, d.hval, d.lval, d.lval, d.lval, d.lval]

/-- R72, R111: `RESET` of an `Idle` device zeroes the codeword buffer, covers the device's full LED count, arms the stream, goes to
`Reset` and answers 1; `pix_base`, `half` and the pixels are left alone. A device in `Idle` has stream and channel disabled (R26). -/
def Obligations.ResetCompletes : Prop :=
  ∀ (s : State) (dev : Byte) (d : Device), Ready s dev d → d.fsm = .idle → d.chEn = false → d.dmaEn = false →
    exec (.reset dev) s = .next ({ s with res := 1 }.putDev dev
      { d with
        cw := Vector.replicate 96 0, total := BitVec.ofNat 32 d.cfg.ledMax, sent := 0
        dmaSrc := .cwbuf, dmaLen := 96, dmaRd := 0, dmaEn := true
        htif := false, tcif := false, teif := false, htie := true, tcie := true, teie := true
        chEn := true, out := d.out ++ [OutItem.en], fsm := .reset })

/-- R72: `RESET` of a bad device, of an uninitialised block or of a device not in `Idle` answers 0 and changes nothing else. -/
def Obligations.ResetRejects : Prop :=
  ∀ (s : State) (dev : Byte), (s.dev? dev = none ∨ s.inited = false ∨ ∃ d, s.dev? dev = some d ∧ d.fsm ≠ .idle) →
    exec (.reset dev) s = .next { s with res := 0 }

/-- R73: `GETLEDCOUNT` answers the LED count, or 0 for a bad device or before `INIT`, and changes nothing else; in a well-formed
configuration a valid count is not 0. -/
def Obligations.GetLedCountAnswers : Prop :=
  (∀ (s : State) (dev : Byte) (d : Device), Ready s dev d → exec (.getLedCount dev) s = .next { s with res := BitVec.ofNat 32 d.cfg.ledMax }) ∧
  (∀ (s : State) (dev : Byte), s.dev? dev = none ∨ s.inited = false → exec (.getLedCount dev) s = .next { s with res := 0 }) ∧
  (∀ (s : State) (dev : Byte) (d : Device), s.config.WellFormed → s.dev? dev = some d →
    (BitVec.ofNat 32 d.cfg.ledMax).toNat = d.cfg.ledMax ∧ BitVec.ofNat 32 d.cfg.ledMax ≠ 0)

/-! ### Pixel writers -/

/-- R120, R125: `SETCOLOR` in bounds stores red, green, blue in storage order at the LED's three bytes, answers 1, and changes nothing
else. -/
def Obligations.SetColorStoresOneLed : Prop :=
  ∀ (s : State) (dev : Byte) (d : Device) (index r g b : Word), Ready s dev d → index.toNat < d.cfg.ledMax →
    ∃ t, exec (.setColor dev index r g b) s = .next t ∧ t = { s with res := 1, pix := t.pix } ∧
      t.pix.read (d.cfg.pixBase + 3 * index.toNat) = some (r.setWidth 8) ∧
      t.pix.read (d.cfg.pixBase + 3 * index.toNat + 1) = some (g.setWidth 8) ∧
      t.pix.read (d.cfg.pixBase + 3 * index.toNat + 2) = some (b.setWidth 8) ∧
      ∀ (a : Nat), ¬(d.cfg.pixBase + 3 * index.toNat ≤ a ∧ a < d.cfg.pixBase + 3 * index.toNat + 3) →
        t.pix.read a = s.pix.read a

/-- R121: `FILLCOLOR` gives every LED of the device the colour, answers 1, and changes no byte outside the device's own buffer. -/
def Obligations.FillColorStoresAllLeds : Prop :=
  ∀ (s : State) (dev : Byte) (d : Device) (r g b : Word), Ready s dev d →
    ∃ t, exec (.fillColor dev r g b) s = .next t ∧ t = { s with res := 1, pix := t.pix } ∧
      (∀ i : Nat, i < d.cfg.ledMax →
        t.pix.read (d.cfg.pixBase + 3 * i) = some (r.setWidth 8) ∧
        t.pix.read (d.cfg.pixBase + 3 * i + 1) = some (g.setWidth 8) ∧
        t.pix.read (d.cfg.pixBase + 3 * i + 2) = some (b.setWidth 8)) ∧
      ∀ (a : Nat), ¬(d.cfg.pixBase ≤ a ∧ a < d.cfg.pixBase + 3 * d.cfg.ledMax) → t.pix.read a = s.pix.read a

/-- R122: `FILLSEG` with start ≤ end in bounds gives the LEDs start to end, both included, the colour, answers 1, and changes no
other byte. -/
def Obligations.FillSegStoresInclusive : Prop :=
  ∀ (s : State) (dev : Byte) (d : Device) (first last r g b : Word), Ready s dev d → first.toNat ≤ last.toNat → last.toNat < d.cfg.ledMax →
    ∃ t, exec (.fillSeg dev first last r g b) s = .next t ∧ t = { s with res := 1, pix := t.pix } ∧
      (∀ i : Nat, first.toNat ≤ i → i ≤ last.toNat →
        t.pix.read (d.cfg.pixBase + 3 * i) = some (r.setWidth 8) ∧
        t.pix.read (d.cfg.pixBase + 3 * i + 1) = some (g.setWidth 8) ∧
        t.pix.read (d.cfg.pixBase + 3 * i + 2) = some (b.setWidth 8)) ∧
      ∀ (a : Nat), ¬(d.cfg.pixBase + 3 * first.toNat ≤ a ∧ a < d.cfg.pixBase + 3 * (last.toNat + 1)) →
        t.pix.read a = s.pix.read a

/-- R122: the whole range is `FILLCOLOR`. -/
def Obligations.FillSegWholeIsFillColor : Prop :=
  ∀ (s : State) (dev : Byte) (d : Device) (first last r g b : Word), Ready s dev d → first.toNat = 0 → last.toNat + 1 = d.cfg.ledMax →
    exec (.fillSeg dev first last r g b) s = exec (.fillColor dev r g b) s

/-- R120, R122, R123: a writer of a bad device or of an uninitialised block, a `SETCOLOR` out of bounds, and a `FILLSEG` whose end is
out of bounds or whose start is after its end answer 0 and change nothing else, no pixel included. -/
def Obligations.WritersReject : Prop :=
  (∀ (s : State) (dev : Byte) (index first last r g b : Word), (s.dev? dev = none ∨ s.inited = false) →
    exec (.setColor dev index r g b) s = .next { s with res := 0 } ∧
    exec (.fillColor dev r g b) s = .next { s with res := 0 } ∧
    exec (.fillSeg dev first last r g b) s = .next { s with res := 0 }) ∧
  (∀ (s : State) (dev : Byte) (d : Device) (index r g b : Word), s.dev? dev = some d → d.cfg.ledMax ≤ index.toNat →
    exec (.setColor dev index r g b) s = .next { s with res := 0 }) ∧
  (∀ (s : State) (dev : Byte) (d : Device) (first last r g b : Word), s.dev? dev = some d → (d.cfg.ledMax ≤ last.toNat ∨ last.toNat < first.toNat) →
    exec (.fillSeg dev first last r g b) s = .next { s with res := 0 })

/-! ### Events -/

/-- R101, R102, R104, R105: a data event in `Transfer` with pixel data left refills the vacated half with the LEDs `sent + 2` and
`sent + 3` (the incremented `sent`), and changes nothing else. -/
def Obligations.DataEventRefills : Prop :=
  ∀ (s : State) (dev : Byte) (d : Device) (f : DataFlag), InState s dev d .transfer → (d.sent + 2).toNat < d.total.toNat →
    LedsAllocated s d.pixBase.toNat d.total.toNat ((d.sent + 2).toNat + 2) →
    ∃ cw, exec (dataEvent f dev) s = .next (s.putDev dev
        { d with
          htif := (match f with | .ht => false | .tc => d.htif)
          tcif := (match f with | .ht => d.tcif | .tc => false)
          sent := d.sent + 2, cw := cw, half := (match f with | .ht => .h0 | .tc => .h1) }) ∧
      HoldsLeds s d (match f with | .ht => 0 | .tc => 1) ((d.sent + 2).toNat + 2) cw ∧
      ∀ i : Nat, i / 48 ≠ (match f with | .ht => 0 | .tc => 1) → cw[i]? = d.cw[i]?

/-- R105, R106, R109: a data event in `Transfer` or `Reset` that finds everything sent switches the stream to the latch buffer; `teif`,
the channel and the enables are left alone. -/
def Obligations.DataEventStartsLatch : Prop :=
  ∀ (s : State) (dev : Byte) (d : Device) (f : DataFlag), s.dev? dev = some d → (d.fsm = .transfer ∨ d.fsm = .reset) → d.total.toNat ≤ (d.sent + 2).toNat →
    exec (dataEvent f dev) s = .next (s.putDev dev
      { d with
        sent := d.sent + 2, htif := false, tcif := false
        dmaSrc := .latchbuf, dmaLen := 48, dmaRd := 0, dmaEn := true, fsm := .latch })

/-- R106: a data event in `Reset` before that only counts. -/
def Obligations.DataEventInReset : Prop :=
  ∀ (s : State) (dev : Byte) (d : Device) (f : DataFlag), InState s dev d .reset → (d.sent + 2).toNat < d.total.toNat →
    exec (dataEvent f dev) s = .next (s.putDev dev
      { d with
        htif := (match f with | .ht => false | .tc => d.htif)
        tcif := (match f with | .ht => d.tcif | .tc => false)
        sent := d.sent + 2 })

/-- R107, R110: in `Latch`, HT only counts, and TC finishes the frame: channel, stream, flags and enables off, `Dis`, `Idle`,
`Cb(Complete)`; everything else keeps its value. -/
def Obligations.EventsInLatch : Prop :=
  ∀ (s : State) (dev : Byte) (d : Device), InState s dev d .latch →
    exec (.ht dev) s = .next (s.putDev dev { d with htif := false, sent := d.sent + 2 }) ∧
    exec (.tc dev) s = .next (s.putDev dev
      { d with
        sent := d.sent + 2, chEn := false, dmaEn := false
        htif := false, tcif := false, teif := false, htie := false, tcie := false, teie := false
        fsm := .idle, out := d.out ++ [OutItem.dis, .cb .complete] })

/-- R108: a data event in `Idle` changes only `sent` and the serviced flag, before `INIT` too (the model's reading, log entry 5); where
the invariants hold the handler's own turn does not bring one about. -/
def Obligations.DataEventInIdle : Prop :=
  (∀ (s : State) (dev : Byte) (d : Device) (f : DataFlag), InState s dev d .idle →
    exec (dataEvent f dev) s = .next (s.putDev dev
      { d with
        htif := (match f with | .ht => false | .tc => d.htif)
        tcif := (match f with | .ht => d.tcif | .tc => false)
        sent := d.sent + 2 })) ∧
  (∀ (s : State) (ts : List Turn) (dev : Byte) (d : Device), BlockInv s → NextTurn s (.isr dev) ts → InState s dev d .idle → step s = .next { s with sched := ts })

/-- R105, R42: a refill that would read an unallocated pixel byte is the fault `PixOutOfRange`. -/
def Obligations.RefillFaults : Prop :=
  ∀ (s : State) (dev : Byte) (d : Device) (f : DataFlag) (led off : Nat), InState s dev d .transfer → (d.sent + 2).toNat < d.total.toNat →
    (led = (d.sent + 2).toNat + 2 ∨ led = (d.sent + 2).toNat + 3) → led < d.total.toNat → off < 3 →
    s.allocated (d.pixBase.toNat + 3 * led + off) = false →
    exec (dataEvent f dev) s = .fault .pixOutOfRange

/-- R103, R111, R113: TE of an initialised block reports the error, aborts what is in flight, and starts the all-low reset sequence from
any state. With the block not initialised it only clears the flag. -/
def Obligations.ErrorForcesReset : Prop :=
  (∀ (s : State) (dev : Byte) (d : Device), Ready s dev d →
    exec (.te dev) s = .next (s.putDev dev
      { d with
        out := d.out ++ [.cb .error] ++ (if d.chEn = true ∨ d.dmaEn = true then [.dis] else []) ++ [.en]
        cw := Vector.replicate 96 0, total := BitVec.ofNat 32 d.cfg.ledMax, sent := 0
        dmaSrc := .cwbuf, dmaLen := 96, dmaRd := 0, dmaEn := true, chEn := true
        htif := false, tcif := false, teif := false, htie := true, tcie := true, teie := true
        fsm := .reset })) ∧
  (∀ (s : State) (dev : Byte) (d : Device), s.dev? dev = some d → s.inited = false →
    exec (.te dev) s = .next (s.putDev dev { d with teif := false }))

/-- R59, and log entry 6 (the model's choice for the output operations and for turns): an operation of a device that does not exist
changes nothing, and neither does a turn of one. -/
def Obligations.MissingDeviceIgnored : Prop :=
  ∀ (s : State) (dev : Byte), s.dev? dev = none →
    (∀ i ∈ [Instr.ht dev, .tc dev, .te dev, .cbComplete dev, .cbError dev, .cwOne dev, .cwZero dev, .cwFill dev],
      exec i s = .next s) ∧
    (∀ (turn : Turn) (ts : List Turn), turnDevice turn = some dev → NextTurn s turn ts →
      step s = .next { s with sched := ts })

/-! ### Callbacks and codewords -/

/-- R112, R113: a callback is one item of the device's trace and nothing else. -/
def Obligations.CallbacksAppendOneItem : Prop :=
  ∀ (s : State) (dev : Byte) (d : Device), s.dev? dev = some d →
    exec (.cbComplete dev) s = .next (s.putDev dev { d with out := d.out ++ [.cb .complete] }) ∧
    exec (.cbError dev) s = .next (s.putDev dev { d with out := d.out ++ [.cb .error] })

/-- R83, R84, R85: the three codewords are `hval`, `lval` and 0; one is written to the compare register, and the trace gains it while the
channel is enabled. -/
def Obligations.CodewordsReachCompareRegister : Prop :=
  ∀ (s : State) (dev : Byte) (d : Device), s.dev? dev = some d →
    exec (.cwOne dev) s = .next (s.putDev dev
      { d with ccr := d.hval, out := if d.chEn then d.out ++ [.cw d.hval] else d.out }) ∧
    exec (.cwZero dev) s = .next (s.putDev dev
      { d with ccr := d.lval, out := if d.chEn then d.out ++ [.cw d.lval] else d.out }) ∧
    exec (.cwFill dev) s = .next (s.putDev dev
      { d with ccr := 0, out := if d.chEn then d.out ++ [.cw 0] else d.out })

/-! ### Invariants of every step -/

/-- R26, the double-buffer rule of R87 and R88 (which the spec derives) and the form of the pixel memory (log entry 3) hold at
power-on, for every configuration. -/
def Obligations.PowerOnInvariants : Prop :=
  ∀ c : Config, BlockInv (State.powerOn c) ∧ (∀ d ∈ (State.powerOn c).devs, DoubleBuffer d) ∧ MemoryInv (State.powerOn c)

/-- R26 (which the spec derives): every step keeps the invariants. -/
def Obligations.StepKeepsInvariants : Prop := ∀ (s t : State), BlockInv s → step s = .next t → BlockInv t

/-- Every step keeps the canonical form of the pixel memory, and that every allocated byte of an initialised block has been written
(C11, R33). -/
def Obligations.StepKeepsMemory : Prop := ∀ (s t : State), MemoryInv s → step s = .next t → MemoryInv t

/-- R160: the power-on state, field by field, for every configuration; no byte of `PIX` holds a value. -/
def Obligations.PowerOnState : Prop :=
  ∀ c : Config, (State.powerOn c).res = 0 ∧ (State.powerOn c).inited = false ∧ (State.powerOn c).config = c ∧
    (∀ (a : Nat), (State.powerOn c).pix.read a = none) ∧
    ∀ d ∈ (State.powerOn c).devs, d.fsm = .idle ∧ d.pixBase = 0 ∧ d.total = 0 ∧ d.sent = 0 ∧ halfIndex d.half = 0 ∧
      d.hval = 0 ∧ d.lval = 0 ∧ (∀ i : Nat, i < 96 → d.cw[i]? = some 0) ∧ (∀ i : Nat, i < 48 → d.latch[i]? = some 0) ∧
      d.dmaEn = false ∧ d.dmaSrc = .cwbuf ∧ d.dmaLen.toNat = 96 ∧ d.dmaRd = 0 ∧
      d.anyFlag = false ∧ d.htie = false ∧ d.tcie = false ∧ d.teie = false ∧
      d.chEn = false ∧ d.ccr = 0 ∧ d.underrun = false ∧ d.out = []

/-- R114: every change of a device's `fsm` in a step is one of the listed ones, with the listed step, condition and items. -/
def Obligations.TransitionRelation : Prop :=
  ∀ (s t : State) (turn : Turn) (ts : List Turn) (k : Nat) (d e : Device),
    BlockInv s → NextTurn s turn ts → step s = .next t →
    s.devs[k]? = some d → t.devs[k]? = some e → e.fsm ≠ d.fsm →
    (d.fsm = .idle ∧ e.fsm = .transfer ∧ t.res = 1 ∧ e.out = d.out ++ [OutItem.en] ∧ turn = .host ∧
      ∃ dev base count rest, dev.toNat = k ∧ decodePacket s.port = .command (.set dev base count) rest) ∨
    (d.fsm = .idle ∧ e.fsm = .reset ∧ t.res = 1 ∧ e.out = d.out ++ [OutItem.en] ∧ turn = .host ∧
      ∃ dev rest, dev.toNat = k ∧ decodePacket s.port = .command (.reset dev) rest) ∨
    ((d.fsm = .transfer ∨ d.fsm = .reset) ∧ e.fsm = .latch ∧
      (servicedFlag s k d turn = some .ht ∨ servicedFlag s k d turn = some .tc) ∧
      e.sent = d.sent + 2 ∧ d.total.toNat ≤ e.sent.toNat ∧ e.out = d.out) ∨
    (d.fsm = .latch ∧ e.fsm = .idle ∧ servicedFlag s k d turn = some .tc ∧
      e.out = d.out ++ [OutItem.dis, .cb .complete]) ∨
    (s.inited = true ∧ e.fsm = .reset ∧ servicedFlag s k d turn = some .te ∧
      e.out = d.out ++ [OutItem.cb .error] ++ (if d.fsm = .idle then [] else [.dis]) ++ [.en])

/-- R2, R157, R10: a step of a device's agent touches that device only: no other device, no result register, no pixel. -/
def Obligations.AgentsTouchOneDevice : Prop :=
  ∀ (s t : State) (turn : Turn) (ts : List Turn) (dev : Byte), NextTurn s turn ts → turnDevice turn = some dev → step s = .next t →
    OthersSame s t dev ∧ t = { s with devs := t.devs, sched := ts }

/-- R2, R157: a command other than `INIT` changes the state of no device but the one it names. -/
def Obligations.CommandsTouchOneDevice : Prop :=
  ∀ (s t : State) (i : Instr) (dev : Byte), commandDevice i = some dev → exec i s = .next t → OthersSame s t dev ∧ t = { s with res := t.res, pix := t.pix, devs := t.devs }

/-- R2, R157: what a device's agent does to the device depends on no other device's state: two blocks of the same configuration that
agree on the device, on `inited` and on the pixels do the same to it. -/
def Obligations.DevicesIndependent : Prop :=
  ∀ (s₁ s₂ t₁ : State) (turn : Turn) (ts₁ ts₂ : List Turn) (dev : Byte), NextTurn s₁ turn ts₁ → NextTurn s₂ turn ts₂ → turnDevice turn = some dev →
    s₁.config = s₂.config → s₁.inited = s₂.inited → s₁.pix = s₂.pix → s₁.dev? dev = s₂.dev? dev →
    step s₁ = .next t₁ → ∃ t₂, step s₂ = .next t₂ ∧ t₁.dev? dev = t₂.dev? dev

/-- R34, R123: a command other than `INIT` writes no pixel byte outside the own buffer of the device it names; `INIT` writes only bytes
of devices' buffers. -/
def Obligations.PixelWritesStayInBuffer : Prop :=
  (∀ (s t : State) (i : Instr) (dev : Byte) (a : Nat), commandDevice i = some dev → exec i s = .next t → t.pix.read a ≠ s.pix.read a →
    ∃ d, s.dev? dev = some d ∧ DevConfig.owns d.cfg a = true) ∧
  (∀ (s t : State) (a : Nat), exec .init s = .next t → t.pix.read a ≠ s.pix.read a → ∃ d ∈ s.devs, DevConfig.owns d.cfg a = true)

/-- R5, R12, R17, R19, R23, R24: no step changes the configuration or the latch buffer, clears `inited` or `underrun`, takes an item
off a trace, or, once the block is initialised, changes the tick counts. -/
def Obligations.StepKeepsHistory : Prop :=
  ∀ (s t : State), step s = .next t → t.config = s.config ∧ (s.inited = true → t.inited = true) ∧
    ∀ (k : Nat) (d : Device), s.devs[k]? = some d → ∃ e, t.devs[k]? = some e ∧ e.latch = d.latch ∧ d.out <+: e.out ∧
      (d.underrun = true → e.underrun = true) ∧ (s.inited = true → e.hval = d.hval ∧ e.lval = d.lval)

/-- R112, R113: `Cb(Complete)` is emitted once at every arrival in `Idle` from `Latch` and at no other time, `Cb(Error)` once per
serviced TE and at no other time. -/
def Obligations.CallbacksOnlyWhereDue : Prop :=
  ∀ (s t : State) (turn : Turn) (ts : List Turn) (k : Nat) (d e : Device) (new : List OutItem),
    BlockInv s → NextTurn s turn ts → step s = .next t →
    s.devs[k]? = some d → t.devs[k]? = some e → e.out = d.out ++ new →
    new.count (.cb .complete) = (if d.fsm = .latch ∧ e.fsm = .idle then 1 else 0) ∧
    new.count (.cb .error) = (if s.inited = true ∧ servicedFlag s k d turn = some .te then 1 else 0)

/-- R87, R88 (which the spec derives): every step keeps the double-buffer rule. -/
def Obligations.StepKeepsDoubleBuffer : Prop :=
  ∀ (s t : State), BlockInv s → (∀ d ∈ s.devs, DoubleBuffer d) → step s = .next t → ∀ d ∈ t.devs, DoubleBuffer d

/-- R87 (which the spec derives): with no underrun recorded, the handler's turn does not change the element the reader reads next. -/
def Obligations.EncoderAvoidsReader : Prop :=
  ∀ (s t : State) (ts : List Turn) (dev : Byte) (d e : Device), BlockInv s → DoubleBuffer d → NextTurn s (.isr dev) ts → InState s dev d .transfer →
    d.underrun = false → step s = .next t → t.dev? dev = some e → e.fsm = .transfer →
    e.dmaRd = d.dmaRd ∧ e.cw[d.dmaRd.toNat]? = d.cw[d.dmaRd.toNat]?

/-- R42, R147: where the invariants hold and every transfer in flight reads its own device's buffer, a step faults only in a `SET`
command. -/
def Obligations.OwnBuffersNeverFault : Prop :=
  ∀ (s : State) (turn : Turn) (ts : List Turn) (r : Machine.Fault), BlockInv s → OwnBuffers s → NextTurn s turn ts → step s = .fault r →
    turn = .host ∧ ∃ dev base count rest, decodePacket s.port = .command (.set dev base count) rest

/-- R158: where the invariants hold, an `Idle` device has no enabled step but the host's. R171 (and log entry 13): a device in flight still has
an enabled beat, and no run is over while there is one; a run that is over stays over, with the same final observation, whatever turn is
left but an `EVT` word; and the final observation is `RES`, every trace, every pixel buffer and every `underrun`. -/
def Obligations.IdleDeviceIsInert : Prop :=
  (∀ (s : State) (ts : List Turn) (dev : Byte) (d : Device) (turn : Turn), BlockInv s → InState s dev d .idle →
    turn ∈ [Turn.beat dev, .fault dev, .isr dev] → NextTurn s turn ts → step s = .next { s with sched := ts }) ∧
  (∀ (s : State) (d : Device), BlockInv s → d ∈ s.devs → d.fsm ≠ .idle → d.dmaEn = true ∧ finalObservation s = none) ∧
  (∀ (s : State) (ts : List Turn) (turn : Turn), BlockInv s → runOver s → NextTurn s turn ts → (∀ (w : Half16), turn ≠ .evt w) →
    step s = .next { s with sched := ts } ∧ finalObservation { s with sched := ts } = finalObservation s) ∧
  (∀ (s : State), runOver s ↔ decodePacket s.port = .incomplete ∧
    ∀ d ∈ s.devs, d.fsm = .idle ∧ d.dmaEn = false ∧ d.chEn = false ∧ d.htif = false ∧ d.tcif = false ∧ d.teif = false) ∧
  (∀ (s : State), runOver s → ∃ o, finalObservation s = some o ∧ o.res = s.res ∧ o.out.length = s.devs.length ∧
    o.underrun.length = s.devs.length ∧ o.buffers.length = s.devs.length ∧
    ∀ (k : Nat) (d : Device), s.devs[k]? = some d → o.out[k]? = some d.out ∧ o.underrun[k]? = some d.underrun ∧
      ∃ bytes, o.buffers[k]? = some bytes ∧ bytes.length = 3 * d.cfg.ledMax ∧
        ∀ i : Nat, i < 3 * d.cfg.ledMax → bytes[i]? = some (s.pix.read (d.cfg.pixBase + i)))

/-- R91, R97: `n` beats in a row that stay inside the buffer send its codewords in order. -/
def Obligations.BeatsStreamTheBuffer : Prop :=
  ∀ (n : Nat) (s : State) (ts : List Turn) (dev : Byte) (d : Device), BlockInv s → s.config.WellFormed → s.sched = List.replicate n (.beat dev) ++ ts →
    s.dev? dev = some d → d.fsm ≠ .idle → d.dmaRd.toNat + n < d.dmaLen.toNat →
    ∃ t e, core.run n s = .next t ∧ t = { s with devs := t.devs, sched := ts } ∧ OthersSame s t dev ∧
      t.dev? dev = some e ∧ e.dmaRd.toNat = d.dmaRd.toNat + n ∧ e.cw = d.cw ∧ e.latch = d.latch ∧
      e.out = d.out ++ ((match d.dmaSrc with | .cwbuf => d.cw.toList | .latchbuf => d.latch.toList).drop
        d.dmaRd.toNat |>.take n).map .cw

/-- R107, R109, R110, R117: a device that has just gone to `Latch` is `Idle` again after the 48 beats of the latch buffer and two
invocations of the handler, with 48 zero codewords, `Dis` and `Cb(Complete)` in its trace. -/
def Obligations.LatchRunsToIdle : Prop :=
  ∀ (s : State) (ts : List Turn) (dev : Byte) (d : Device), BlockInv s → s.inited = true → s.config.WellFormed → InState s dev d .latch → d.dmaRd = 0 →
    d.htif = false → d.tcif = false → d.teif = false →
    s.sched = List.replicate 24 (.beat dev) ++ [.isr dev] ++ List.replicate 24 (.beat dev) ++ [.isr dev] ++ ts →
    ∃ t e, core.run 50 s = .next t ∧ t.sched = ts ∧ t.dev? dev = some e ∧ e.fsm = .idle ∧
      e.sent = d.sent + 4 ∧ e.out = d.out ++ List.replicate 48 (.cw 0) ++ [OutItem.dis, .cb .complete]

/-- R62 (its last part, which the spec derives), R98: a step of the eager schedule never records an underrun; the schedule has a turn
for a device of the block exactly while the device is in flight. -/
def Obligations.EagerScheduleNeverUnderruns : Prop :=
  ∀ (s : State) (dev : Byte) (d : Device), BlockInv s → s.inited = true → s.config.WellFormed → s.dev? dev = some d →
    (eagerTurn s dev = none ↔ d.fsm = .idle) ∧
    ∀ (turn : Turn) (t : State) (e : Device), eagerTurn s dev = some turn →
      step { s with sched := turn :: s.sched } = .next t → t.dev? dev = some e → e.underrun = d.underrun

/-- R62, R116 (c), R117 (which the spec derives), R175: from a freshly armed `Transfer` of the device's own buffer, or a freshly armed
`Reset`, the eager schedule brings the device to `Idle` in `48 p + 48` beats and `p + 2` invocations of the handler, `p` being half
the LED count rounded up; that many codewords, `Dis` and `Cb(Complete)` are sent, `sent` ends at `2 p + 4`, and no underrun is
recorded. -/
def Obligations.EagerFrameCounts : Prop :=
  ∀ (s : State) (dev : Byte) (d : Device) (p : Nat), BlockInv s → s.inited = true → s.config.WellFormed → s.dev? dev = some d →
    (d.fsm = .transfer ∨ d.fsm = .reset) → (d.fsm = .transfer → d.pixBase.toNat = d.cfg.pixBase) →
    1 ≤ d.total.toNat → d.sent = 0 → d.dmaRd = 0 → d.htif = false → d.tcif = false → d.teif = false → p = (d.total.toNat + 1) / 2 →
    ∃ (t : State) (e : Device) (cws : List Half16), runEager dev ((48 * p + 48) + (p + 2)) s = .next t ∧ t = { s with devs := t.devs } ∧ OthersSame s t dev ∧
      t.dev? dev = some e ∧ e.fsm = .idle ∧ e.sent.toNat = 2 * p + 4 ∧ e.underrun = d.underrun ∧
      cws.length = 48 * p + 48 ∧ e.out = d.out ++ cws.map .cw ++ [OutItem.dis, .cb .complete]

/-! ### The frame -/

/-- R89 (which the spec derives): a `SET` begins a frame whose stream is the encoding of the pixels. -/
def Obligations.SetBeginsFrame : Prop :=
  ∀ (s t : State) (dev : Byte) (d e : Device) (base count : Word), SetAllowed s dev d base count → exec (.set dev base count) s = .next t →
    t.dev? dev = some e → FrameOk t e (streamCodeword t e) ∧ frameCodewords e.out = []

/-- R89, R116 (which the spec derives): as long as no underrun is recorded, no event is put in from outside, and the host does not write
the pixels in flight (R152), every step of a frame keeps what has been sent equal to the beginning of the stream, and a frame that
ends has sent all of it and at least 48 zeros. -/
def Obligations.FrameCarriesTheData : Prop :=
  ∀ (s t : State) (turn : Turn) (ts : List Turn) (dev : Byte) (d e : Device) (f : Nat → Half16), BlockInv s → NextTurn s turn ts → (∀ (w : Half16), turn ≠ .evt w) → step s = .next t →
    s.dev? dev = some d → t.dev? dev = some e → (d.fsm = .transfer ∨ d.fsm = .latch) → e.underrun = false →
    (∀ (a : Nat), d.pixBase.toNat ≤ a → a < d.pixBase.toNat + 3 * d.total.toNat → t.pix.read a = s.pix.read a) →
    FrameOk s d f →
    (e.fsm = .transfer ∨ e.fsm = .latch → FrameOk t e f) ∧
    (e.fsm = .idle → frameCodewords e.out = (List.range (frameCodewords e.out).length).map f ∧
      24 * e.total.toNat + 48 ≤ (frameCodewords e.out).length ∧ ∀ j, 24 * e.total.toNat ≤ j → f j = 0)

end
end

