-- ==== Sys2Proof/Laws/State.lean ====
section
/-! SUPPORT. What each update does to each field: one small lemma per field per update. -/

namespace Sys2Proof.Machine

open Sys2Proof

/-! `emit` -/

@[simp] theorem emit_cfg (item : OutItem) (d : Device) : (emit item d).cfg = d.cfg := rfl
@[simp] theorem emit_fsm (item : OutItem) (d : Device) : (emit item d).fsm = d.fsm := rfl
@[simp] theorem emit_pixBase (item : OutItem) (d : Device) : (emit item d).pixBase = d.pixBase := rfl
@[simp] theorem emit_total (item : OutItem) (d : Device) : (emit item d).total = d.total := rfl
@[simp] theorem emit_sent (item : OutItem) (d : Device) : (emit item d).sent = d.sent := rfl
@[simp] theorem emit_half (item : OutItem) (d : Device) : (emit item d).half = d.half := rfl
@[simp] theorem emit_hval (item : OutItem) (d : Device) : (emit item d).hval = d.hval := rfl
@[simp] theorem emit_lval (item : OutItem) (d : Device) : (emit item d).lval = d.lval := rfl
@[simp] theorem emit_cw (item : OutItem) (d : Device) : (emit item d).cw = d.cw := rfl
@[simp] theorem emit_latch (item : OutItem) (d : Device) : (emit item d).latch = d.latch := rfl
@[simp] theorem emit_dmaEn (item : OutItem) (d : Device) : (emit item d).dmaEn = d.dmaEn := rfl
@[simp] theorem emit_dmaSrc (item : OutItem) (d : Device) : (emit item d).dmaSrc = d.dmaSrc := rfl
@[simp] theorem emit_dmaLen (item : OutItem) (d : Device) : (emit item d).dmaLen = d.dmaLen := rfl
@[simp] theorem emit_dmaRd (item : OutItem) (d : Device) : (emit item d).dmaRd = d.dmaRd := rfl
@[simp] theorem emit_htif (item : OutItem) (d : Device) : (emit item d).htif = d.htif := rfl
@[simp] theorem emit_tcif (item : OutItem) (d : Device) : (emit item d).tcif = d.tcif := rfl
@[simp] theorem emit_teif (item : OutItem) (d : Device) : (emit item d).teif = d.teif := rfl
@[simp] theorem emit_htie (item : OutItem) (d : Device) : (emit item d).htie = d.htie := rfl
@[simp] theorem emit_tcie (item : OutItem) (d : Device) : (emit item d).tcie = d.tcie := rfl
@[simp] theorem emit_teie (item : OutItem) (d : Device) : (emit item d).teie = d.teie := rfl
@[simp] theorem emit_chEn (item : OutItem) (d : Device) : (emit item d).chEn = d.chEn := rfl
@[simp] theorem emit_ccr (item : OutItem) (d : Device) : (emit item d).ccr = d.ccr := rfl
@[simp] theorem emit_underrun (item : OutItem) (d : Device) : (emit item d).underrun = d.underrun := rfl
@[simp] theorem emit_out (item : OutItem) (d : Device) : (emit item d).out = d.out ++ [item] := rfl

/-! `callback` -/

@[simp] theorem callback_cfg (c : Callback) (d : Device) : (callback c d).cfg = d.cfg := rfl
@[simp] theorem callback_fsm (c : Callback) (d : Device) : (callback c d).fsm = d.fsm := rfl
@[simp] theorem callback_pixBase (c : Callback) (d : Device) : (callback c d).pixBase = d.pixBase := rfl
@[simp] theorem callback_total (c : Callback) (d : Device) : (callback c d).total = d.total := rfl
@[simp] theorem callback_sent (c : Callback) (d : Device) : (callback c d).sent = d.sent := rfl
@[simp] theorem callback_half (c : Callback) (d : Device) : (callback c d).half = d.half := rfl
@[simp] theorem callback_hval (c : Callback) (d : Device) : (callback c d).hval = d.hval := rfl
@[simp] theorem callback_lval (c : Callback) (d : Device) : (callback c d).lval = d.lval := rfl
@[simp] theorem callback_cw (c : Callback) (d : Device) : (callback c d).cw = d.cw := rfl
@[simp] theorem callback_latch (c : Callback) (d : Device) : (callback c d).latch = d.latch := rfl
@[simp] theorem callback_dmaEn (c : Callback) (d : Device) : (callback c d).dmaEn = d.dmaEn := rfl
@[simp] theorem callback_dmaSrc (c : Callback) (d : Device) : (callback c d).dmaSrc = d.dmaSrc := rfl
@[simp] theorem callback_dmaLen (c : Callback) (d : Device) : (callback c d).dmaLen = d.dmaLen := rfl
@[simp] theorem callback_dmaRd (c : Callback) (d : Device) : (callback c d).dmaRd = d.dmaRd := rfl
@[simp] theorem callback_htif (c : Callback) (d : Device) : (callback c d).htif = d.htif := rfl
@[simp] theorem callback_tcif (c : Callback) (d : Device) : (callback c d).tcif = d.tcif := rfl
@[simp] theorem callback_teif (c : Callback) (d : Device) : (callback c d).teif = d.teif := rfl
@[simp] theorem callback_htie (c : Callback) (d : Device) : (callback c d).htie = d.htie := rfl
@[simp] theorem callback_tcie (c : Callback) (d : Device) : (callback c d).tcie = d.tcie := rfl
@[simp] theorem callback_teie (c : Callback) (d : Device) : (callback c d).teie = d.teie := rfl
@[simp] theorem callback_chEn (c : Callback) (d : Device) : (callback c d).chEn = d.chEn := rfl
@[simp] theorem callback_ccr (c : Callback) (d : Device) : (callback c d).ccr = d.ccr := rfl
@[simp] theorem callback_underrun (c : Callback) (d : Device) : (callback c d).underrun = d.underrun := rfl
@[simp] theorem callback_out (c : Callback) (d : Device) : (callback c d).out = d.out ++ [.cb c] := rfl

/-! `configure` -/

@[simp] theorem configure_cfg (src : DmaSrc) (len : Half16) (d : Device) : (configure src len d).cfg = d.cfg := rfl
@[simp] theorem configure_fsm (src : DmaSrc) (len : Half16) (d : Device) : (configure src len d).fsm = d.fsm := rfl
@[simp] theorem configure_pixBase (src : DmaSrc) (len : Half16) (d : Device) : (configure src len d).pixBase = d.pixBase := rfl
@[simp] theorem configure_total (src : DmaSrc) (len : Half16) (d : Device) : (configure src len d).total = d.total := rfl
@[simp] theorem configure_sent (src : DmaSrc) (len : Half16) (d : Device) : (configure src len d).sent = d.sent := rfl
@[simp] theorem configure_half (src : DmaSrc) (len : Half16) (d : Device) : (configure src len d).half = d.half := rfl
@[simp] theorem configure_hval (src : DmaSrc) (len : Half16) (d : Device) : (configure src len d).hval = d.hval := rfl
@[simp] theorem configure_lval (src : DmaSrc) (len : Half16) (d : Device) : (configure src len d).lval = d.lval := rfl
@[simp] theorem configure_cw (src : DmaSrc) (len : Half16) (d : Device) : (configure src len d).cw = d.cw := rfl
@[simp] theorem configure_latch (src : DmaSrc) (len : Half16) (d : Device) : (configure src len d).latch = d.latch := rfl
@[simp] theorem configure_dmaEn (src : DmaSrc) (len : Half16) (d : Device) : (configure src len d).dmaEn = d.dmaEn := rfl
@[simp] theorem configure_dmaSrc (src : DmaSrc) (len : Half16) (d : Device) : (configure src len d).dmaSrc = src := rfl
@[simp] theorem configure_dmaLen (src : DmaSrc) (len : Half16) (d : Device) : (configure src len d).dmaLen = len := rfl
@[simp] theorem configure_dmaRd (src : DmaSrc) (len : Half16) (d : Device) : (configure src len d).dmaRd = 0 := rfl
@[simp] theorem configure_htif (src : DmaSrc) (len : Half16) (d : Device) : (configure src len d).htif = d.htif := rfl
@[simp] theorem configure_tcif (src : DmaSrc) (len : Half16) (d : Device) : (configure src len d).tcif = d.tcif := rfl
@[simp] theorem configure_teif (src : DmaSrc) (len : Half16) (d : Device) : (configure src len d).teif = d.teif := rfl
@[simp] theorem configure_htie (src : DmaSrc) (len : Half16) (d : Device) : (configure src len d).htie = d.htie := rfl
@[simp] theorem configure_tcie (src : DmaSrc) (len : Half16) (d : Device) : (configure src len d).tcie = d.tcie := rfl
@[simp] theorem configure_teie (src : DmaSrc) (len : Half16) (d : Device) : (configure src len d).teie = d.teie := rfl
@[simp] theorem configure_chEn (src : DmaSrc) (len : Half16) (d : Device) : (configure src len d).chEn = d.chEn := rfl
@[simp] theorem configure_ccr (src : DmaSrc) (len : Half16) (d : Device) : (configure src len d).ccr = d.ccr := rfl
@[simp] theorem configure_underrun (src : DmaSrc) (len : Half16) (d : Device) : (configure src len d).underrun = d.underrun := rfl
@[simp] theorem configure_out (src : DmaSrc) (len : Half16) (d : Device) : (configure src len d).out = d.out := rfl

/-! `setStream` -/

@[simp] theorem setStream_cfg (b : Bool) (d : Device) : (setStream b d).cfg = d.cfg := rfl
@[simp] theorem setStream_fsm (b : Bool) (d : Device) : (setStream b d).fsm = d.fsm := rfl
@[simp] theorem setStream_pixBase (b : Bool) (d : Device) : (setStream b d).pixBase = d.pixBase := rfl
@[simp] theorem setStream_total (b : Bool) (d : Device) : (setStream b d).total = d.total := rfl
@[simp] theorem setStream_sent (b : Bool) (d : Device) : (setStream b d).sent = d.sent := rfl
@[simp] theorem setStream_half (b : Bool) (d : Device) : (setStream b d).half = d.half := rfl
@[simp] theorem setStream_hval (b : Bool) (d : Device) : (setStream b d).hval = d.hval := rfl
@[simp] theorem setStream_lval (b : Bool) (d : Device) : (setStream b d).lval = d.lval := rfl
@[simp] theorem setStream_cw (b : Bool) (d : Device) : (setStream b d).cw = d.cw := rfl
@[simp] theorem setStream_latch (b : Bool) (d : Device) : (setStream b d).latch = d.latch := rfl
@[simp] theorem setStream_dmaEn (b : Bool) (d : Device) : (setStream b d).dmaEn = b := rfl
@[simp] theorem setStream_dmaSrc (b : Bool) (d : Device) : (setStream b d).dmaSrc = d.dmaSrc := rfl
@[simp] theorem setStream_dmaLen (b : Bool) (d : Device) : (setStream b d).dmaLen = d.dmaLen := rfl
@[simp] theorem setStream_dmaRd (b : Bool) (d : Device) : (setStream b d).dmaRd = d.dmaRd := rfl
@[simp] theorem setStream_htif (b : Bool) (d : Device) : (setStream b d).htif = d.htif := rfl
@[simp] theorem setStream_tcif (b : Bool) (d : Device) : (setStream b d).tcif = d.tcif := rfl
@[simp] theorem setStream_teif (b : Bool) (d : Device) : (setStream b d).teif = d.teif := rfl
@[simp] theorem setStream_htie (b : Bool) (d : Device) : (setStream b d).htie = d.htie := rfl
@[simp] theorem setStream_tcie (b : Bool) (d : Device) : (setStream b d).tcie = d.tcie := rfl
@[simp] theorem setStream_teie (b : Bool) (d : Device) : (setStream b d).teie = d.teie := rfl
@[simp] theorem setStream_chEn (b : Bool) (d : Device) : (setStream b d).chEn = d.chEn := rfl
@[simp] theorem setStream_ccr (b : Bool) (d : Device) : (setStream b d).ccr = d.ccr := rfl
@[simp] theorem setStream_underrun (b : Bool) (d : Device) : (setStream b d).underrun = d.underrun := rfl
@[simp] theorem setStream_out (b : Bool) (d : Device) : (setStream b d).out = d.out := rfl

/-! `setChannel` -/

@[simp] theorem setChannel_cfg (b : Bool) (d : Device) : (setChannel b d).cfg = d.cfg := rfl
@[simp] theorem setChannel_fsm (b : Bool) (d : Device) : (setChannel b d).fsm = d.fsm := rfl
@[simp] theorem setChannel_pixBase (b : Bool) (d : Device) : (setChannel b d).pixBase = d.pixBase := rfl
@[simp] theorem setChannel_total (b : Bool) (d : Device) : (setChannel b d).total = d.total := rfl
@[simp] theorem setChannel_sent (b : Bool) (d : Device) : (setChannel b d).sent = d.sent := rfl
@[simp] theorem setChannel_half (b : Bool) (d : Device) : (setChannel b d).half = d.half := rfl
@[simp] theorem setChannel_hval (b : Bool) (d : Device) : (setChannel b d).hval = d.hval := rfl
@[simp] theorem setChannel_lval (b : Bool) (d : Device) : (setChannel b d).lval = d.lval := rfl
@[simp] theorem setChannel_cw (b : Bool) (d : Device) : (setChannel b d).cw = d.cw := rfl
@[simp] theorem setChannel_latch (b : Bool) (d : Device) : (setChannel b d).latch = d.latch := rfl
@[simp] theorem setChannel_dmaEn (b : Bool) (d : Device) : (setChannel b d).dmaEn = d.dmaEn := rfl
@[simp] theorem setChannel_dmaSrc (b : Bool) (d : Device) : (setChannel b d).dmaSrc = d.dmaSrc := rfl
@[simp] theorem setChannel_dmaLen (b : Bool) (d : Device) : (setChannel b d).dmaLen = d.dmaLen := rfl
@[simp] theorem setChannel_dmaRd (b : Bool) (d : Device) : (setChannel b d).dmaRd = d.dmaRd := rfl
@[simp] theorem setChannel_htif (b : Bool) (d : Device) : (setChannel b d).htif = d.htif := rfl
@[simp] theorem setChannel_tcif (b : Bool) (d : Device) : (setChannel b d).tcif = d.tcif := rfl
@[simp] theorem setChannel_teif (b : Bool) (d : Device) : (setChannel b d).teif = d.teif := rfl
@[simp] theorem setChannel_htie (b : Bool) (d : Device) : (setChannel b d).htie = d.htie := rfl
@[simp] theorem setChannel_tcie (b : Bool) (d : Device) : (setChannel b d).tcie = d.tcie := rfl
@[simp] theorem setChannel_teie (b : Bool) (d : Device) : (setChannel b d).teie = d.teie := rfl
@[simp] theorem setChannel_chEn (b : Bool) (d : Device) : (setChannel b d).chEn = b := rfl
@[simp] theorem setChannel_ccr (b : Bool) (d : Device) : (setChannel b d).ccr = d.ccr := rfl
@[simp] theorem setChannel_underrun (b : Bool) (d : Device) : (setChannel b d).underrun = d.underrun := rfl
@[simp] theorem setChannel_out (b : Bool) (d : Device) : (setChannel b d).out = d.out := rfl

/-! `setFsm` -/

@[simp] theorem setFsm_cfg (f : Fsm) (d : Device) : (setFsm f d).cfg = d.cfg := rfl
@[simp] theorem setFsm_fsm (f : Fsm) (d : Device) : (setFsm f d).fsm = f := rfl
@[simp] theorem setFsm_pixBase (f : Fsm) (d : Device) : (setFsm f d).pixBase = d.pixBase := rfl
@[simp] theorem setFsm_total (f : Fsm) (d : Device) : (setFsm f d).total = d.total := rfl
@[simp] theorem setFsm_sent (f : Fsm) (d : Device) : (setFsm f d).sent = d.sent := rfl
@[simp] theorem setFsm_half (f : Fsm) (d : Device) : (setFsm f d).half = d.half := rfl
@[simp] theorem setFsm_hval (f : Fsm) (d : Device) : (setFsm f d).hval = d.hval := rfl
@[simp] theorem setFsm_lval (f : Fsm) (d : Device) : (setFsm f d).lval = d.lval := rfl
@[simp] theorem setFsm_cw (f : Fsm) (d : Device) : (setFsm f d).cw = d.cw := rfl
@[simp] theorem setFsm_latch (f : Fsm) (d : Device) : (setFsm f d).latch = d.latch := rfl
@[simp] theorem setFsm_dmaEn (f : Fsm) (d : Device) : (setFsm f d).dmaEn = d.dmaEn := rfl
@[simp] theorem setFsm_dmaSrc (f : Fsm) (d : Device) : (setFsm f d).dmaSrc = d.dmaSrc := rfl
@[simp] theorem setFsm_dmaLen (f : Fsm) (d : Device) : (setFsm f d).dmaLen = d.dmaLen := rfl
@[simp] theorem setFsm_dmaRd (f : Fsm) (d : Device) : (setFsm f d).dmaRd = d.dmaRd := rfl
@[simp] theorem setFsm_htif (f : Fsm) (d : Device) : (setFsm f d).htif = d.htif := rfl
@[simp] theorem setFsm_tcif (f : Fsm) (d : Device) : (setFsm f d).tcif = d.tcif := rfl
@[simp] theorem setFsm_teif (f : Fsm) (d : Device) : (setFsm f d).teif = d.teif := rfl
@[simp] theorem setFsm_htie (f : Fsm) (d : Device) : (setFsm f d).htie = d.htie := rfl
@[simp] theorem setFsm_tcie (f : Fsm) (d : Device) : (setFsm f d).tcie = d.tcie := rfl
@[simp] theorem setFsm_teie (f : Fsm) (d : Device) : (setFsm f d).teie = d.teie := rfl
@[simp] theorem setFsm_chEn (f : Fsm) (d : Device) : (setFsm f d).chEn = d.chEn := rfl
@[simp] theorem setFsm_ccr (f : Fsm) (d : Device) : (setFsm f d).ccr = d.ccr := rfl
@[simp] theorem setFsm_underrun (f : Fsm) (d : Device) : (setFsm f d).underrun = d.underrun := rfl
@[simp] theorem setFsm_out (f : Fsm) (d : Device) : (setFsm f d).out = d.out := rfl

/-! `zeroCw` -/

@[simp] theorem zeroCw_cfg (d : Device) : (zeroCw d).cfg = d.cfg := rfl
@[simp] theorem zeroCw_fsm (d : Device) : (zeroCw d).fsm = d.fsm := rfl
@[simp] theorem zeroCw_pixBase (d : Device) : (zeroCw d).pixBase = d.pixBase := rfl
@[simp] theorem zeroCw_total (d : Device) : (zeroCw d).total = d.total := rfl
@[simp] theorem zeroCw_sent (d : Device) : (zeroCw d).sent = d.sent := rfl
@[simp] theorem zeroCw_half (d : Device) : (zeroCw d).half = d.half := rfl
@[simp] theorem zeroCw_hval (d : Device) : (zeroCw d).hval = d.hval := rfl
@[simp] theorem zeroCw_lval (d : Device) : (zeroCw d).lval = d.lval := rfl
@[simp] theorem zeroCw_cw (d : Device) : (zeroCw d).cw = zeroCodewords 96 := rfl
@[simp] theorem zeroCw_latch (d : Device) : (zeroCw d).latch = d.latch := rfl
@[simp] theorem zeroCw_dmaEn (d : Device) : (zeroCw d).dmaEn = d.dmaEn := rfl
@[simp] theorem zeroCw_dmaSrc (d : Device) : (zeroCw d).dmaSrc = d.dmaSrc := rfl
@[simp] theorem zeroCw_dmaLen (d : Device) : (zeroCw d).dmaLen = d.dmaLen := rfl
@[simp] theorem zeroCw_dmaRd (d : Device) : (zeroCw d).dmaRd = d.dmaRd := rfl
@[simp] theorem zeroCw_htif (d : Device) : (zeroCw d).htif = d.htif := rfl
@[simp] theorem zeroCw_tcif (d : Device) : (zeroCw d).tcif = d.tcif := rfl
@[simp] theorem zeroCw_teif (d : Device) : (zeroCw d).teif = d.teif := rfl
@[simp] theorem zeroCw_htie (d : Device) : (zeroCw d).htie = d.htie := rfl
@[simp] theorem zeroCw_tcie (d : Device) : (zeroCw d).tcie = d.tcie := rfl
@[simp] theorem zeroCw_teie (d : Device) : (zeroCw d).teie = d.teie := rfl
@[simp] theorem zeroCw_chEn (d : Device) : (zeroCw d).chEn = d.chEn := rfl
@[simp] theorem zeroCw_ccr (d : Device) : (zeroCw d).ccr = d.ccr := rfl
@[simp] theorem zeroCw_underrun (d : Device) : (zeroCw d).underrun = d.underrun := rfl
@[simp] theorem zeroCw_out (d : Device) : (zeroCw d).out = d.out := rfl

/-! `clearFlags` -/

@[simp] theorem clearFlags_cfg (d : Device) : (clearFlags d).cfg = d.cfg := rfl
@[simp] theorem clearFlags_fsm (d : Device) : (clearFlags d).fsm = d.fsm := rfl
@[simp] theorem clearFlags_pixBase (d : Device) : (clearFlags d).pixBase = d.pixBase := rfl
@[simp] theorem clearFlags_total (d : Device) : (clearFlags d).total = d.total := rfl
@[simp] theorem clearFlags_sent (d : Device) : (clearFlags d).sent = d.sent := rfl
@[simp] theorem clearFlags_half (d : Device) : (clearFlags d).half = d.half := rfl
@[simp] theorem clearFlags_hval (d : Device) : (clearFlags d).hval = d.hval := rfl
@[simp] theorem clearFlags_lval (d : Device) : (clearFlags d).lval = d.lval := rfl
@[simp] theorem clearFlags_cw (d : Device) : (clearFlags d).cw = d.cw := rfl
@[simp] theorem clearFlags_latch (d : Device) : (clearFlags d).latch = d.latch := rfl
@[simp] theorem clearFlags_dmaEn (d : Device) : (clearFlags d).dmaEn = d.dmaEn := rfl
@[simp] theorem clearFlags_dmaSrc (d : Device) : (clearFlags d).dmaSrc = d.dmaSrc := rfl
@[simp] theorem clearFlags_dmaLen (d : Device) : (clearFlags d).dmaLen = d.dmaLen := rfl
@[simp] theorem clearFlags_dmaRd (d : Device) : (clearFlags d).dmaRd = d.dmaRd := rfl
@[simp] theorem clearFlags_htif (d : Device) : (clearFlags d).htif = false := rfl
@[simp] theorem clearFlags_tcif (d : Device) : (clearFlags d).tcif = false := rfl
@[simp] theorem clearFlags_teif (d : Device) : (clearFlags d).teif = false := rfl
@[simp] theorem clearFlags_htie (d : Device) : (clearFlags d).htie = d.htie := rfl
@[simp] theorem clearFlags_tcie (d : Device) : (clearFlags d).tcie = d.tcie := rfl
@[simp] theorem clearFlags_teie (d : Device) : (clearFlags d).teie = d.teie := rfl
@[simp] theorem clearFlags_chEn (d : Device) : (clearFlags d).chEn = d.chEn := rfl
@[simp] theorem clearFlags_ccr (d : Device) : (clearFlags d).ccr = d.ccr := rfl
@[simp] theorem clearFlags_underrun (d : Device) : (clearFlags d).underrun = d.underrun := rfl
@[simp] theorem clearFlags_out (d : Device) : (clearFlags d).out = d.out := rfl

/-! `clearDataFlags` -/

@[simp] theorem clearDataFlags_cfg (d : Device) : (clearDataFlags d).cfg = d.cfg := rfl
@[simp] theorem clearDataFlags_fsm (d : Device) : (clearDataFlags d).fsm = d.fsm := rfl
@[simp] theorem clearDataFlags_pixBase (d : Device) : (clearDataFlags d).pixBase = d.pixBase := rfl
@[simp] theorem clearDataFlags_total (d : Device) : (clearDataFlags d).total = d.total := rfl
@[simp] theorem clearDataFlags_sent (d : Device) : (clearDataFlags d).sent = d.sent := rfl
@[simp] theorem clearDataFlags_half (d : Device) : (clearDataFlags d).half = d.half := rfl
@[simp] theorem clearDataFlags_hval (d : Device) : (clearDataFlags d).hval = d.hval := rfl
@[simp] theorem clearDataFlags_lval (d : Device) : (clearDataFlags d).lval = d.lval := rfl
@[simp] theorem clearDataFlags_cw (d : Device) : (clearDataFlags d).cw = d.cw := rfl
@[simp] theorem clearDataFlags_latch (d : Device) : (clearDataFlags d).latch = d.latch := rfl
@[simp] theorem clearDataFlags_dmaEn (d : Device) : (clearDataFlags d).dmaEn = d.dmaEn := rfl
@[simp] theorem clearDataFlags_dmaSrc (d : Device) : (clearDataFlags d).dmaSrc = d.dmaSrc := rfl
@[simp] theorem clearDataFlags_dmaLen (d : Device) : (clearDataFlags d).dmaLen = d.dmaLen := rfl
@[simp] theorem clearDataFlags_dmaRd (d : Device) : (clearDataFlags d).dmaRd = d.dmaRd := rfl
@[simp] theorem clearDataFlags_htif (d : Device) : (clearDataFlags d).htif = false := rfl
@[simp] theorem clearDataFlags_tcif (d : Device) : (clearDataFlags d).tcif = false := rfl
@[simp] theorem clearDataFlags_teif (d : Device) : (clearDataFlags d).teif = d.teif := rfl
@[simp] theorem clearDataFlags_htie (d : Device) : (clearDataFlags d).htie = d.htie := rfl
@[simp] theorem clearDataFlags_tcie (d : Device) : (clearDataFlags d).tcie = d.tcie := rfl
@[simp] theorem clearDataFlags_teie (d : Device) : (clearDataFlags d).teie = d.teie := rfl
@[simp] theorem clearDataFlags_chEn (d : Device) : (clearDataFlags d).chEn = d.chEn := rfl
@[simp] theorem clearDataFlags_ccr (d : Device) : (clearDataFlags d).ccr = d.ccr := rfl
@[simp] theorem clearDataFlags_underrun (d : Device) : (clearDataFlags d).underrun = d.underrun := rfl
@[simp] theorem clearDataFlags_out (d : Device) : (clearDataFlags d).out = d.out := rfl

/-! `setEnables` -/

@[simp] theorem setEnables_cfg (b : Bool) (d : Device) : (setEnables b d).cfg = d.cfg := rfl
@[simp] theorem setEnables_fsm (b : Bool) (d : Device) : (setEnables b d).fsm = d.fsm := rfl
@[simp] theorem setEnables_pixBase (b : Bool) (d : Device) : (setEnables b d).pixBase = d.pixBase := rfl
@[simp] theorem setEnables_total (b : Bool) (d : Device) : (setEnables b d).total = d.total := rfl
@[simp] theorem setEnables_sent (b : Bool) (d : Device) : (setEnables b d).sent = d.sent := rfl
@[simp] theorem setEnables_half (b : Bool) (d : Device) : (setEnables b d).half = d.half := rfl
@[simp] theorem setEnables_hval (b : Bool) (d : Device) : (setEnables b d).hval = d.hval := rfl
@[simp] theorem setEnables_lval (b : Bool) (d : Device) : (setEnables b d).lval = d.lval := rfl
@[simp] theorem setEnables_cw (b : Bool) (d : Device) : (setEnables b d).cw = d.cw := rfl
@[simp] theorem setEnables_latch (b : Bool) (d : Device) : (setEnables b d).latch = d.latch := rfl
@[simp] theorem setEnables_dmaEn (b : Bool) (d : Device) : (setEnables b d).dmaEn = d.dmaEn := rfl
@[simp] theorem setEnables_dmaSrc (b : Bool) (d : Device) : (setEnables b d).dmaSrc = d.dmaSrc := rfl
@[simp] theorem setEnables_dmaLen (b : Bool) (d : Device) : (setEnables b d).dmaLen = d.dmaLen := rfl
@[simp] theorem setEnables_dmaRd (b : Bool) (d : Device) : (setEnables b d).dmaRd = d.dmaRd := rfl
@[simp] theorem setEnables_htif (b : Bool) (d : Device) : (setEnables b d).htif = d.htif := rfl
@[simp] theorem setEnables_tcif (b : Bool) (d : Device) : (setEnables b d).tcif = d.tcif := rfl
@[simp] theorem setEnables_teif (b : Bool) (d : Device) : (setEnables b d).teif = d.teif := rfl
@[simp] theorem setEnables_htie (b : Bool) (d : Device) : (setEnables b d).htie = b := rfl
@[simp] theorem setEnables_tcie (b : Bool) (d : Device) : (setEnables b d).tcie = b := rfl
@[simp] theorem setEnables_teie (b : Bool) (d : Device) : (setEnables b d).teie = b := rfl
@[simp] theorem setEnables_chEn (b : Bool) (d : Device) : (setEnables b d).chEn = d.chEn := rfl
@[simp] theorem setEnables_ccr (b : Bool) (d : Device) : (setEnables b d).ccr = d.ccr := rfl
@[simp] theorem setEnables_underrun (b : Bool) (d : Device) : (setEnables b d).underrun = d.underrun := rfl
@[simp] theorem setEnables_out (b : Bool) (d : Device) : (setEnables b d).out = d.out := rfl

/-! `raiseError` -/

@[simp] theorem raiseError_cfg (d : Device) : (raiseError d).cfg = d.cfg := rfl
@[simp] theorem raiseError_fsm (d : Device) : (raiseError d).fsm = d.fsm := rfl
@[simp] theorem raiseError_pixBase (d : Device) : (raiseError d).pixBase = d.pixBase := rfl
@[simp] theorem raiseError_total (d : Device) : (raiseError d).total = d.total := rfl
@[simp] theorem raiseError_sent (d : Device) : (raiseError d).sent = d.sent := rfl
@[simp] theorem raiseError_half (d : Device) : (raiseError d).half = d.half := rfl
@[simp] theorem raiseError_hval (d : Device) : (raiseError d).hval = d.hval := rfl
@[simp] theorem raiseError_lval (d : Device) : (raiseError d).lval = d.lval := rfl
@[simp] theorem raiseError_cw (d : Device) : (raiseError d).cw = d.cw := rfl
@[simp] theorem raiseError_latch (d : Device) : (raiseError d).latch = d.latch := rfl
@[simp] theorem raiseError_dmaEn (d : Device) : (raiseError d).dmaEn = d.dmaEn := rfl
@[simp] theorem raiseError_dmaSrc (d : Device) : (raiseError d).dmaSrc = d.dmaSrc := rfl
@[simp] theorem raiseError_dmaLen (d : Device) : (raiseError d).dmaLen = d.dmaLen := rfl
@[simp] theorem raiseError_dmaRd (d : Device) : (raiseError d).dmaRd = d.dmaRd := rfl
@[simp] theorem raiseError_htif (d : Device) : (raiseError d).htif = d.htif := rfl
@[simp] theorem raiseError_tcif (d : Device) : (raiseError d).tcif = d.tcif := rfl
@[simp] theorem raiseError_teif (d : Device) : (raiseError d).teif = true := rfl
@[simp] theorem raiseError_htie (d : Device) : (raiseError d).htie = d.htie := rfl
@[simp] theorem raiseError_tcie (d : Device) : (raiseError d).tcie = d.tcie := rfl
@[simp] theorem raiseError_teie (d : Device) : (raiseError d).teie = d.teie := rfl
@[simp] theorem raiseError_chEn (d : Device) : (raiseError d).chEn = d.chEn := rfl
@[simp] theorem raiseError_ccr (d : Device) : (raiseError d).ccr = d.ccr := rfl
@[simp] theorem raiseError_underrun (d : Device) : (raiseError d).underrun = d.underrun := rfl
@[simp] theorem raiseError_out (d : Device) : (raiseError d).out = d.out := rfl

/-! `coverAllLeds` -/

@[simp] theorem coverAllLeds_cfg (d : Device) : (coverAllLeds d).cfg = d.cfg := rfl
@[simp] theorem coverAllLeds_fsm (d : Device) : (coverAllLeds d).fsm = d.fsm := rfl
@[simp] theorem coverAllLeds_pixBase (d : Device) : (coverAllLeds d).pixBase = d.pixBase := rfl
@[simp] theorem coverAllLeds_total (d : Device) : (coverAllLeds d).total = BitVec.ofNat 32 d.cfg.ledMax := rfl
@[simp] theorem coverAllLeds_sent (d : Device) : (coverAllLeds d).sent = 0 := rfl
@[simp] theorem coverAllLeds_half (d : Device) : (coverAllLeds d).half = d.half := rfl
@[simp] theorem coverAllLeds_hval (d : Device) : (coverAllLeds d).hval = d.hval := rfl
@[simp] theorem coverAllLeds_lval (d : Device) : (coverAllLeds d).lval = d.lval := rfl
@[simp] theorem coverAllLeds_cw (d : Device) : (coverAllLeds d).cw = d.cw := rfl
@[simp] theorem coverAllLeds_latch (d : Device) : (coverAllLeds d).latch = d.latch := rfl
@[simp] theorem coverAllLeds_dmaEn (d : Device) : (coverAllLeds d).dmaEn = d.dmaEn := rfl
@[simp] theorem coverAllLeds_dmaSrc (d : Device) : (coverAllLeds d).dmaSrc = d.dmaSrc := rfl
@[simp] theorem coverAllLeds_dmaLen (d : Device) : (coverAllLeds d).dmaLen = d.dmaLen := rfl
@[simp] theorem coverAllLeds_dmaRd (d : Device) : (coverAllLeds d).dmaRd = d.dmaRd := rfl
@[simp] theorem coverAllLeds_htif (d : Device) : (coverAllLeds d).htif = d.htif := rfl
@[simp] theorem coverAllLeds_tcif (d : Device) : (coverAllLeds d).tcif = d.tcif := rfl
@[simp] theorem coverAllLeds_teif (d : Device) : (coverAllLeds d).teif = d.teif := rfl
@[simp] theorem coverAllLeds_htie (d : Device) : (coverAllLeds d).htie = d.htie := rfl
@[simp] theorem coverAllLeds_tcie (d : Device) : (coverAllLeds d).tcie = d.tcie := rfl
@[simp] theorem coverAllLeds_teie (d : Device) : (coverAllLeds d).teie = d.teie := rfl
@[simp] theorem coverAllLeds_chEn (d : Device) : (coverAllLeds d).chEn = d.chEn := rfl
@[simp] theorem coverAllLeds_ccr (d : Device) : (coverAllLeds d).ccr = d.ccr := rfl
@[simp] theorem coverAllLeds_underrun (d : Device) : (coverAllLeds d).underrun = d.underrun := rfl
@[simp] theorem coverAllLeds_out (d : Device) : (coverAllLeds d).out = d.out := rfl

/-! `setCompare` -/

@[simp] theorem setCompare_cfg (v : Half16) (d : Device) : (setCompare v d).cfg = d.cfg := rfl
@[simp] theorem setCompare_fsm (v : Half16) (d : Device) : (setCompare v d).fsm = d.fsm := rfl
@[simp] theorem setCompare_pixBase (v : Half16) (d : Device) : (setCompare v d).pixBase = d.pixBase := rfl
@[simp] theorem setCompare_total (v : Half16) (d : Device) : (setCompare v d).total = d.total := rfl
@[simp] theorem setCompare_sent (v : Half16) (d : Device) : (setCompare v d).sent = d.sent := rfl
@[simp] theorem setCompare_half (v : Half16) (d : Device) : (setCompare v d).half = d.half := rfl
@[simp] theorem setCompare_hval (v : Half16) (d : Device) : (setCompare v d).hval = d.hval := rfl
@[simp] theorem setCompare_lval (v : Half16) (d : Device) : (setCompare v d).lval = d.lval := rfl
@[simp] theorem setCompare_cw (v : Half16) (d : Device) : (setCompare v d).cw = d.cw := rfl
@[simp] theorem setCompare_latch (v : Half16) (d : Device) : (setCompare v d).latch = d.latch := rfl
@[simp] theorem setCompare_dmaEn (v : Half16) (d : Device) : (setCompare v d).dmaEn = d.dmaEn := rfl
@[simp] theorem setCompare_dmaSrc (v : Half16) (d : Device) : (setCompare v d).dmaSrc = d.dmaSrc := rfl
@[simp] theorem setCompare_dmaLen (v : Half16) (d : Device) : (setCompare v d).dmaLen = d.dmaLen := rfl
@[simp] theorem setCompare_dmaRd (v : Half16) (d : Device) : (setCompare v d).dmaRd = d.dmaRd := rfl
@[simp] theorem setCompare_htif (v : Half16) (d : Device) : (setCompare v d).htif = d.htif := rfl
@[simp] theorem setCompare_tcif (v : Half16) (d : Device) : (setCompare v d).tcif = d.tcif := rfl
@[simp] theorem setCompare_teif (v : Half16) (d : Device) : (setCompare v d).teif = d.teif := rfl
@[simp] theorem setCompare_htie (v : Half16) (d : Device) : (setCompare v d).htie = d.htie := rfl
@[simp] theorem setCompare_tcie (v : Half16) (d : Device) : (setCompare v d).tcie = d.tcie := rfl
@[simp] theorem setCompare_teie (v : Half16) (d : Device) : (setCompare v d).teie = d.teie := rfl
@[simp] theorem setCompare_chEn (v : Half16) (d : Device) : (setCompare v d).chEn = d.chEn := rfl
@[simp] theorem setCompare_ccr (v : Half16) (d : Device) : (setCompare v d).ccr = v := rfl
@[simp] theorem setCompare_underrun (v : Half16) (d : Device) : (setCompare v d).underrun = d.underrun := rfl
@[simp] theorem setCompare_out (v : Half16) (d : Device) : (setCompare v d).out = d.out := rfl

/-! `setReader` -/

@[simp] theorem setReader_cfg (r : Half16) (d : Device) : (setReader r d).cfg = d.cfg := rfl
@[simp] theorem setReader_fsm (r : Half16) (d : Device) : (setReader r d).fsm = d.fsm := rfl
@[simp] theorem setReader_pixBase (r : Half16) (d : Device) : (setReader r d).pixBase = d.pixBase := rfl
@[simp] theorem setReader_total (r : Half16) (d : Device) : (setReader r d).total = d.total := rfl
@[simp] theorem setReader_sent (r : Half16) (d : Device) : (setReader r d).sent = d.sent := rfl
@[simp] theorem setReader_half (r : Half16) (d : Device) : (setReader r d).half = d.half := rfl
@[simp] theorem setReader_hval (r : Half16) (d : Device) : (setReader r d).hval = d.hval := rfl
@[simp] theorem setReader_lval (r : Half16) (d : Device) : (setReader r d).lval = d.lval := rfl
@[simp] theorem setReader_cw (r : Half16) (d : Device) : (setReader r d).cw = d.cw := rfl
@[simp] theorem setReader_latch (r : Half16) (d : Device) : (setReader r d).latch = d.latch := rfl
@[simp] theorem setReader_dmaEn (r : Half16) (d : Device) : (setReader r d).dmaEn = d.dmaEn := rfl
@[simp] theorem setReader_dmaSrc (r : Half16) (d : Device) : (setReader r d).dmaSrc = d.dmaSrc := rfl
@[simp] theorem setReader_dmaLen (r : Half16) (d : Device) : (setReader r d).dmaLen = d.dmaLen := rfl
@[simp] theorem setReader_dmaRd (r : Half16) (d : Device) : (setReader r d).dmaRd = r := rfl
@[simp] theorem setReader_htif (r : Half16) (d : Device) : (setReader r d).htif = d.htif := rfl
@[simp] theorem setReader_tcif (r : Half16) (d : Device) : (setReader r d).tcif = d.tcif := rfl
@[simp] theorem setReader_teif (r : Half16) (d : Device) : (setReader r d).teif = d.teif := rfl
@[simp] theorem setReader_htie (r : Half16) (d : Device) : (setReader r d).htie = d.htie := rfl
@[simp] theorem setReader_tcie (r : Half16) (d : Device) : (setReader r d).tcie = d.tcie := rfl
@[simp] theorem setReader_teie (r : Half16) (d : Device) : (setReader r d).teie = d.teie := rfl
@[simp] theorem setReader_chEn (r : Half16) (d : Device) : (setReader r d).chEn = d.chEn := rfl
@[simp] theorem setReader_ccr (r : Half16) (d : Device) : (setReader r d).ccr = d.ccr := rfl
@[simp] theorem setReader_underrun (r : Half16) (d : Device) : (setReader r d).underrun = d.underrun := rfl
@[simp] theorem setReader_out (r : Half16) (d : Device) : (setReader r d).out = d.out := rfl

/-! `setBuffer` -/

@[simp] theorem setBuffer_cfg (base count : Word) (d : Device) : (setBuffer base count d).cfg = d.cfg := rfl
@[simp] theorem setBuffer_fsm (base count : Word) (d : Device) : (setBuffer base count d).fsm = d.fsm := rfl
@[simp] theorem setBuffer_pixBase (base count : Word) (d : Device) : (setBuffer base count d).pixBase = base := rfl
@[simp] theorem setBuffer_total (base count : Word) (d : Device) : (setBuffer base count d).total = count := rfl
@[simp] theorem setBuffer_sent (base count : Word) (d : Device) : (setBuffer base count d).sent = 0 := rfl
@[simp] theorem setBuffer_half (base count : Word) (d : Device) : (setBuffer base count d).half = d.half := rfl
@[simp] theorem setBuffer_hval (base count : Word) (d : Device) : (setBuffer base count d).hval = d.hval := rfl
@[simp] theorem setBuffer_lval (base count : Word) (d : Device) : (setBuffer base count d).lval = d.lval := rfl
@[simp] theorem setBuffer_cw (base count : Word) (d : Device) : (setBuffer base count d).cw = d.cw := rfl
@[simp] theorem setBuffer_latch (base count : Word) (d : Device) : (setBuffer base count d).latch = d.latch := rfl
@[simp] theorem setBuffer_dmaEn (base count : Word) (d : Device) : (setBuffer base count d).dmaEn = d.dmaEn := rfl
@[simp] theorem setBuffer_dmaSrc (base count : Word) (d : Device) : (setBuffer base count d).dmaSrc = d.dmaSrc := rfl
@[simp] theorem setBuffer_dmaLen (base count : Word) (d : Device) : (setBuffer base count d).dmaLen = d.dmaLen := rfl
@[simp] theorem setBuffer_dmaRd (base count : Word) (d : Device) : (setBuffer base count d).dmaRd = d.dmaRd := rfl
@[simp] theorem setBuffer_htif (base count : Word) (d : Device) : (setBuffer base count d).htif = d.htif := rfl
@[simp] theorem setBuffer_tcif (base count : Word) (d : Device) : (setBuffer base count d).tcif = d.tcif := rfl
@[simp] theorem setBuffer_teif (base count : Word) (d : Device) : (setBuffer base count d).teif = d.teif := rfl
@[simp] theorem setBuffer_htie (base count : Word) (d : Device) : (setBuffer base count d).htie = d.htie := rfl
@[simp] theorem setBuffer_tcie (base count : Word) (d : Device) : (setBuffer base count d).tcie = d.tcie := rfl
@[simp] theorem setBuffer_teie (base count : Word) (d : Device) : (setBuffer base count d).teie = d.teie := rfl
@[simp] theorem setBuffer_chEn (base count : Word) (d : Device) : (setBuffer base count d).chEn = d.chEn := rfl
@[simp] theorem setBuffer_ccr (base count : Word) (d : Device) : (setBuffer base count d).ccr = d.ccr := rfl
@[simp] theorem setBuffer_underrun (base count : Word) (d : Device) : (setBuffer base count d).underrun = d.underrun := rfl
@[simp] theorem setBuffer_out (base count : Word) (d : Device) : (setBuffer base count d).out = d.out := rfl

/-! `setHalf` -/

@[simp] theorem setHalf_cfg (h : Half) (d : Device) : (setHalf h d).cfg = d.cfg := rfl
@[simp] theorem setHalf_fsm (h : Half) (d : Device) : (setHalf h d).fsm = d.fsm := rfl
@[simp] theorem setHalf_pixBase (h : Half) (d : Device) : (setHalf h d).pixBase = d.pixBase := rfl
@[simp] theorem setHalf_total (h : Half) (d : Device) : (setHalf h d).total = d.total := rfl
@[simp] theorem setHalf_sent (h : Half) (d : Device) : (setHalf h d).sent = d.sent := rfl
@[simp] theorem setHalf_half (h : Half) (d : Device) : (setHalf h d).half = h := rfl
@[simp] theorem setHalf_hval (h : Half) (d : Device) : (setHalf h d).hval = d.hval := rfl
@[simp] theorem setHalf_lval (h : Half) (d : Device) : (setHalf h d).lval = d.lval := rfl
@[simp] theorem setHalf_cw (h : Half) (d : Device) : (setHalf h d).cw = d.cw := rfl
@[simp] theorem setHalf_latch (h : Half) (d : Device) : (setHalf h d).latch = d.latch := rfl
@[simp] theorem setHalf_dmaEn (h : Half) (d : Device) : (setHalf h d).dmaEn = d.dmaEn := rfl
@[simp] theorem setHalf_dmaSrc (h : Half) (d : Device) : (setHalf h d).dmaSrc = d.dmaSrc := rfl
@[simp] theorem setHalf_dmaLen (h : Half) (d : Device) : (setHalf h d).dmaLen = d.dmaLen := rfl
@[simp] theorem setHalf_dmaRd (h : Half) (d : Device) : (setHalf h d).dmaRd = d.dmaRd := rfl
@[simp] theorem setHalf_htif (h : Half) (d : Device) : (setHalf h d).htif = d.htif := rfl
@[simp] theorem setHalf_tcif (h : Half) (d : Device) : (setHalf h d).tcif = d.tcif := rfl
@[simp] theorem setHalf_teif (h : Half) (d : Device) : (setHalf h d).teif = d.teif := rfl
@[simp] theorem setHalf_htie (h : Half) (d : Device) : (setHalf h d).htie = d.htie := rfl
@[simp] theorem setHalf_tcie (h : Half) (d : Device) : (setHalf h d).tcie = d.tcie := rfl
@[simp] theorem setHalf_teie (h : Half) (d : Device) : (setHalf h d).teie = d.teie := rfl
@[simp] theorem setHalf_chEn (h : Half) (d : Device) : (setHalf h d).chEn = d.chEn := rfl
@[simp] theorem setHalf_ccr (h : Half) (d : Device) : (setHalf h d).ccr = d.ccr := rfl
@[simp] theorem setHalf_underrun (h : Half) (d : Device) : (setHalf h d).underrun = d.underrun := rfl
@[simp] theorem setHalf_out (h : Half) (d : Device) : (setHalf h d).out = d.out := rfl

/-! `setCw` -/

@[simp] theorem setCw_cfg (cw : Vector Half16 96) (d : Device) : (setCw cw d).cfg = d.cfg := rfl
@[simp] theorem setCw_fsm (cw : Vector Half16 96) (d : Device) : (setCw cw d).fsm = d.fsm := rfl
@[simp] theorem setCw_pixBase (cw : Vector Half16 96) (d : Device) : (setCw cw d).pixBase = d.pixBase := rfl
@[simp] theorem setCw_total (cw : Vector Half16 96) (d : Device) : (setCw cw d).total = d.total := rfl
@[simp] theorem setCw_sent (cw : Vector Half16 96) (d : Device) : (setCw cw d).sent = d.sent := rfl
@[simp] theorem setCw_half (cw : Vector Half16 96) (d : Device) : (setCw cw d).half = d.half := rfl
@[simp] theorem setCw_hval (cw : Vector Half16 96) (d : Device) : (setCw cw d).hval = d.hval := rfl
@[simp] theorem setCw_lval (cw : Vector Half16 96) (d : Device) : (setCw cw d).lval = d.lval := rfl
@[simp] theorem setCw_cw (cw : Vector Half16 96) (d : Device) : (setCw cw d).cw = cw := rfl
@[simp] theorem setCw_latch (cw : Vector Half16 96) (d : Device) : (setCw cw d).latch = d.latch := rfl
@[simp] theorem setCw_dmaEn (cw : Vector Half16 96) (d : Device) : (setCw cw d).dmaEn = d.dmaEn := rfl
@[simp] theorem setCw_dmaSrc (cw : Vector Half16 96) (d : Device) : (setCw cw d).dmaSrc = d.dmaSrc := rfl
@[simp] theorem setCw_dmaLen (cw : Vector Half16 96) (d : Device) : (setCw cw d).dmaLen = d.dmaLen := rfl
@[simp] theorem setCw_dmaRd (cw : Vector Half16 96) (d : Device) : (setCw cw d).dmaRd = d.dmaRd := rfl
@[simp] theorem setCw_htif (cw : Vector Half16 96) (d : Device) : (setCw cw d).htif = d.htif := rfl
@[simp] theorem setCw_tcif (cw : Vector Half16 96) (d : Device) : (setCw cw d).tcif = d.tcif := rfl
@[simp] theorem setCw_teif (cw : Vector Half16 96) (d : Device) : (setCw cw d).teif = d.teif := rfl
@[simp] theorem setCw_htie (cw : Vector Half16 96) (d : Device) : (setCw cw d).htie = d.htie := rfl
@[simp] theorem setCw_tcie (cw : Vector Half16 96) (d : Device) : (setCw cw d).tcie = d.tcie := rfl
@[simp] theorem setCw_teie (cw : Vector Half16 96) (d : Device) : (setCw cw d).teie = d.teie := rfl
@[simp] theorem setCw_chEn (cw : Vector Half16 96) (d : Device) : (setCw cw d).chEn = d.chEn := rfl
@[simp] theorem setCw_ccr (cw : Vector Half16 96) (d : Device) : (setCw cw d).ccr = d.ccr := rfl
@[simp] theorem setCw_underrun (cw : Vector Half16 96) (d : Device) : (setCw cw d).underrun = d.underrun := rfl
@[simp] theorem setCw_out (cw : Vector Half16 96) (d : Device) : (setCw cw d).out = d.out := rfl

/-! `clearError` -/

@[simp] theorem clearError_cfg (d : Device) : (clearError d).cfg = d.cfg := rfl
@[simp] theorem clearError_fsm (d : Device) : (clearError d).fsm = d.fsm := rfl
@[simp] theorem clearError_pixBase (d : Device) : (clearError d).pixBase = d.pixBase := rfl
@[simp] theorem clearError_total (d : Device) : (clearError d).total = d.total := rfl
@[simp] theorem clearError_sent (d : Device) : (clearError d).sent = d.sent := rfl
@[simp] theorem clearError_half (d : Device) : (clearError d).half = d.half := rfl
@[simp] theorem clearError_hval (d : Device) : (clearError d).hval = d.hval := rfl
@[simp] theorem clearError_lval (d : Device) : (clearError d).lval = d.lval := rfl
@[simp] theorem clearError_cw (d : Device) : (clearError d).cw = d.cw := rfl
@[simp] theorem clearError_latch (d : Device) : (clearError d).latch = d.latch := rfl
@[simp] theorem clearError_dmaEn (d : Device) : (clearError d).dmaEn = d.dmaEn := rfl
@[simp] theorem clearError_dmaSrc (d : Device) : (clearError d).dmaSrc = d.dmaSrc := rfl
@[simp] theorem clearError_dmaLen (d : Device) : (clearError d).dmaLen = d.dmaLen := rfl
@[simp] theorem clearError_dmaRd (d : Device) : (clearError d).dmaRd = d.dmaRd := rfl
@[simp] theorem clearError_htif (d : Device) : (clearError d).htif = d.htif := rfl
@[simp] theorem clearError_tcif (d : Device) : (clearError d).tcif = d.tcif := rfl
@[simp] theorem clearError_teif (d : Device) : (clearError d).teif = false := rfl
@[simp] theorem clearError_htie (d : Device) : (clearError d).htie = d.htie := rfl
@[simp] theorem clearError_tcie (d : Device) : (clearError d).tcie = d.tcie := rfl
@[simp] theorem clearError_teie (d : Device) : (clearError d).teie = d.teie := rfl
@[simp] theorem clearError_chEn (d : Device) : (clearError d).chEn = d.chEn := rfl
@[simp] theorem clearError_ccr (d : Device) : (clearError d).ccr = d.ccr := rfl
@[simp] theorem clearError_underrun (d : Device) : (clearError d).underrun = d.underrun := rfl
@[simp] theorem clearError_out (d : Device) : (clearError d).out = d.out := rfl

/-! `countPair` -/

@[simp] theorem countPair_cfg (d : Device) : (countPair d).cfg = d.cfg := rfl
@[simp] theorem countPair_fsm (d : Device) : (countPair d).fsm = d.fsm := rfl
@[simp] theorem countPair_pixBase (d : Device) : (countPair d).pixBase = d.pixBase := rfl
@[simp] theorem countPair_total (d : Device) : (countPair d).total = d.total := rfl
@[simp] theorem countPair_sent (d : Device) : (countPair d).sent = d.sent + 2 := rfl
@[simp] theorem countPair_half (d : Device) : (countPair d).half = d.half := rfl
@[simp] theorem countPair_hval (d : Device) : (countPair d).hval = d.hval := rfl
@[simp] theorem countPair_lval (d : Device) : (countPair d).lval = d.lval := rfl
@[simp] theorem countPair_cw (d : Device) : (countPair d).cw = d.cw := rfl
@[simp] theorem countPair_latch (d : Device) : (countPair d).latch = d.latch := rfl
@[simp] theorem countPair_dmaEn (d : Device) : (countPair d).dmaEn = d.dmaEn := rfl
@[simp] theorem countPair_dmaSrc (d : Device) : (countPair d).dmaSrc = d.dmaSrc := rfl
@[simp] theorem countPair_dmaLen (d : Device) : (countPair d).dmaLen = d.dmaLen := rfl
@[simp] theorem countPair_dmaRd (d : Device) : (countPair d).dmaRd = d.dmaRd := rfl
@[simp] theorem countPair_htif (d : Device) : (countPair d).htif = d.htif := rfl
@[simp] theorem countPair_tcif (d : Device) : (countPair d).tcif = d.tcif := rfl
@[simp] theorem countPair_teif (d : Device) : (countPair d).teif = d.teif := rfl
@[simp] theorem countPair_htie (d : Device) : (countPair d).htie = d.htie := rfl
@[simp] theorem countPair_tcie (d : Device) : (countPair d).tcie = d.tcie := rfl
@[simp] theorem countPair_teie (d : Device) : (countPair d).teie = d.teie := rfl
@[simp] theorem countPair_chEn (d : Device) : (countPair d).chEn = d.chEn := rfl
@[simp] theorem countPair_ccr (d : Device) : (countPair d).ccr = d.ccr := rfl
@[simp] theorem countPair_underrun (d : Device) : (countPair d).underrun = d.underrun := rfl
@[simp] theorem countPair_out (d : Device) : (countPair d).out = d.out := rfl

/-! `clearData_ht` -/

@[simp] theorem clearData_ht_cfg (d : Device) : (clearData .ht d).cfg = d.cfg := rfl
@[simp] theorem clearData_ht_fsm (d : Device) : (clearData .ht d).fsm = d.fsm := rfl
@[simp] theorem clearData_ht_pixBase (d : Device) : (clearData .ht d).pixBase = d.pixBase := rfl
@[simp] theorem clearData_ht_total (d : Device) : (clearData .ht d).total = d.total := rfl
@[simp] theorem clearData_ht_sent (d : Device) : (clearData .ht d).sent = d.sent := rfl
@[simp] theorem clearData_ht_half (d : Device) : (clearData .ht d).half = d.half := rfl
@[simp] theorem clearData_ht_hval (d : Device) : (clearData .ht d).hval = d.hval := rfl
@[simp] theorem clearData_ht_lval (d : Device) : (clearData .ht d).lval = d.lval := rfl
@[simp] theorem clearData_ht_cw (d : Device) : (clearData .ht d).cw = d.cw := rfl
@[simp] theorem clearData_ht_latch (d : Device) : (clearData .ht d).latch = d.latch := rfl
@[simp] theorem clearData_ht_dmaEn (d : Device) : (clearData .ht d).dmaEn = d.dmaEn := rfl
@[simp] theorem clearData_ht_dmaSrc (d : Device) : (clearData .ht d).dmaSrc = d.dmaSrc := rfl
@[simp] theorem clearData_ht_dmaLen (d : Device) : (clearData .ht d).dmaLen = d.dmaLen := rfl
@[simp] theorem clearData_ht_dmaRd (d : Device) : (clearData .ht d).dmaRd = d.dmaRd := rfl
@[simp] theorem clearData_ht_htif (d : Device) : (clearData .ht d).htif = false := rfl
@[simp] theorem clearData_ht_tcif (d : Device) : (clearData .ht d).tcif = d.tcif := rfl
@[simp] theorem clearData_ht_teif (d : Device) : (clearData .ht d).teif = d.teif := rfl
@[simp] theorem clearData_ht_htie (d : Device) : (clearData .ht d).htie = d.htie := rfl
@[simp] theorem clearData_ht_tcie (d : Device) : (clearData .ht d).tcie = d.tcie := rfl
@[simp] theorem clearData_ht_teie (d : Device) : (clearData .ht d).teie = d.teie := rfl
@[simp] theorem clearData_ht_chEn (d : Device) : (clearData .ht d).chEn = d.chEn := rfl
@[simp] theorem clearData_ht_ccr (d : Device) : (clearData .ht d).ccr = d.ccr := rfl
@[simp] theorem clearData_ht_underrun (d : Device) : (clearData .ht d).underrun = d.underrun := rfl
@[simp] theorem clearData_ht_out (d : Device) : (clearData .ht d).out = d.out := rfl

/-! `clearData_tc` -/

@[simp] theorem clearData_tc_cfg (d : Device) : (clearData .tc d).cfg = d.cfg := rfl
@[simp] theorem clearData_tc_fsm (d : Device) : (clearData .tc d).fsm = d.fsm := rfl
@[simp] theorem clearData_tc_pixBase (d : Device) : (clearData .tc d).pixBase = d.pixBase := rfl
@[simp] theorem clearData_tc_total (d : Device) : (clearData .tc d).total = d.total := rfl
@[simp] theorem clearData_tc_sent (d : Device) : (clearData .tc d).sent = d.sent := rfl
@[simp] theorem clearData_tc_half (d : Device) : (clearData .tc d).half = d.half := rfl
@[simp] theorem clearData_tc_hval (d : Device) : (clearData .tc d).hval = d.hval := rfl
@[simp] theorem clearData_tc_lval (d : Device) : (clearData .tc d).lval = d.lval := rfl
@[simp] theorem clearData_tc_cw (d : Device) : (clearData .tc d).cw = d.cw := rfl
@[simp] theorem clearData_tc_latch (d : Device) : (clearData .tc d).latch = d.latch := rfl
@[simp] theorem clearData_tc_dmaEn (d : Device) : (clearData .tc d).dmaEn = d.dmaEn := rfl
@[simp] theorem clearData_tc_dmaSrc (d : Device) : (clearData .tc d).dmaSrc = d.dmaSrc := rfl
@[simp] theorem clearData_tc_dmaLen (d : Device) : (clearData .tc d).dmaLen = d.dmaLen := rfl
@[simp] theorem clearData_tc_dmaRd (d : Device) : (clearData .tc d).dmaRd = d.dmaRd := rfl
@[simp] theorem clearData_tc_htif (d : Device) : (clearData .tc d).htif = d.htif := rfl
@[simp] theorem clearData_tc_tcif (d : Device) : (clearData .tc d).tcif = false := rfl
@[simp] theorem clearData_tc_teif (d : Device) : (clearData .tc d).teif = d.teif := rfl
@[simp] theorem clearData_tc_htie (d : Device) : (clearData .tc d).htie = d.htie := rfl
@[simp] theorem clearData_tc_tcie (d : Device) : (clearData .tc d).tcie = d.tcie := rfl
@[simp] theorem clearData_tc_teie (d : Device) : (clearData .tc d).teie = d.teie := rfl
@[simp] theorem clearData_tc_chEn (d : Device) : (clearData .tc d).chEn = d.chEn := rfl
@[simp] theorem clearData_tc_ccr (d : Device) : (clearData .tc d).ccr = d.ccr := rfl
@[simp] theorem clearData_tc_underrun (d : Device) : (clearData .tc d).underrun = d.underrun := rfl
@[simp] theorem clearData_tc_out (d : Device) : (clearData .tc d).out = d.out := rfl

/-! `raiseData_ht` -/

@[simp] theorem raiseData_ht_cfg (d : Device) : (raiseData .ht d).cfg = d.cfg := rfl
@[simp] theorem raiseData_ht_fsm (d : Device) : (raiseData .ht d).fsm = d.fsm := rfl
@[simp] theorem raiseData_ht_pixBase (d : Device) : (raiseData .ht d).pixBase = d.pixBase := rfl
@[simp] theorem raiseData_ht_total (d : Device) : (raiseData .ht d).total = d.total := rfl
@[simp] theorem raiseData_ht_sent (d : Device) : (raiseData .ht d).sent = d.sent := rfl
@[simp] theorem raiseData_ht_half (d : Device) : (raiseData .ht d).half = d.half := rfl
@[simp] theorem raiseData_ht_hval (d : Device) : (raiseData .ht d).hval = d.hval := rfl
@[simp] theorem raiseData_ht_lval (d : Device) : (raiseData .ht d).lval = d.lval := rfl
@[simp] theorem raiseData_ht_cw (d : Device) : (raiseData .ht d).cw = d.cw := rfl
@[simp] theorem raiseData_ht_latch (d : Device) : (raiseData .ht d).latch = d.latch := rfl
@[simp] theorem raiseData_ht_dmaEn (d : Device) : (raiseData .ht d).dmaEn = d.dmaEn := rfl
@[simp] theorem raiseData_ht_dmaSrc (d : Device) : (raiseData .ht d).dmaSrc = d.dmaSrc := rfl
@[simp] theorem raiseData_ht_dmaLen (d : Device) : (raiseData .ht d).dmaLen = d.dmaLen := rfl
@[simp] theorem raiseData_ht_dmaRd (d : Device) : (raiseData .ht d).dmaRd = d.dmaRd := rfl
@[simp] theorem raiseData_ht_htif (d : Device) : (raiseData .ht d).htif = true := rfl
@[simp] theorem raiseData_ht_tcif (d : Device) : (raiseData .ht d).tcif = d.tcif := rfl
@[simp] theorem raiseData_ht_teif (d : Device) : (raiseData .ht d).teif = d.teif := rfl
@[simp] theorem raiseData_ht_htie (d : Device) : (raiseData .ht d).htie = d.htie := rfl
@[simp] theorem raiseData_ht_tcie (d : Device) : (raiseData .ht d).tcie = d.tcie := rfl
@[simp] theorem raiseData_ht_teie (d : Device) : (raiseData .ht d).teie = d.teie := rfl
@[simp] theorem raiseData_ht_chEn (d : Device) : (raiseData .ht d).chEn = d.chEn := rfl
@[simp] theorem raiseData_ht_ccr (d : Device) : (raiseData .ht d).ccr = d.ccr := rfl
@[simp] theorem raiseData_ht_underrun (d : Device) : (raiseData .ht d).underrun = (d.underrun || refillLate d) := rfl
@[simp] theorem raiseData_ht_out (d : Device) : (raiseData .ht d).out = d.out := rfl

/-! `raiseData_tc` -/

@[simp] theorem raiseData_tc_cfg (d : Device) : (raiseData .tc d).cfg = d.cfg := rfl
@[simp] theorem raiseData_tc_fsm (d : Device) : (raiseData .tc d).fsm = d.fsm := rfl
@[simp] theorem raiseData_tc_pixBase (d : Device) : (raiseData .tc d).pixBase = d.pixBase := rfl
@[simp] theorem raiseData_tc_total (d : Device) : (raiseData .tc d).total = d.total := rfl
@[simp] theorem raiseData_tc_sent (d : Device) : (raiseData .tc d).sent = d.sent := rfl
@[simp] theorem raiseData_tc_half (d : Device) : (raiseData .tc d).half = d.half := rfl
@[simp] theorem raiseData_tc_hval (d : Device) : (raiseData .tc d).hval = d.hval := rfl
@[simp] theorem raiseData_tc_lval (d : Device) : (raiseData .tc d).lval = d.lval := rfl
@[simp] theorem raiseData_tc_cw (d : Device) : (raiseData .tc d).cw = d.cw := rfl
@[simp] theorem raiseData_tc_latch (d : Device) : (raiseData .tc d).latch = d.latch := rfl
@[simp] theorem raiseData_tc_dmaEn (d : Device) : (raiseData .tc d).dmaEn = d.dmaEn := rfl
@[simp] theorem raiseData_tc_dmaSrc (d : Device) : (raiseData .tc d).dmaSrc = d.dmaSrc := rfl
@[simp] theorem raiseData_tc_dmaLen (d : Device) : (raiseData .tc d).dmaLen = d.dmaLen := rfl
@[simp] theorem raiseData_tc_dmaRd (d : Device) : (raiseData .tc d).dmaRd = d.dmaRd := rfl
@[simp] theorem raiseData_tc_htif (d : Device) : (raiseData .tc d).htif = d.htif := rfl
@[simp] theorem raiseData_tc_tcif (d : Device) : (raiseData .tc d).tcif = true := rfl
@[simp] theorem raiseData_tc_teif (d : Device) : (raiseData .tc d).teif = d.teif := rfl
@[simp] theorem raiseData_tc_htie (d : Device) : (raiseData .tc d).htie = d.htie := rfl
@[simp] theorem raiseData_tc_tcie (d : Device) : (raiseData .tc d).tcie = d.tcie := rfl
@[simp] theorem raiseData_tc_teie (d : Device) : (raiseData .tc d).teie = d.teie := rfl
@[simp] theorem raiseData_tc_chEn (d : Device) : (raiseData .tc d).chEn = d.chEn := rfl
@[simp] theorem raiseData_tc_ccr (d : Device) : (raiseData .tc d).ccr = d.ccr := rfl
@[simp] theorem raiseData_tc_underrun (d : Device) : (raiseData .tc d).underrun = (d.underrun || refillLate d) := rfl
@[simp] theorem raiseData_tc_out (d : Device) : (raiseData .tc d).out = d.out := rfl

/-! `armCw` -/

@[simp] theorem armCw_cfg (d : Device) : (armCw d).cfg = d.cfg := by simp [armCw]
@[simp] theorem armCw_fsm (d : Device) : (armCw d).fsm = d.fsm := by simp [armCw]
@[simp] theorem armCw_pixBase (d : Device) : (armCw d).pixBase = d.pixBase := by simp [armCw]
@[simp] theorem armCw_total (d : Device) : (armCw d).total = d.total := by simp [armCw]
@[simp] theorem armCw_sent (d : Device) : (armCw d).sent = d.sent := by simp [armCw]
@[simp] theorem armCw_half (d : Device) : (armCw d).half = d.half := by simp [armCw]
@[simp] theorem armCw_hval (d : Device) : (armCw d).hval = d.hval := by simp [armCw]
@[simp] theorem armCw_lval (d : Device) : (armCw d).lval = d.lval := by simp [armCw]
@[simp] theorem armCw_cw (d : Device) : (armCw d).cw = d.cw := by simp [armCw]
@[simp] theorem armCw_latch (d : Device) : (armCw d).latch = d.latch := by simp [armCw]
@[simp] theorem armCw_dmaEn (d : Device) : (armCw d).dmaEn = true := by simp [armCw]
@[simp] theorem armCw_dmaSrc (d : Device) : (armCw d).dmaSrc = .cwbuf := by simp [armCw]
@[simp] theorem armCw_dmaLen (d : Device) : (armCw d).dmaLen = 96 := by simp [armCw]
@[simp] theorem armCw_dmaRd (d : Device) : (armCw d).dmaRd = 0 := by simp [armCw]
@[simp] theorem armCw_htif (d : Device) : (armCw d).htif = false := by simp [armCw]
@[simp] theorem armCw_tcif (d : Device) : (armCw d).tcif = false := by simp [armCw]
@[simp] theorem armCw_teif (d : Device) : (armCw d).teif = false := by simp [armCw]
@[simp] theorem armCw_htie (d : Device) : (armCw d).htie = true := by simp [armCw]
@[simp] theorem armCw_tcie (d : Device) : (armCw d).tcie = true := by simp [armCw]
@[simp] theorem armCw_teie (d : Device) : (armCw d).teie = true := by simp [armCw]
@[simp] theorem armCw_chEn (d : Device) : (armCw d).chEn = true := by simp [armCw]
@[simp] theorem armCw_ccr (d : Device) : (armCw d).ccr = d.ccr := by simp [armCw]
@[simp] theorem armCw_underrun (d : Device) : (armCw d).underrun = d.underrun := by simp [armCw]
@[simp] theorem armCw_out (d : Device) : (armCw d).out = d.out ++ [.en] := by simp [armCw]

/-! `startLatch` -/

@[simp] theorem startLatch_cfg (d : Device) : (startLatch d).cfg = d.cfg := by simp [startLatch]
@[simp] theorem startLatch_fsm (d : Device) : (startLatch d).fsm = .latch := by simp [startLatch]
@[simp] theorem startLatch_pixBase (d : Device) : (startLatch d).pixBase = d.pixBase := by simp [startLatch]
@[simp] theorem startLatch_total (d : Device) : (startLatch d).total = d.total := by simp [startLatch]
@[simp] theorem startLatch_sent (d : Device) : (startLatch d).sent = d.sent := by simp [startLatch]
@[simp] theorem startLatch_half (d : Device) : (startLatch d).half = d.half := by simp [startLatch]
@[simp] theorem startLatch_hval (d : Device) : (startLatch d).hval = d.hval := by simp [startLatch]
@[simp] theorem startLatch_lval (d : Device) : (startLatch d).lval = d.lval := by simp [startLatch]
@[simp] theorem startLatch_cw (d : Device) : (startLatch d).cw = d.cw := by simp [startLatch]
@[simp] theorem startLatch_latch (d : Device) : (startLatch d).latch = d.latch := by simp [startLatch]
@[simp] theorem startLatch_dmaEn (d : Device) : (startLatch d).dmaEn = true := by simp [startLatch]
@[simp] theorem startLatch_dmaSrc (d : Device) : (startLatch d).dmaSrc = .latchbuf := by simp [startLatch]
@[simp] theorem startLatch_dmaLen (d : Device) : (startLatch d).dmaLen = 48 := by simp [startLatch]
@[simp] theorem startLatch_dmaRd (d : Device) : (startLatch d).dmaRd = 0 := by simp [startLatch]
@[simp] theorem startLatch_htif (d : Device) : (startLatch d).htif = false := by simp [startLatch]
@[simp] theorem startLatch_tcif (d : Device) : (startLatch d).tcif = false := by simp [startLatch]
@[simp] theorem startLatch_teif (d : Device) : (startLatch d).teif = d.teif := by simp [startLatch]
@[simp] theorem startLatch_htie (d : Device) : (startLatch d).htie = d.htie := by simp [startLatch]
@[simp] theorem startLatch_tcie (d : Device) : (startLatch d).tcie = d.tcie := by simp [startLatch]
@[simp] theorem startLatch_teie (d : Device) : (startLatch d).teie = d.teie := by simp [startLatch]
@[simp] theorem startLatch_chEn (d : Device) : (startLatch d).chEn = d.chEn := by simp [startLatch]
@[simp] theorem startLatch_ccr (d : Device) : (startLatch d).ccr = d.ccr := by simp [startLatch]
@[simp] theorem startLatch_underrun (d : Device) : (startLatch d).underrun = d.underrun := by simp [startLatch]
@[simp] theorem startLatch_out (d : Device) : (startLatch d).out = d.out := by simp [startLatch]

/-! `finish` -/

@[simp] theorem finish_cfg (d : Device) : (finish d).cfg = d.cfg := by simp [finish]
@[simp] theorem finish_fsm (d : Device) : (finish d).fsm = .idle := by simp [finish]
@[simp] theorem finish_pixBase (d : Device) : (finish d).pixBase = d.pixBase := by simp [finish]
@[simp] theorem finish_total (d : Device) : (finish d).total = d.total := by simp [finish]
@[simp] theorem finish_sent (d : Device) : (finish d).sent = d.sent := by simp [finish]
@[simp] theorem finish_half (d : Device) : (finish d).half = d.half := by simp [finish]
@[simp] theorem finish_hval (d : Device) : (finish d).hval = d.hval := by simp [finish]
@[simp] theorem finish_lval (d : Device) : (finish d).lval = d.lval := by simp [finish]
@[simp] theorem finish_cw (d : Device) : (finish d).cw = d.cw := by simp [finish]
@[simp] theorem finish_latch (d : Device) : (finish d).latch = d.latch := by simp [finish]
@[simp] theorem finish_dmaEn (d : Device) : (finish d).dmaEn = false := by simp [finish]
@[simp] theorem finish_dmaSrc (d : Device) : (finish d).dmaSrc = d.dmaSrc := by simp [finish]
@[simp] theorem finish_dmaLen (d : Device) : (finish d).dmaLen = d.dmaLen := by simp [finish]
@[simp] theorem finish_dmaRd (d : Device) : (finish d).dmaRd = d.dmaRd := by simp [finish]
@[simp] theorem finish_htif (d : Device) : (finish d).htif = false := by simp [finish]
@[simp] theorem finish_tcif (d : Device) : (finish d).tcif = false := by simp [finish]
@[simp] theorem finish_teif (d : Device) : (finish d).teif = false := by simp [finish]
@[simp] theorem finish_htie (d : Device) : (finish d).htie = false := by simp [finish]
@[simp] theorem finish_tcie (d : Device) : (finish d).tcie = false := by simp [finish]
@[simp] theorem finish_teie (d : Device) : (finish d).teie = false := by simp [finish]
@[simp] theorem finish_chEn (d : Device) : (finish d).chEn = false := by simp [finish]
@[simp] theorem finish_ccr (d : Device) : (finish d).ccr = d.ccr := by simp [finish]
@[simp] theorem finish_underrun (d : Device) : (finish d).underrun = d.underrun := by simp [finish]
@[simp] theorem finish_out (d : Device) : (finish d).out = d.out ++ [.dis] ++ [.cb .complete] := by simp [finish]

/-! `abort` -/

@[simp] theorem abort_cfg (d : Device) : (abort d).cfg = d.cfg := by
  unfold abort; split <;> simp_all
@[simp] theorem abort_fsm (d : Device) : (abort d).fsm = d.fsm := by
  unfold abort; split <;> simp_all
@[simp] theorem abort_pixBase (d : Device) : (abort d).pixBase = d.pixBase := by
  unfold abort; split <;> simp_all
@[simp] theorem abort_total (d : Device) : (abort d).total = d.total := by
  unfold abort; split <;> simp_all
@[simp] theorem abort_sent (d : Device) : (abort d).sent = d.sent := by
  unfold abort; split <;> simp_all
@[simp] theorem abort_half (d : Device) : (abort d).half = d.half := by
  unfold abort; split <;> simp_all
@[simp] theorem abort_hval (d : Device) : (abort d).hval = d.hval := by
  unfold abort; split <;> simp_all
@[simp] theorem abort_lval (d : Device) : (abort d).lval = d.lval := by
  unfold abort; split <;> simp_all
@[simp] theorem abort_cw (d : Device) : (abort d).cw = d.cw := by
  unfold abort; split <;> simp_all
@[simp] theorem abort_latch (d : Device) : (abort d).latch = d.latch := by
  unfold abort; split <;> simp_all
@[simp] theorem abort_dmaEn (d : Device) : (abort d).dmaEn = false := by
  unfold abort; split <;> simp_all
@[simp] theorem abort_dmaSrc (d : Device) : (abort d).dmaSrc = d.dmaSrc := by
  unfold abort; split <;> simp_all
@[simp] theorem abort_dmaLen (d : Device) : (abort d).dmaLen = d.dmaLen := by
  unfold abort; split <;> simp_all
@[simp] theorem abort_dmaRd (d : Device) : (abort d).dmaRd = d.dmaRd := by
  unfold abort; split <;> simp_all
@[simp] theorem abort_htif (d : Device) : (abort d).htif = d.htif := by
  unfold abort; split <;> simp_all
@[simp] theorem abort_tcif (d : Device) : (abort d).tcif = d.tcif := by
  unfold abort; split <;> simp_all
@[simp] theorem abort_teif (d : Device) : (abort d).teif = d.teif := by
  unfold abort; split <;> simp_all
@[simp] theorem abort_htie (d : Device) : (abort d).htie = d.htie := by
  unfold abort; split <;> simp_all
@[simp] theorem abort_tcie (d : Device) : (abort d).tcie = d.tcie := by
  unfold abort; split <;> simp_all
@[simp] theorem abort_teie (d : Device) : (abort d).teie = d.teie := by
  unfold abort; split <;> simp_all
@[simp] theorem abort_chEn (d : Device) : (abort d).chEn = false := by
  unfold abort; split <;> simp_all
@[simp] theorem abort_ccr (d : Device) : (abort d).ccr = d.ccr := by
  unfold abort; split <;> simp_all
@[simp] theorem abort_underrun (d : Device) : (abort d).underrun = d.underrun := by
  unfold abort; split <;> simp_all
@[simp] theorem abort_out (d : Device) : (abort d).out = d.out ++ (if d.chEn || d.dmaEn then [.dis] else []) := by
  unfold abort; split <;> simp_all

/-! `forceReset` -/

@[simp] theorem forceReset_cfg (d : Device) : (forceReset d).cfg = d.cfg := by simp [forceReset]
@[simp] theorem forceReset_fsm (d : Device) : (forceReset d).fsm = .reset := by simp [forceReset]
@[simp] theorem forceReset_pixBase (d : Device) : (forceReset d).pixBase = d.pixBase := by simp [forceReset]
@[simp] theorem forceReset_total (d : Device) : (forceReset d).total = BitVec.ofNat 32 d.cfg.ledMax := by simp [forceReset]
@[simp] theorem forceReset_sent (d : Device) : (forceReset d).sent = 0 := by simp [forceReset]
@[simp] theorem forceReset_half (d : Device) : (forceReset d).half = d.half := by simp [forceReset]
@[simp] theorem forceReset_hval (d : Device) : (forceReset d).hval = d.hval := by simp [forceReset]
@[simp] theorem forceReset_lval (d : Device) : (forceReset d).lval = d.lval := by simp [forceReset]
@[simp] theorem forceReset_cw (d : Device) : (forceReset d).cw = zeroCodewords 96 := by simp [forceReset]
@[simp] theorem forceReset_latch (d : Device) : (forceReset d).latch = d.latch := by simp [forceReset]
@[simp] theorem forceReset_dmaEn (d : Device) : (forceReset d).dmaEn = true := by simp [forceReset]
@[simp] theorem forceReset_dmaSrc (d : Device) : (forceReset d).dmaSrc = .cwbuf := by simp [forceReset]
@[simp] theorem forceReset_dmaLen (d : Device) : (forceReset d).dmaLen = 96 := by simp [forceReset]
@[simp] theorem forceReset_dmaRd (d : Device) : (forceReset d).dmaRd = 0 := by simp [forceReset]
@[simp] theorem forceReset_htif (d : Device) : (forceReset d).htif = false := by simp [forceReset]
@[simp] theorem forceReset_tcif (d : Device) : (forceReset d).tcif = false := by simp [forceReset]
@[simp] theorem forceReset_teif (d : Device) : (forceReset d).teif = false := by simp [forceReset]
@[simp] theorem forceReset_htie (d : Device) : (forceReset d).htie = true := by simp [forceReset]
@[simp] theorem forceReset_tcie (d : Device) : (forceReset d).tcie = true := by simp [forceReset]
@[simp] theorem forceReset_teie (d : Device) : (forceReset d).teie = true := by simp [forceReset]
@[simp] theorem forceReset_chEn (d : Device) : (forceReset d).chEn = true := by simp [forceReset]
@[simp] theorem forceReset_ccr (d : Device) : (forceReset d).ccr = d.ccr := by simp [forceReset]
@[simp] theorem forceReset_underrun (d : Device) : (forceReset d).underrun = d.underrun := by simp [forceReset]
@[simp] theorem forceReset_out (d : Device) : (forceReset d).out = d.out ++ (if d.chEn || d.dmaEn then [.dis] else []) ++ [.en] := by simp [forceReset]

/-! `initDevice` -/

@[simp] theorem initDevice_cfg (d : Device) : (initDevice d).cfg = d.cfg := rfl
@[simp] theorem initDevice_fsm (d : Device) : (initDevice d).fsm = .idle := rfl
@[simp] theorem initDevice_pixBase (d : Device) : (initDevice d).pixBase = 0 := rfl
@[simp] theorem initDevice_total (d : Device) : (initDevice d).total = 0 := rfl
@[simp] theorem initDevice_sent (d : Device) : (initDevice d).sent = 0 := rfl
@[simp] theorem initDevice_half (d : Device) : (initDevice d).half = .h0 := rfl
@[simp] theorem initDevice_hval (d : Device) : (initDevice d).hval = (tickCounts d.cfg).hval := rfl
@[simp] theorem initDevice_lval (d : Device) : (initDevice d).lval = (tickCounts d.cfg).lval := rfl
@[simp] theorem initDevice_cw (d : Device) : (initDevice d).cw = zeroCodewords 96 := rfl
@[simp] theorem initDevice_latch (d : Device) : (initDevice d).latch = d.latch := rfl
@[simp] theorem initDevice_dmaEn (d : Device) : (initDevice d).dmaEn = false := rfl
@[simp] theorem initDevice_dmaSrc (d : Device) : (initDevice d).dmaSrc = .cwbuf := rfl
@[simp] theorem initDevice_dmaLen (d : Device) : (initDevice d).dmaLen = 96 := rfl
@[simp] theorem initDevice_dmaRd (d : Device) : (initDevice d).dmaRd = 0 := rfl
@[simp] theorem initDevice_htif (d : Device) : (initDevice d).htif = false := rfl
@[simp] theorem initDevice_tcif (d : Device) : (initDevice d).tcif = false := rfl
@[simp] theorem initDevice_teif (d : Device) : (initDevice d).teif = false := rfl
@[simp] theorem initDevice_htie (d : Device) : (initDevice d).htie = false := rfl
@[simp] theorem initDevice_tcie (d : Device) : (initDevice d).tcie = false := rfl
@[simp] theorem initDevice_teie (d : Device) : (initDevice d).teie = false := rfl
@[simp] theorem initDevice_chEn (d : Device) : (initDevice d).chEn = false := rfl
@[simp] theorem initDevice_ccr (d : Device) : (initDevice d).ccr = 0 := rfl
@[simp] theorem initDevice_underrun (d : Device) : (initDevice d).underrun = d.underrun := rfl
@[simp] theorem initDevice_out (d : Device) : (initDevice d).out = d.out := rfl

/-! `deliver` -/

@[simp] theorem deliver_cfg (v : Half16) (d : Device) : (deliver v d).cfg = d.cfg := by
  unfold deliver; split <;> simp_all
@[simp] theorem deliver_fsm (v : Half16) (d : Device) : (deliver v d).fsm = d.fsm := by
  unfold deliver; split <;> simp_all
@[simp] theorem deliver_pixBase (v : Half16) (d : Device) : (deliver v d).pixBase = d.pixBase := by
  unfold deliver; split <;> simp_all
@[simp] theorem deliver_total (v : Half16) (d : Device) : (deliver v d).total = d.total := by
  unfold deliver; split <;> simp_all
@[simp] theorem deliver_sent (v : Half16) (d : Device) : (deliver v d).sent = d.sent := by
  unfold deliver; split <;> simp_all
@[simp] theorem deliver_half (v : Half16) (d : Device) : (deliver v d).half = d.half := by
  unfold deliver; split <;> simp_all
@[simp] theorem deliver_hval (v : Half16) (d : Device) : (deliver v d).hval = d.hval := by
  unfold deliver; split <;> simp_all
@[simp] theorem deliver_lval (v : Half16) (d : Device) : (deliver v d).lval = d.lval := by
  unfold deliver; split <;> simp_all
@[simp] theorem deliver_cw (v : Half16) (d : Device) : (deliver v d).cw = d.cw := by
  unfold deliver; split <;> simp_all
@[simp] theorem deliver_latch (v : Half16) (d : Device) : (deliver v d).latch = d.latch := by
  unfold deliver; split <;> simp_all
@[simp] theorem deliver_dmaEn (v : Half16) (d : Device) : (deliver v d).dmaEn = d.dmaEn := by
  unfold deliver; split <;> simp_all
@[simp] theorem deliver_dmaSrc (v : Half16) (d : Device) : (deliver v d).dmaSrc = d.dmaSrc := by
  unfold deliver; split <;> simp_all
@[simp] theorem deliver_dmaLen (v : Half16) (d : Device) : (deliver v d).dmaLen = d.dmaLen := by
  unfold deliver; split <;> simp_all
@[simp] theorem deliver_dmaRd (v : Half16) (d : Device) : (deliver v d).dmaRd = d.dmaRd := by
  unfold deliver; split <;> simp_all
@[simp] theorem deliver_htif (v : Half16) (d : Device) : (deliver v d).htif = d.htif := by
  unfold deliver; split <;> simp_all
@[simp] theorem deliver_tcif (v : Half16) (d : Device) : (deliver v d).tcif = d.tcif := by
  unfold deliver; split <;> simp_all
@[simp] theorem deliver_teif (v : Half16) (d : Device) : (deliver v d).teif = d.teif := by
  unfold deliver; split <;> simp_all
@[simp] theorem deliver_htie (v : Half16) (d : Device) : (deliver v d).htie = d.htie := by
  unfold deliver; split <;> simp_all
@[simp] theorem deliver_tcie (v : Half16) (d : Device) : (deliver v d).tcie = d.tcie := by
  unfold deliver; split <;> simp_all
@[simp] theorem deliver_teie (v : Half16) (d : Device) : (deliver v d).teie = d.teie := by
  unfold deliver; split <;> simp_all
@[simp] theorem deliver_chEn (v : Half16) (d : Device) : (deliver v d).chEn = d.chEn := by
  unfold deliver; split <;> simp_all
@[simp] theorem deliver_ccr (v : Half16) (d : Device) : (deliver v d).ccr = v := by
  unfold deliver; split <;> simp_all
@[simp] theorem deliver_underrun (v : Half16) (d : Device) : (deliver v d).underrun = d.underrun := by
  unfold deliver; split <;> simp_all
@[simp] theorem deliver_out (v : Half16) (d : Device) : (deliver v d).out = d.out ++ (if d.chEn then [.cw v] else []) := by
  unfold deliver; split <;> simp_all

/-! Equality, field by field -/

theorem Device.ext_fields {d e : Device}
    (hCfg : d.cfg = e.cfg)
    (hFsm : d.fsm = e.fsm)
    (hPixBase : d.pixBase = e.pixBase)
    (hTotal : d.total = e.total)
    (hSent : d.sent = e.sent)
    (hHalf : d.half = e.half)
    (hHval : d.hval = e.hval)
    (hLval : d.lval = e.lval)
    (hCw : d.cw = e.cw)
    (hLatch : d.latch = e.latch)
    (hDmaEn : d.dmaEn = e.dmaEn)
    (hDmaSrc : d.dmaSrc = e.dmaSrc)
    (hDmaLen : d.dmaLen = e.dmaLen)
    (hDmaRd : d.dmaRd = e.dmaRd)
    (hHtif : d.htif = e.htif)
    (hTcif : d.tcif = e.tcif)
    (hTeif : d.teif = e.teif)
    (hHtie : d.htie = e.htie)
    (hTcie : d.tcie = e.tcie)
    (hTeie : d.teie = e.teie)
    (hChEn : d.chEn = e.chEn)
    (hCcr : d.ccr = e.ccr)
    (hUnderrun : d.underrun = e.underrun)
    (hOut : d.out = e.out) : d = e := by
  cases d; cases e; simp_all

/-! `withRes` -/

@[simp] theorem withRes_res (s : State) (v : Word) : (s.withRes v).res = v := rfl
@[simp] theorem withRes_inited (s : State) (v : Word) : (s.withRes v).inited = s.inited := rfl
@[simp] theorem withRes_pix (s : State) (v : Word) : (s.withRes v).pix = s.pix := rfl
@[simp] theorem withRes_devs (s : State) (v : Word) : (s.withRes v).devs = s.devs := rfl
@[simp] theorem withRes_port (s : State) (v : Word) : (s.withRes v).port = s.port := rfl
@[simp] theorem withRes_sched (s : State) (v : Word) : (s.withRes v).sched = s.sched := rfl

/-! `fail` -/

@[simp] theorem fail_res (s : State) (r : FailReason) : (s.fail r).res = 0 := rfl
@[simp] theorem fail_inited (s : State) (r : FailReason) : (s.fail r).inited = s.inited := rfl
@[simp] theorem fail_pix (s : State) (r : FailReason) : (s.fail r).pix = s.pix := rfl
@[simp] theorem fail_devs (s : State) (r : FailReason) : (s.fail r).devs = s.devs := rfl
@[simp] theorem fail_port (s : State) (r : FailReason) : (s.fail r).port = s.port := rfl
@[simp] theorem fail_sched (s : State) (r : FailReason) : (s.fail r).sched = s.sched := rfl

/-! `putDev` -/

@[simp] theorem putDev_res (s : State) (dev : Byte) (d : Device) : (s.putDev dev d).res = s.res := rfl
@[simp] theorem putDev_inited (s : State) (dev : Byte) (d : Device) : (s.putDev dev d).inited = s.inited := rfl
@[simp] theorem putDev_pix (s : State) (dev : Byte) (d : Device) : (s.putDev dev d).pix = s.pix := rfl
@[simp] theorem putDev_devs (s : State) (dev : Byte) (d : Device) : (s.putDev dev d).devs = s.devs.set dev.toNat d := rfl
@[simp] theorem putDev_port (s : State) (dev : Byte) (d : Device) : (s.putDev dev d).port = s.port := rfl
@[simp] theorem putDev_sched (s : State) (dev : Byte) (d : Device) : (s.putDev dev d).sched = s.sched := rfl

/-! `returnFromInterrupt` -/

@[simp] theorem returnFromInterrupt_res (s : State) (dev : Byte) (d : Device) : (returnFromInterrupt s dev d).res = s.res := rfl
@[simp] theorem returnFromInterrupt_inited (s : State) (dev : Byte) (d : Device) : (returnFromInterrupt s dev d).inited = s.inited := rfl
@[simp] theorem returnFromInterrupt_pix (s : State) (dev : Byte) (d : Device) : (returnFromInterrupt s dev d).pix = s.pix := rfl
@[simp] theorem returnFromInterrupt_devs (s : State) (dev : Byte) (d : Device) : (returnFromInterrupt s dev d).devs = s.devs.set dev.toNat d := rfl
@[simp] theorem returnFromInterrupt_port (s : State) (dev : Byte) (d : Device) : (returnFromInterrupt s dev d).port = s.port := rfl
@[simp] theorem returnFromInterrupt_sched (s : State) (dev : Byte) (d : Device) : (returnFromInterrupt s dev d).sched = s.sched := rfl

/-! `storeRange` -/

@[simp] theorem storeRange_res (s : State) (d : Device) (i n : Nat) (r g b : Word) : (storeRange s d i n r g b).res = 1 := rfl
@[simp] theorem storeRange_inited (s : State) (d : Device) (i n : Nat) (r g b : Word) : (storeRange s d i n r g b).inited = s.inited := rfl
@[simp] theorem storeRange_pix (s : State) (d : Device) (i n : Nat) (r g b : Word) : (storeRange s d i n r g b).pix = storePixels d.cfg r g b i n s.pix := rfl
@[simp] theorem storeRange_devs (s : State) (d : Device) (i n : Nat) (r g b : Word) : (storeRange s d i n r g b).devs = s.devs := rfl
@[simp] theorem storeRange_port (s : State) (d : Device) (i n : Nat) (r g b : Word) : (storeRange s d i n r g b).port = s.port := rfl
@[simp] theorem storeRange_sched (s : State) (d : Device) (i n : Nat) (r g b : Word) : (storeRange s d i n r g b).sched = s.sched := rfl

/-! Equality, field by field -/

theorem State.ext_fields {s t : State}
    (hRes : s.res = t.res)
    (hInited : s.inited = t.inited)
    (hPix : s.pix = t.pix)
    (hDevs : s.devs = t.devs)
    (hPort : s.port = t.port)
    (hSched : s.sched = t.sched) : s = t := by
  cases s; cases t; simp_all

end Sys2Proof.Machine
end

