-- ==== Sys2Proof/Laws/Encoder.lean ====
section
/-! SUPPORT. What `EncodeHalf` can do (R82), codeword by codeword. -/

namespace Sys2Proof.Machine

open Sys2Proof

/-- A half is written whole and the other one is left alone (R18, R82). -/
theorem writeHalf_getElem? (h : Half) (new : Nat → Half16) (cw : Vector Half16 96) (i : Nat) :
    (writeHalf h new cw)[i]? =
      if i < 96 ∧ i / 48 = halfIndex h then some (new (i % 48)) else cw[i]? := by
  have hl : cw.toList.length = 96 := by simp
  have he : cw[i]? = cw.toList[i]? := by simp
  rw [he]
  cases h with
  | h0 =>
    simp only [writeHalf, Vector.getElem?_mk, List.getElem?_toArray]
    by_cases hi : i < 48
    · rw [List.getElem?_append_left (by simpa using hi), if_pos (by simp only [halfIndex]; omega)]
      simp [hi, Nat.mod_eq_of_lt hi]
    · rw [List.getElem?_append_right (by simp; omega), if_neg (by simp only [halfIndex]; omega)]
      simp only [List.length_map, List.length_range, List.getElem?_drop]
      congr 1; omega
  | h1 =>
    simp only [writeHalf, Vector.getElem?_mk, List.getElem?_toArray]
    have ht : (cw.toList.take 48).length = 48 := by simp
    by_cases hi : i < 48
    · rw [List.getElem?_append_left (by omega), if_neg (by simp only [halfIndex]; omega), List.getElem?_take_of_lt hi]
    · rw [List.getElem?_append_right (by omega), ht]
      by_cases hj : i < 96
      · rw [if_pos (by simp only [halfIndex]; omega)]
        have hm : i % 48 = i - 48 := by omega
        rw [hm, List.getElem?_map, List.getElem?_range (by omega)]; rfl
      · rw [if_neg (by simp only [halfIndex]; omega)]
        rw [List.getElem?_eq_none (by simp; omega), List.getElem?_eq_none (by omega)]

/-- `EncodeHalf` answers exactly when the bytes it reads are allocated, and then writes only `cw`. -/
theorem encodeHalf_ok {s : State} {h : Half} {first : Nat} {d e : Device} :
    encodeHalf s h first d = .ok e ↔
      halfReadable s d first = true ∧ e = setCw (writeHalf h (codewordOf s d first) d.cw) d := by
  unfold encodeHalf
  split
  · next hr => rw [Except.ok.injEq]; exact ⟨fun h => ⟨hr, h.symm⟩, fun h => h.2.symm⟩
  · next hr => exact ⟨fun h => (nomatch h), fun h => absurd h.1 hr⟩

theorem encodeHalf_error {s : State} {h : Half} {first : Nat} {d : Device} {r : Fault} :
    encodeHalf s h first d = .error r ↔ halfReadable s d first = false ∧ r = .pixOutOfRange := by
  unfold encodeHalf
  split
  · next hr => exact ⟨fun h => (nomatch h), fun h => by simp [hr] at h⟩
  · next hr => rw [Except.error.injEq]; exact ⟨fun h => ⟨by simpa using hr, h.symm⟩, fun h => h.2.symm⟩

/-- The encoder reads the pixels and the devices' configurations, nothing else of the state. -/
theorem encodeHalf_congr {s₁ s₂ : State} (hp : s₁.pix = s₂.pix) (hc : s₁.config = s₂.config) :
    encodeHalf s₁ = encodeHalf s₂ := by
  have ha : s₁.allocated = s₂.allocated := by
    funext a
    have : ∀ s : State, (s.devs.any fun d => DevConfig.owns d.cfg a) = s.config.any fun c => DevConfig.owns c a := by
      intro s; simp [State.config, List.any_map, Function.comp_def]
    simp [State.allocated, this, hc]
  have hb : s₁.pixByte = s₂.pixByte := by funext a; simp [State.pixByte, hp]
  funext h first d
  simp only [encodeHalf, halfReadable, ledReadable, ha]
  have : codewordOf s₁ d first = codewordOf s₂ d first := by funext j; simp [codewordOf, hb]
  rw [this]; rfl

/-- The two halves of `SET` (R71). -/
theorem encodeBoth_ok {s : State} {d e : Device} :
    encodeBoth s d = .ok e ↔ halfReadable s d 0 = true ∧ halfReadable s d 2 = true ∧
      e = setCw (writeHalf .h1 (codewordOf s d 2) (writeHalf .h0 (codewordOf s d 0) (zeroCodewords 96))) d := by
  have h0 : halfReadable s (zeroCw d) 0 = halfReadable s d 0 := rfl
  have c0 : codewordOf s (zeroCw d) 0 = codewordOf s d 0 := rfl
  unfold encodeBoth
  cases h : encodeHalf s .h0 0 (zeroCw d) with
  | error r => rw [encodeHalf_error, h0] at h; simp [h.1]
  | ok d' =>
    rw [encodeHalf_ok, h0, c0] at h
    obtain ⟨h, rfl⟩ := h
    simp only [encodeHalf_ok, h, true_and]
    exact Iff.rfl

theorem encodeBoth_error {s : State} {d : Device} {r : Fault} :
    encodeBoth s d = .error r ↔
      (halfReadable s d 0 = false ∨ halfReadable s d 2 = false) ∧ r = .pixOutOfRange := by
  have h0 : halfReadable s (zeroCw d) 0 = halfReadable s d 0 := rfl
  unfold encodeBoth
  cases h : encodeHalf s .h0 0 (zeroCw d) with
  | error q =>
    rw [encodeHalf_error, h0] at h
    simp only [h.1, true_or, true_and, Except.error.injEq]
    exact h.2 ▸ ⟨Eq.symm, Eq.symm⟩
  | ok d' =>
    rw [encodeHalf_ok, h0] at h
    obtain ⟨h, rfl⟩ := h
    simp only [encodeHalf_error, h, Bool.true_eq_false, false_or]
    exact Iff.rfl

/-- What a successful `SET` leaves of a device (R71). -/
theorem startSet_ok {s : State} {base count : Word} {d e : Device} :
    startSet s base count d = .ok e ↔
      halfReadable s (setBuffer base count d) 0 = true ∧ halfReadable s (setBuffer base count d) 2 = true ∧
      e = setFsm .transfer (armCw (setHalf .h1 (setCw
        (writeHalf .h1 (codewordOf s (setBuffer base count d) 2)
          (writeHalf .h0 (codewordOf s (setBuffer base count d) 0) (zeroCodewords 96))) (setBuffer base count d)))) := by
  unfold startSet
  cases h : encodeBoth s (setBuffer base count d) with
  | error r => rw [encodeBoth_error] at h; rcases h.1 with h | h <;> simp [h]
  | ok d' => rw [encodeBoth_ok] at h; obtain ⟨h1, h2, rfl⟩ := h; simp only [h1, h2, true_and, Except.ok.injEq]; exact ⟨Eq.symm, Eq.symm⟩

theorem startSet_error {s : State} {base count : Word} {d : Device} {r : Fault} :
    startSet s base count d = .error r ↔
      (halfReadable s (setBuffer base count d) 0 = false ∨ halfReadable s (setBuffer base count d) 2 = false) ∧
      r = .pixOutOfRange := by
  unfold startSet
  cases h : encodeBoth s (setBuffer base count d) with
  | error q =>
    rw [encodeBoth_error] at h
    simp only [h.1, true_and, Except.error.injEq]
    exact h.2 ▸ ⟨Eq.symm, Eq.symm⟩
  | ok d' => rw [encodeBoth_ok] at h; simp [h.1, h.2.1]

end Sys2Proof.Machine
end

