-- ==== Sys2Proof/Laws/Device.lean ====
section
/-! SUPPORT. What a beat (R91) and a data event (R104) can do to their device, said once. -/

namespace Sys2Proof.Machine

open Sys2Proof

/-! ### A beat -/

/-- The reader moves on (R91, R92, R98), in one record: HT in the middle, TC and the wrap at the end. -/
theorem advanceReader_eq {d : Device} (h0 : d.dmaRd + 1 ≠ 0) : advanceReader d =
    { d with
      dmaRd := if d.dmaRd + 1 = d.dmaLen then 0 else d.dmaRd + 1
      htif := d.htif || decide (d.dmaRd + 1 = d.dmaLen / 2)
      tcif := d.tcif || decide (d.dmaRd + 1 = d.dmaLen)
      underrun := d.underrun || (decide (d.fsm = .transfer) && (d.htif || d.tcif) &&
        (decide (d.dmaRd + 1 = d.dmaLen / 2) || decide (d.dmaRd + 1 = d.dmaLen))) } := by
  have hx : ¬ (d.dmaRd + 1 = d.dmaLen / 2 ∧ d.dmaRd + 1 = d.dmaLen) := by
    rintro ⟨h1, h2⟩
    rw [← h2] at h1
    have h3 := congrArg BitVec.toNat h1
    have h4 : (d.dmaRd + 1).toNat ≠ 0 := fun h => h0 (by simpa using BitVec.eq_of_toNat_eq (y := 0#16) h)
    rw [BitVec.toNat_udiv] at h3
    simp at h3 h4
    omega
  obtain ⟨cfg, fsm, pb, tot, sent, half, hv, lv, cw, latch, de, ds, dl, dr, ht, tc, te, a, b, c, ce, cc, ur, out⟩ := d
  simp only [advanceReader, wrapAtEnd, raiseAtMiddle, setReader, raiseData, refillLate] at hx ⊢
  by_cases h1 : dr + 1 = dl / 2
  · have h2 : ¬ dr + 1 = dl := fun h => hx ⟨h1, h⟩
    have h3 : ¬ dl / 2#16 = dl := fun h => h2 (by rw [h1]; exact h)
    have h1' : dr + 1#16 = dl / 2#16 := h1
    simp [h1', h3]; rfl
  · by_cases h2 : dr + 1 = dl
    · have h3 : ¬ dl = dl / 2#16 := fun h => h1 (by rw [h2]; exact h)
      have h2' : dr + 1#16 = dl := h2
      simp [h2', h3]
    · have h1' : ¬ dr + 1#16 = dl / 2#16 := h1
      have h2' : ¬ dr + 1#16 = dl := h2
      simp [h1', h2']
/-- A beat delivers the fetched codeword and moves on. -/
theorem beatDevice_ok {d e : Device} (h : beatDevice d = .ok e) : ∃ v, fetchCodeword d = some v ∧ e = advanceReader (deliver v d) := by
  unfold beatDevice at h
  cases hf : fetchCodeword d with
  | none => rw [hf] at h; cases h
  | some v => rw [hf] at h; exact ⟨v, rfl, by cases h; rfl⟩

/-- The fetched codeword is an element of the buffer in use. -/
theorem fetchCodeword_mem {d : Device} {v : Half16} (h : fetchCodeword d = some v) : (d.dmaSrc = .cwbuf ∧ v ∈ d.cw.toList) ∨ (d.dmaSrc = .latchbuf ∧ v ∈ d.latch.toList) := by
  unfold fetchCodeword at h
  split at h
  · next hs => exact .inl ⟨hs, List.mem_of_getElem? (by simpa using h)⟩
  · next hs => exact .inr ⟨hs, List.mem_of_getElem? (by simpa using h)⟩

/-! ### A data event -/

/-- What servicing a data flag does to a device (R104 to R109). -/
inductive DataMove (s : State) (f : DataFlag) (d : Device) : Device → Prop
  /-- R105: pixel data is left. -/
  | refill : d.fsm = .transfer → (d.sent + 2).toNat < d.total.toNat →
      halfReadable s d ((d.sent + 2).toNat + 2) = true →
      DataMove s f d (setHalf (vacatedHalf f) (setCw (writeHalf (vacatedHalf f)
        (codewordOf s d ((d.sent + 2).toNat + 2)) d.cw) (countPair (clearData f d))))
  /-- R105, R106: everything has been sent. -/
  | startLatch : d.fsm = .transfer ∨ d.fsm = .reset → d.total.toNat ≤ (d.sent + 2).toNat →
      DataMove s f d (startLatch (countPair (clearData f d)))
  /-- R106, R107, R108: only counted. -/
  | count : d.fsm = .idle ∨ (d.fsm = .reset ∧ (d.sent + 2).toNat < d.total.toNat) ∨ (d.fsm = .latch ∧ f = .ht) →
      DataMove s f d (countPair (clearData f d))
  /-- R107, R110: the latch buffer has gone out. -/
  | finish : d.fsm = .latch → f = .tc → DataMove s f d (finish (countPair (clearData f d)))

theorem onData_cases {s : State} {f : DataFlag} {d e : Device} (h : onData s f d = .ok e) : DataMove s f d e := by
  have hfsm : (clearData f d).fsm = d.fsm := by cases f <;> rfl
  have hcw : (countPair (clearData f d)).cw = d.cw := by cases f <;> rfl
  have hsent : (countPair (clearData f d)).sent = d.sent + 2 := by cases f <;> rfl
  have htotal : (countPair (clearData f d)).total = d.total := by cases f <;> rfl
  have hr : ∀ n, halfReadable s (countPair (clearData f d)) n = halfReadable s d n := by
    intro n; cases f <;> rfl
  have hc : ∀ n, codewordOf s (countPair (clearData f d)) n = codewordOf s d n := by
    intro n; cases f <;> rfl
  unfold onData advance at h
  cases hf : d.fsm with
  | idle => simp only [hfsm, hf] at h; cases h; exact .count (.inl hf)
  | transfer =>
    simp only [hfsm, hf, advTransfer, hsent, htotal] at h
    split at h
    · next hlt =>
      split at h
      · next d' hd' =>
        cases h
        rw [encodeHalf_ok, hr, hc, hcw] at hd'
        obtain ⟨h1, rfl⟩ := hd'
        exact .refill hf hlt h1
      · cases h
    · next hge => cases h; exact .startLatch (.inl hf) (by omega)
  | reset =>
    simp only [hfsm, hf, advReset, hsent, htotal] at h
    cases h
    split
    · next hle => exact .startLatch (.inr hf) hle
    · next hlt => exact .count (.inr (.inl ⟨hf, by omega⟩))
  | latch =>
    simp only [hfsm, hf, advLatch] at h
    cases h
    cases f with
    | ht => exact .count (.inr (.inr ⟨hf, rfl⟩))
    | tc => exact .finish hf rfl

/-- A data event stops only at a pixel byte of nobody's buffer, in `Transfer` (R42, R105). -/
theorem onData_error {s : State} {f : DataFlag} {d : Device} {r : Fault} (h : onData s f d = .error r) :
    d.fsm = .transfer ∧ (d.sent + 2).toNat < d.total.toNat ∧ r = .pixOutOfRange ∧
      halfReadable s d ((d.sent + 2).toNat + 2) = false := by
  have hfsm : (clearData f d).fsm = d.fsm := by cases f <;> rfl
  have hsent : (countPair (clearData f d)).sent = d.sent + 2 := by cases f <;> rfl
  have htotal : (countPair (clearData f d)).total = d.total := by cases f <;> rfl
  have hr : ∀ n, halfReadable s (countPair (clearData f d)) n = halfReadable s d n := by
    intro n; cases f <;> rfl
  unfold onData advance at h
  cases hf : d.fsm <;> simp only [hfsm, hf, advTransfer, hsent, htotal] at h <;> try cases h
  split at h
  · next hlt =>
    split at h
    · cases h
    · next q hq =>
      cases h
      rw [encodeHalf_error, hr] at hq
      exact ⟨rfl, hlt, hq.2, hq.1⟩
  · cases h

end Sys2Proof.Machine
end

