-- ==== Sys2Proof/Laws/Memory.lean ====
section
/-! SUPPORT. The pixel memory: a read after a write, and that every operation keeps the canonical form. -/

namespace Sys2Proof.Machine

open Sys2Proof

theorem Memory.read_write (m : Memory) (a x : Nat) (v : Byte) :
    (m.write a v).read x = if a = x then some v else m.read x := by
  induction m with
  | nil => simp [Memory.write, Memory.read]
  | cons c m ih =>
    obtain ⟨k, w⟩ := c
    simp only [Memory.write]
    split
    · simp [Memory.read]
    · split
      · next h => subst h; simp only [Memory.read]; split <;> rfl
      · next h => simp only [Memory.read, ih]; split
                  · next hk => rw [if_neg (by omega)]
                  · rfl

@[simp] theorem Memory.read_write_same (m : Memory) (a : Nat) (v : Byte) : (m.write a v).read a = some v := by
  simp [Memory.read_write]

theorem Memory.read_write_other (m : Memory) {a x : Nat} (v : Byte) (h : a ≠ x) :
    (m.write a v).read x = m.read x := by simp [Memory.read_write, h]

theorem Memory.mem_write {m : Memory} {a : Nat} {v : Byte} {c : Host.Cell} (h : c ∈ m.write a v) :
    c = (a, v) ∨ c ∈ m := by
  induction m with
  | nil => simpa [Memory.write] using h
  | cons k m ih =>
    obtain ⟨k, w⟩ := k
    simp only [Memory.write] at h
    split_ifs at h <;> simp only [List.mem_cons] at h ⊢ <;> tauto

theorem Memory.write_wf {m : Memory} {a : Nat} (v : Byte) (h : Memory.wf m) (ha : a < pixSize) :
    Memory.wf (m.write a v) := by
  refine ⟨?_, fun c hc => ?_⟩
  · obtain ⟨h, -⟩ := h
    induction m with
    | nil => simp [Memory.write]
    | cons k m ih =>
      obtain ⟨k, w⟩ := k
      rw [List.pairwise_cons] at h
      simp only [Memory.write]
      split
      · next hk =>
        refine List.pairwise_cons.2 ⟨fun c hc => ?_, List.pairwise_cons.2 h⟩
        rcases List.mem_cons.1 hc with hc | hc
        · simpa [hc] using hk
        · exact Nat.lt_trans hk (h.1 c hc)
      · split
        · next hk => exact List.pairwise_cons.2 ⟨fun c hc => by simpa [hk] using h.1 c hc, h.2⟩
        · refine List.pairwise_cons.2 ⟨fun c hc => ?_, ih h.2⟩
          rcases Memory.mem_write hc with hc | hc
          · simp only [hc]; omega
          · exact h.1 c hc
  · rcases Memory.mem_write hc with hc | hc
    · simpa [hc] using ha
    · exact h.2 c hc

theorem Memory.read_zero (n : Nat) : ∀ (m : Memory) (a x : Nat),
    (m.zero a n).read x = if a ≤ x ∧ x < a + n then some 0 else m.read x := by
  induction n with
  | zero => intro m a x; simp only [Memory.zero]; rw [if_neg (by omega)]
  | succ n ih =>
    intro m a x
    simp only [Memory.zero, ih, Memory.read_write]
    split
    · rw [if_pos (by omega)]
    · split
      · rw [if_pos (by omega)]
      · rw [if_neg (by omega)]

theorem Memory.zero_wf (n : Nat) : ∀ {m : Memory} {a : Nat}, Memory.wf m → a + n ≤ pixSize →
    Memory.wf (m.zero a n) := by
  induction n with
  | zero => intro m a h _; exact h
  | succ n ih => intro m a h ha; exact ih (Memory.write_wf 0 h (by omega)) (by omega)

/-- What `StorePixel` leaves at an address: one of the three colour bytes, or what was there. -/
theorem storePixel_read (c : DevConfig) (i : Nat) (r g b : Word) (m : Memory) (x : Nat) :
    (storePixel c i r g b m).read x =
      if pixelAddr c i + 2 = x then some (colour b)
      else if pixelAddr c i + 1 = x then some (colour g)
      else if pixelAddr c i = x then some (colour r)
      else m.read x := by
  simp only [storePixel, Memory.read_write]

/-- What `n` stored pixels leave at an address. -/
theorem storePixels_read (c : DevConfig) (r g b : Word) (n : Nat) : ∀ (i : Nat) (m : Memory) (x : Nat),
    (storePixels c r g b i n m).read x =
      if c.pixBase + 3 * i ≤ x ∧ x < c.pixBase + 3 * (i + n) then
        (if (x - c.pixBase) % 3 = 0 then some (colour r)
         else if (x - c.pixBase) % 3 = 1 then some (colour g)
         else some (colour b))
      else m.read x := by
  induction n with
  | zero => intro i m x; simp only [storePixels]; rw [if_neg (by omega)]
  | succ n ih =>
    intro i m x
    have hp : pixelAddr c i = c.pixBase + 3 * i := rfl
    simp only [storePixels, ih, storePixel_read]
    generalize pixelAddr c i = p at hp
    by_cases hx : c.pixBase ≤ x
    · obtain ⟨y, rfl⟩ := Nat.exists_eq_add_of_le hx
      simp only [Nat.add_sub_cancel_left]
      split_ifs <;> first | rfl | (exfalso; omega)
    · split_ifs <;> first | rfl | (exfalso; omega)

theorem storePixels_wf (c : DevConfig) (r g b : Word) (n : Nat) : ∀ {i : Nat} {m : Memory}, Memory.wf m →
    c.pixBase + 3 * (i + n) ≤ pixSize → Memory.wf (storePixels c r g b i n m) := by
  induction n with
  | zero => intro i m h _; exact h
  | succ n ih =>
    intro i m h hb
    refine ih (Memory.write_wf _ (Memory.write_wf _ (Memory.write_wf _ h ?_) ?_) ?_) (by omega) <;>
      · simp only [pixelAddr]; omega

/-- What zeroing the buffers leaves at an address (R70). -/
theorem zeroBuffers_read (x : Nat) : ∀ (devs : List Device) (m : Memory),
    (zeroBuffers devs m).read x = if devs.any (fun d => DevConfig.owns d.cfg x) then some 0 else m.read x := by
  intro devs
  induction devs with
  | nil => intro m; simp [zeroBuffers]
  | cons d devs ih =>
    intro m
    have := ih (m.zero d.cfg.pixBase (3 * d.cfg.ledMax))
    simp only [zeroBuffers, List.foldl_cons] at this ⊢
    rw [this, Memory.read_zero]
    by_cases h : d.cfg.pixBase ≤ x ∧ x < d.cfg.pixBase + 3 * d.cfg.ledMax <;>
      simp [DevConfig.owns, h]

theorem zeroBuffers_wf : ∀ {devs : List Device} {m : Memory}, Memory.wf m →
    (∀ d ∈ devs, d.cfg.pixBase + 3 * d.cfg.ledMax ≤ pixSize) → Memory.wf (zeroBuffers devs m) := by
  intro devs
  induction devs with
  | nil => intro m h _; exact h
  | cons d devs ih =>
    intro m h hb
    exact ih (Memory.zero_wf _ h (hb d (by simp))) fun e he => hb e (by simp [he])

end Sys2Proof.Machine
end

