-- ==== Sys2Proof/Laws/Observe.lean ====
section
/-! SUPPORT. The final observation, read by part. -/

namespace Sys2Proof.Machine

open Sys2Proof

@[simp] theorem observe_res (s : State) : (observe s).res = s.res := rfl
@[simp] theorem observe_out (s : State) : (observe s).out = s.devs.map Device.out := rfl
@[simp] theorem observe_buffers (s : State) : (observe s).buffers = s.devs.map (ownBuffer s) := rfl
@[simp] theorem observe_underrun (s : State) : (observe s).underrun = s.devs.map Device.underrun := rfl

@[simp] theorem ownBuffer_length (s : State) (d : Device) : (ownBuffer s d).length = 3 * d.cfg.ledMax := by
  simp [ownBuffer]

theorem ownBuffer_getElem? (s : State) (d : Device) {k : Nat} (h : k < 3 * d.cfg.ledMax) :
    (ownBuffer s d)[k]? = some (s.pix.read (d.cfg.pixBase + k)) := by
  simp [ownBuffer, h]

/-- There is a final observation exactly once the run is over. -/
theorem finalObservation_eq_some {s : State} {o : Observation} : finalObservation s = some o ↔ runOver s ∧ o = observe s := by
  unfold finalObservation
  by_cases h : runOver s
  · rw [if_pos h]; exact ⟨fun e => ⟨h, (Option.some.inj e).symm⟩, fun e => congrArg some e.2.symm⟩
  · rw [if_neg h]; exact ⟨nofun, fun e => absurd e.1 h⟩

/-- With the port used up, a run is over as soon as the state is quiescent. -/
theorem runOver_of_port_nil {s : State} (h : s.port = []) : runOver s ↔ quiescent s := by
  simp [runOver, h, decodePacket]

end Sys2Proof.Machine
end

