-- ==== Sys2Proof/Laws/PerInstr.lean ====
section
/-! SUPPORT. One lemma per instruction: its encoding has the form its format asks for (R51, R53, R55, R56, R57). -/

namespace Sys2Proof.Laws.Format

open Sys2Proof

/-- The form of the words on each channel: a packet has a zero low half in its header and as many operand words as its `op`
calls for; an `EVT` or `CB` word has one of the codes in use; a `CW` word is any 16 bits. -/
def WellFormed : Encoded → Prop
  | .cmd [] => False
  | .cmd (h :: ops) => headerZero h = 0#16 ∧ ops.length = operandWords (headerOp h)
  | .evt w => wordCode w ∈ [1#8, 2#8, 3#8]
  | .cb w => wordCode w ∈ [0#8, 1#8]
  | .cw _ _ => True

/-- The encoding of `i` has its format's form, whatever the symbols are. -/
def Statement (i : Instr) : Prop := ∀ y : Byte → Symbols, WellFormed (encode y i)

theorem headerOp_header (op dev : Byte) : headerOp (header op dev) = op := by
  apply BitVec.eq_of_getElem_eq
  intro k hk
  simp only [headerOp, header, BitVec.getElem_extractLsb', BitVec.getLsbD_append]
  rw [if_neg (by omega), if_neg (by omega)]
  simp [show 24 + k - 16 - 8 = k by omega, BitVec.getLsbD_eq_getElem hk]

theorem headerZero_header (op dev : Byte) : headerZero (header op dev) = 0#16 := by
  apply BitVec.eq_of_getElem_eq
  intro k hk
  simp only [headerZero, header, BitVec.getElem_extractLsb', BitVec.getLsbD_append]
  rw [if_pos (by omega)]
  simp

theorem wordCode_devWord (dev code : Byte) : wordCode (devWord dev code) = code := by
  apply BitVec.eq_of_getElem_eq
  intro k hk
  simp only [wordCode, devWord, BitVec.getElem_extractLsb', BitVec.getLsbD_append]
  rw [if_pos (by omega)]
  simp [BitVec.getLsbD_eq_getElem hk]

theorem init : Statement .init := fun _ => ⟨headerZero_header _ _, by rw [headerOp_header]; rfl⟩
theorem set (dev : Byte) (base count : Word) : Statement (.set dev base count) :=
  fun _ => ⟨headerZero_header _ _, by rw [headerOp_header]; rfl⟩
theorem reset (dev : Byte) : Statement (.reset dev) := fun _ => ⟨headerZero_header _ _, by rw [headerOp_header]; rfl⟩
theorem getLedCount (dev : Byte) : Statement (.getLedCount dev) :=
  fun _ => ⟨headerZero_header _ _, by rw [headerOp_header]; rfl⟩
theorem setColor (dev : Byte) (index r g b : Word) : Statement (.setColor dev index r g b) :=
  fun _ => ⟨headerZero_header _ _, by rw [headerOp_header]; rfl⟩
theorem fillColor (dev : Byte) (r g b : Word) : Statement (.fillColor dev r g b) :=
  fun _ => ⟨headerZero_header _ _, by rw [headerOp_header]; rfl⟩
theorem fillSeg (dev : Byte) (first last r g b : Word) : Statement (.fillSeg dev first last r g b) :=
  fun _ => ⟨headerZero_header _ _, by rw [headerOp_header]; rfl⟩
theorem ht (dev : Byte) : Statement (.ht dev) := fun _ => by simp [WellFormed, encode, wordCode_devWord]
theorem tc (dev : Byte) : Statement (.tc dev) := fun _ => by simp [WellFormed, encode, wordCode_devWord]
theorem te (dev : Byte) : Statement (.te dev) := fun _ => by simp [WellFormed, encode, wordCode_devWord]
theorem cbComplete (dev : Byte) : Statement (.cbComplete dev) := fun _ => by simp [WellFormed, encode, wordCode_devWord]
theorem cbError (dev : Byte) : Statement (.cbError dev) := fun _ => by simp [WellFormed, encode, wordCode_devWord]
theorem cwOne (dev : Byte) : Statement (.cwOne dev) := fun _ => trivial
theorem cwZero (dev : Byte) : Statement (.cwZero dev) := fun _ => trivial
theorem cwFill (dev : Byte) : Statement (.cwFill dev) := fun _ => trivial

end Sys2Proof.Laws.Format
end

