-- ==== Sys2Proof/Laws/Step.lean ====
section
/-! SUPPORT. What one operation and one step can do, said once: to the block, and to one device of it. -/

namespace Sys2Proof.Machine

open Sys2Proof Sys2Proof.Safety

/-! ### Reading the devices -/

theorem State.putDev_dev?_same {s : State} {dev : Byte} {d : Device} (e : Device) (h : s.dev? dev = some d) :
    (s.putDev dev e).dev? dev = some e := by
  obtain ⟨hlt, -⟩ := List.getElem?_eq_some_iff.1 h
  simp [State.dev?, State.putDev, hlt]

theorem State.putDev_getElem? {s : State} {dev : Byte} {d : Device} (e : Device) (k : Nat) (h : s.dev? dev = some d) :
    (s.putDev dev e).devs[k]? = if dev.toNat = k then some e else s.devs[k]? := by
  obtain ⟨hlt, -⟩ := List.getElem?_eq_some_iff.1 h
  by_cases hk : dev.toNat = k <;> simp_all [State.putDev]

theorem State.putDev_config {s : State} {dev : Byte} {d e : Device} (h : s.dev? dev = some d) (hc : e.cfg = d.cfg) :
    (s.putDev dev e).config = s.config := by
  obtain ⟨hlt, hd⟩ := List.getElem?_eq_some_iff.1 h
  apply List.ext_getElem?
  intro k
  simp only [State.config, List.getElem?_map]
  rw [State.putDev_getElem? e k h]
  by_cases hk : dev.toNat = k
  · subst hk; simp only [if_true, Option.map_some, hc]; rw [show s.devs[dev.toNat]? = some d from h]; rfl
  · rw [if_neg hk]

/-! ### The checks -/

theorem requireInited_ok {s : State} {dev : Byte} {d : Device} :
    requireInited s dev = .ok d ↔ s.dev? dev = some d ∧ s.inited = true := by
  unfold requireInited requireDevice
  cases s.dev? dev <;> cases s.inited <;> simp

theorem requireIdle_ok {s : State} {dev : Byte} {d : Device} :
    requireIdle s dev = .ok d ↔ s.dev? dev = some d ∧ s.inited = true ∧ d.fsm = .idle := by
  unfold requireIdle
  cases h : requireInited s dev with
  | error r =>
    simp only [reduceCtorEq, false_iff]
    rintro ⟨h1, h2, -⟩
    rw [requireInited_ok.2 ⟨h1, h2⟩] at h; cases h
  | ok x =>
    rw [requireInited_ok] at h
    obtain ⟨h1, h2⟩ := h
    by_cases hx : x.fsm = .idle
    · simp only [hx, if_true, Except.ok.injEq, h1, h2, Option.some.injEq, true_and]
      exact ⟨fun h => ⟨h, h ▸ hx⟩, fun h => h.1⟩
    · simp only [hx, if_false, reduceCtorEq, h1, Option.some.injEq, false_iff]
      rintro ⟨rfl, -, h⟩; exact hx h

/-- The checks of `SET` pass exactly under the conditions of R71. -/
theorem checkSet_ok {s : State} {dev : Byte} {base count : Word} {d : Device} :
    checkSet s dev base count = .ok d ↔ SetAllowed s dev d base count := by
  unfold checkSet
  cases h : requireIdle s dev with
  | error r =>
    simp only [reduceCtorEq, false_iff]
    rintro ⟨⟨h1, h2⟩, h3, -⟩
    rw [requireIdle_ok.2 ⟨h1, h2, h3⟩] at h; cases h
  | ok x =>
    rw [requireIdle_ok] at h
    obtain ⟨h1, h2, h3⟩ := h
    simp only
    split_ifs with hb hc hl
    · simp [hb]
    · simp [hc]
    · simp only [false_iff]
      rintro ⟨⟨h, -⟩, -, -, -, hl'⟩
      rw [h1] at h; cases h; omega
    · simp only [Except.ok.injEq]
      constructor
      · rintro rfl; exact ⟨⟨h1, h2⟩, h3, hb, hc, by omega⟩
      · rintro ⟨⟨h, -⟩, -⟩; rw [h1] at h; cases h; rfl

/-! ### What one operation can do -/

/-- What an operation other than `INIT` does to the device it names. -/
inductive InstrMove (s : State) (d : Device) : Instr → Device → Prop
  | set {dev base count e} : SetAllowed s dev d base count → startSet s base count d = .ok e →
      InstrMove s d (.set dev base count) e
  | reset {dev} : s.inited = true → d.fsm = .idle → InstrMove s d (.reset dev) (forceReset d)
  | ht {dev e} : onData s .ht d = .ok e → InstrMove s d (.ht dev) e
  | tc {dev e} : onData s .tc d = .ok e → InstrMove s d (.tc dev) e
  | te {dev} : InstrMove s d (.te dev) (onError s.inited d)
  | cbComplete {dev} : InstrMove s d (.cbComplete dev) (callback .complete d)
  | cbError {dev} : InstrMove s d (.cbError dev) (callback .error d)
  | cwOne {dev} : InstrMove s d (.cwOne dev) (deliver (bitCodeword d true) d)
  | cwZero {dev} : InstrMove s d (.cwZero dev) (deliver (bitCodeword d false) d)
  | cwFill {dev} : InstrMove s d (.cwFill dev) (deliver 0 d)

/-- `RES` after an operation on a device: a command that is accepted answers 1, the others leave `RES` alone (R10). -/
def resAfter (s : State) : Instr → Word
  | .set _ _ _ => 1
  | .reset _ => 1
  | _ => s.res

/-- What an operation that gives a next state has done to the block. -/
inductive Effect (s : State) (i : Instr) : State → Prop
  /-- A failed command, an accepted `INIT` once more, `GETLEDCOUNT`. -/
  | result (v : Word) : Effect s i (s.withRes v)
  /-- An operation of a device that does not exist, other than a command. -/
  | nothing : Effect s i s
  | init : i = .init → s.inited = false → (∀ d ∈ s.devs, tickCountsUsable d.cfg = true) →
      Effect s i { s with devs := s.devs.map initDevice, pix := zeroBuffers s.devs s.pix, inited := true, res := 1 }
  | store {dev d first n r g b} : commandDevice i = some dev → s.dev? dev = some d → s.inited = true →
      first + n ≤ d.cfg.ledMax → Effect s i (storeRange s d first n r g b)
  | device {dev d e} : commandDevice i = some dev → s.dev? dev = some d → InstrMove s d i e →
      Effect s i ((s.putDev dev e).withRes (resAfter s i))

theorem withRes_self (s : State) : s.withRes s.res = s := rfl

/-- Everything an operation can do. -/
theorem exec_effect {i : Instr} {s t : State} (h : exec i s = .next t) : Effect s i t := by
  cases i with
  | init =>
    simp only [exec, execInit] at h
    split at h
    · cases h; exact .result 1
    · next hi =>
      split at h
      · next hu => cases h; exact .init rfl (by simpa using hi) (by simpa using hu)
      · cases h; exact .result 0
  | set dev base count =>
    simp only [exec, execSet] at h
    split at h
    · cases h; exact .result 0
    · next d hd =>
      rw [checkSet_ok] at hd
      split at h
      · cases h
      · next e he => cases h; exact .device rfl hd.1.1 (.set hd he)
  | reset dev =>
    simp only [exec, execReset] at h
    split at h
    · cases h; exact .result 0
    · next d hd =>
      rw [requireIdle_ok] at hd
      cases h; exact .device rfl hd.1 (.reset hd.2.1 hd.2.2)
  | getLedCount dev =>
    simp only [exec, execGetLedCount] at h
    split at h
    · cases h; exact .result 0
    · cases h; exact .result _
  | setColor dev index r g b =>
    simp only [exec, execSetColor] at h
    split at h
    · cases h; exact .result 0
    · next d hd =>
      rw [requireInited_ok] at hd
      split at h
      · cases h; exact .result 0
      · cases h; exact .store rfl hd.1 hd.2 (by omega)
  | fillColor dev r g b =>
    simp only [exec, execFillColor] at h
    split at h
    · cases h; exact .result 0
    · next d hd =>
      rw [requireInited_ok] at hd
      cases h; exact .store rfl hd.1 hd.2 (by omega)
  | fillSeg dev first last r g b =>
    simp only [exec, execFillSeg] at h
    split at h
    · cases h; exact .result 0
    · next d hd =>
      rw [requireInited_ok] at hd
      split at h
      · cases h; exact .result 0
      · cases h; exact .store rfl hd.1 hd.2 (by omega)
  | ht dev =>
    simp only [exec, execHt, serviceData] at h
    split at h
    · cases h; exact .nothing
    · next d hd =>
      split at h
      · next e he => cases h; exact .device rfl hd (.ht he)
      · cases h
  | tc dev =>
    simp only [exec, execTc, serviceData] at h
    split at h
    · cases h; exact .nothing
    · next d hd =>
      split at h
      · next e he => cases h; exact .device rfl hd (.tc he)
      · cases h
  | te dev =>
    simp only [exec, execTe] at h
    split at h
    · cases h; exact .nothing
    · next d hd => cases h; exact .device rfl hd .te
  | cbComplete dev =>
    simp only [exec, execCbComplete, output] at h
    split at h
    · cases h; exact .nothing
    · next d hd => cases h; exact .device rfl hd .cbComplete
  | cbError dev =>
    simp only [exec, execCbError, output] at h
    split at h
    · cases h; exact .nothing
    · next d hd => cases h; exact .device rfl hd .cbError
  | cwOne dev =>
    simp only [exec, execCwOne, output] at h
    split at h
    · cases h; exact .nothing
    · next d hd => cases h; exact .device rfl hd .cwOne
  | cwZero dev =>
    simp only [exec, execCwZero, output] at h
    split at h
    · cases h; exact .nothing
    · next d hd => cases h; exact .device rfl hd .cwZero
  | cwFill dev =>
    simp only [exec, execCwFill, output] at h
    split at h
    · cases h; exact .nothing
    · next d hd => cases h; exact .device rfl hd .cwFill

/-- No operation is refused. -/
theorem exec_ne_refused (i : Instr) (s : State) (r : Refusal) : exec i s ≠ .refused r := by
  cases i <;>
    simp only [exec, execInit, execSet, execReset, execGetLedCount, execSetColor, execFillColor, execFillSeg, execHt, execTc,
      serviceData, execTe, execCbComplete, execCbError, execCwOne, execCwZero, execCwFill, ne_eq, reduceCtorEq,
      not_false_eq_true] <;>
    (try split) <;> (try split) <;> simp

/-! ### What one step can do -/

/-- The handler and `SET` read the pixels and the configuration, nothing else of the block (R82). -/
theorem onData_congr {s₁ s₂ : State} (hp : s₁.pix = s₂.pix) (hc : s₁.config = s₂.config) : onData s₁ = onData s₂ := by
  funext f d
  simp only [onData, advance, advTransfer, encodeHalf_congr hp hc]

theorem startSet_congr {s₁ s₂ : State} (hp : s₁.pix = s₂.pix) (hc : s₁.config = s₂.config) :
    startSet s₁ = startSet s₂ := by
  funext base count d
  simp only [startSet, encodeBoth, encodeHalf_congr hp hc]

/-- The flag of a data event. -/
def DataFlag.toFlag : DataFlag → Flag
  | .ht => .ht
  | .tc => .tc

/-- What a turn does to device number `k`, beside an `INIT`. -/
inductive TurnMove (s : State) (turn : Turn) (k : Nat) (d : Device) : Device → Prop
  | set {dev base count rest e} : turn = .host → decodePacket s.port = .command (.set dev base count) rest →
      dev.toNat = k → SetAllowed s dev d base count → startSet s base count d = .ok e → TurnMove s turn k d e
  | reset {dev rest} : turn = .host → decodePacket s.port = .command (.reset dev) rest → dev.toNat = k →
      s.inited = true → d.fsm = .idle → TurnMove s turn k d (forceReset d)
  | data {f e} : servicedFlag s k d turn = some (DataFlag.toFlag f) → onData s f d = .ok e → TurnMove s turn k d e
  | error : servicedFlag s k d turn = some .te → TurnMove s turn k d (onError s.inited d)
  | beat {dev e} : turn = .beat dev → dev.toNat = k → d.dmaEn = true → beatDevice d = .ok e → TurnMove s turn k d e
  | fault {dev} : turn = .fault dev → dev.toNat = k → d.dmaEn = true → TurnMove s turn k d (raiseError d)

/-- What a step that gives a next state has done to the block. -/
inductive StepEffect (s : State) (turn : Turn) (t : State) : Prop
  /-- No device, no pixel and no `inited` changes. -/
  | quiet : t.devs = s.devs → t.pix = s.pix → t.inited = s.inited → (turn ≠ .host → t.res = s.res) →
      StepEffect s turn t
  | init {rest} : turn = .host → decodePacket s.port = .command .init rest → s.inited = false → t.inited = true →
      (∀ d ∈ s.devs, tickCountsUsable d.cfg = true) → t.devs = s.devs.map initDevice →
      t.pix = zeroBuffers s.devs s.pix → t.res = 1 → StepEffect s turn t
  | store {i rest dev d first n r g b} : turn = .host → decodePacket s.port = .command i rest →
      commandDevice i = some dev → s.dev? dev = some d → s.inited = true → first + n ≤ d.cfg.ledMax →
      t.devs = s.devs → t.inited = s.inited → t.pix = storePixels d.cfg r g b first n s.pix → t.res = 1 →
      StepEffect s turn t
  | device {dev d e} : s.dev? dev = some d → TurnMove s turn dev.toNat d e → t.devs = (s.putDev dev e).devs →
      t.pix = s.pix → t.inited = s.inited → (turn ≠ .host → t.res = s.res ∧ turnDevice turn = some dev) →
      (turn = .host → t.res = 1) → StepEffect s turn t

/-- A decoded packet is one of the seven commands. -/
theorem decodePacket_command {ws : List Word} {i : Instr} {rest : List Word} (h : decodePacket ws = .command i rest) :
    i = .init ∨ (∃ dev base count, i = .set dev base count) ∨ (∃ dev, i = .reset dev) ∨ (∃ dev, i = .getLedCount dev) ∨
    (∃ dev index r g b, i = .setColor dev index r g b) ∨ (∃ dev r g b, i = .fillColor dev r g b) ∨
    (∃ dev first last r g b, i = .fillSeg dev first last r g b) := by
  cases ws with
  | nil => simp [decodePacket] at h
  | cons w ws =>
    simp only [decodePacket] at h
    split at h
    · cases h
    · split at h
      · next j hj =>
        cases h
        unfold decodeCommand at hj
        simp only at hj
        split_ifs at hj <;> cases hj <;> simp
      · cases h

theorem decodeEvt_ok {w : Half16} {i : Instr} (h : decodeEvt w = .ok i) :
    (wordCode w = 1#8 ∧ i = .ht (wordDev w)) ∨ (wordCode w = 2#8 ∧ i = .tc (wordDev w)) ∨
      (wordCode w = 3#8 ∧ i = .te (wordDev w)) := by
  unfold decodeEvt at h
  split_ifs at h with h1 h2 h3 <;> cases h
  · exact .inl ⟨h1, rfl⟩
  · exact .inr (.inl ⟨h2, rfl⟩)
  · exact .inr (.inr ⟨h3, rfl⟩)

/-- The event instruction of a flag, run in `s`, on device `dev`. -/
theorem flagInstr_effect {dev : Byte} {f : Flag} {s t : State} {turn : Turn} (h : exec (flagInstr dev f) s = .next t)
    (hf : ∀ d, s.dev? dev = some d → servicedFlag s dev.toNat d turn = some f) (hh : turn ≠ .host)
    (hd : turnDevice turn = some dev) : StepEffect s turn t := by
  cases f with
  | ht =>
    simp only [flagInstr, exec, execHt, serviceData] at h
    split at h
    · cases h; exact .quiet rfl rfl rfl fun _ => rfl
    · next d he =>
      split at h
      · next e ho => cases h; exact .device he (.data (f := .ht) (hf d he) ho) rfl rfl rfl (fun _ => ⟨rfl, hd⟩) (absurd · hh)
      · cases h
  | tc =>
    simp only [flagInstr, exec, execTc, serviceData] at h
    split at h
    · cases h; exact .quiet rfl rfl rfl fun _ => rfl
    · next d he =>
      split at h
      · next e ho => cases h; exact .device he (.data (f := .tc) (hf d he) ho) rfl rfl rfl (fun _ => ⟨rfl, hd⟩) (absurd · hh)
      · cases h
  | te =>
    simp only [flagInstr, exec, execTe] at h
    split at h
    · cases h; exact .quiet rfl rfl rfl fun _ => rfl
    · next d he => cases h; exact .device he (.error (hf d he)) rfl rfl rfl (fun _ => ⟨rfl, hd⟩) (absurd · hh)

/-- `StepEffect` looks at no waiting turn. -/
theorem StepEffect.of_sched {s t : State} {turn : Turn} {ts : List Turn} (h : StepEffect { s with sched := ts } turn t) :
    StepEffect s turn t := by
  have hs : startSet { s with sched := ts } = startSet s := startSet_congr rfl rfl
  have ho : onData { s with sched := ts } = onData s := onData_congr rfl rfl
  cases h with
  | quiet h1 h2 h3 h4 => exact .quiet h1 h2 h3 h4
  | init => apply StepEffect.init <;> assumption
  | store host packet named device => apply StepEffect.store (s := s) host packet named device <;> assumption
  | device h1 h2 h3 h4 h5 h6 h7 =>
    refine .device h1 ?_ h3 h4 h5 h6 h7
    cases h2 with
    | set a b c d e => exact .set a b c d (hs ▸ e)
    | reset a b c d e => exact .reset a b c d e
    | data a b => exact .data (by cases turn <;> exact a) (ho ▸ b)
    | error a => exact .error (by cases turn <;> exact a)
    | beat a b c d => exact .beat a b c d
    | fault a b c => exact .fault a b c

/-- Everything a host turn can do. -/
theorem hostTurn_effect {s t : State} (h : hostTurn s = .next t) : StepEffect s .host t := by
  simp only [hostTurn] at h
  split at h
  · cases h; exact .quiet rfl rfl rfl (absurd rfl)
  · cases h; exact .quiet rfl rfl rfl (absurd rfl)
  · next i rest hp =>
    have hs : startSet { s with port := rest } = startSet s := startSet_congr rfl rfl
    cases exec_effect h with
    | result v => exact .quiet rfl rfl rfl (absurd rfl)
    | nothing => exact .quiet rfl rfl rfl (absurd rfl)
    | init hi h1 h2 => subst hi; exact .init rfl hp h1 rfl h2 rfl rfl rfl
    | store hc hd hi hn => exact .store rfl hp hc hd hi hn rfl rfl rfl rfl
    | device hc hd hm =>
      cases hm with
      | set ha he =>
        cases hc
        exact .device hd (.set rfl hp rfl ha (hs ▸ he)) rfl rfl rfl (fun h => absurd rfl h) (fun _ => rfl)
      | reset h1 h2 =>
        cases hc
        exact .device hd (.reset rfl hp rfl h1 h2) rfl rfl rfl (fun h => absurd rfl h) (fun _ => rfl)
      | _ => rcases decodePacket_command hp with h | h | h | h | h | h | h <;> simp at h

/-- Everything a turn can do. -/
theorem runTurn_effect {s t : State} {turn : Turn} (h : runTurn turn s = .next t) : StepEffect s turn t := by
  cases turn with
  | host => exact hostTurn_effect h
  | beat dev =>
    simp only [runTurn, beatTurn] at h
    split at h
    · cases h; exact .quiet rfl rfl rfl fun _ => rfl
    · next d hd =>
      split at h
      · next he =>
        split at h
        · next e hb =>
          cases h
          exact .device hd (.beat rfl rfl he hb) rfl rfl rfl (fun _ => ⟨rfl, rfl⟩) (fun h => nomatch h)
        · cases h
      · cases h; exact .quiet rfl rfl rfl fun _ => rfl
  | fault dev =>
    simp only [runTurn, faultTurn] at h
    split at h
    · cases h; exact .quiet rfl rfl rfl fun _ => rfl
    · next d hd =>
      split at h
      · next he => cases h; exact .device hd (.fault rfl rfl he) rfl rfl rfl (fun _ => ⟨rfl, rfl⟩) (fun h => nomatch h)
      · cases h; exact .quiet rfl rfl rfl fun _ => rfl
  | isr dev =>
    simp only [runTurn, isrTurn] at h
    split at h
    · cases h; exact .quiet rfl rfl rfl fun _ => rfl
    · next d hd =>
      split at h
      · next f hf =>
        refine flagInstr_effect h (fun d' hd' => ?_) (fun h => nomatch h) rfl
        rw [hd] at hd'; cases hd'
        simpa [servicedFlag] using hf
      · cases h; exact .quiet rfl rfl rfl fun _ => rfl
  | evt w =>
    simp only [runTurn, evtTurn] at h
    split at h
    · next i hi =>
      rcases decodeEvt_ok hi with ⟨hc, rfl⟩ | ⟨hc, rfl⟩ | ⟨hc, rfl⟩
      · exact flagInstr_effect (f := .ht) h (fun _ _ => by simp [servicedFlag, hc]) (fun h => nomatch h) rfl
      · exact flagInstr_effect (f := .tc) h (fun _ _ => by simp [servicedFlag, hc]) (fun h => nomatch h) rfl
      · exact flagInstr_effect (f := .te) h (fun _ _ => by simp [servicedFlag, hc]) (fun h => nomatch h) rfl
    · cases h; exact .quiet rfl rfl rfl fun _ => rfl

/-- A turn consumes itself only. -/
theorem runTurn_sched {s t : State} {turn : Turn} (h : runTurn turn s = .next t) : t.sched = s.sched := by
  have key : ∀ {i : Instr} {s t : State}, exec i s = .next t → t.sched = s.sched := by
    intro i s t h; cases exec_effect h <;> rfl
  cases turn with
  | host =>
    simp only [runTurn, hostTurn] at h
    split at h
    · cases h; rfl
    · cases h; rfl
    · have := key h; exact this
  | beat dev => simp only [runTurn, beatTurn] at h; (repeat' split at h) <;> cases h <;> rfl
  | fault dev => simp only [runTurn, faultTurn] at h; (repeat' split at h) <;> cases h <;> rfl
  | isr dev =>
    simp only [runTurn, isrTurn] at h
    split at h
    · cases h; rfl
    · split at h
      · exact key h
      · cases h; rfl
  | evt w =>
    simp only [runTurn, evtTurn] at h
    split at h
    · exact key h
    · cases h; rfl

/-- Everything a step can do: with no turn left nothing, else what its turn does. -/
theorem step_effect {s t : State} (h : step s = .next t) :
    s.config.WellFormed ∧
      ((s.sched = [] ∧ t = s) ∨ ∃ turn ts, s.sched = turn :: ts ∧ t.sched = ts ∧ StepEffect s turn t) := by
  unfold step at h
  split at h
  · next hc =>
    refine ⟨hc, ?_⟩
    simp only [takeTurn] at h
    split at h
    · next hs => cases h; exact .inl ⟨hs, rfl⟩
    · next turn ts hs => exact .inr ⟨turn, ts, hs, runTurn_sched h, (runTurn_effect h).of_sched⟩
  · cases h

/-- The step of a turn, for a block with a well-formed configuration. -/
theorem step_eq {s : State} {turn : Turn} {ts : List Turn} (h : NextTurn s turn ts) :
    step s = runTurn turn { s with sched := ts } := by
  simp only [step, if_pos h.1, takeTurn, h.2]

/-- What a step can do to device number `k`: nothing, an `INIT`, or its turn's move. -/
theorem step_device {s t : State} {turn : Turn} {k : Nat} {d e : Device} (h : StepEffect s turn t)
    (hd : s.devs[k]? = some d) (he : t.devs[k]? = some e) :
    (t.inited = s.inited ∧ e = d) ∨
    (s.inited = false ∧ t.inited = true ∧ tickCountsUsable d.cfg = true ∧ e = initDevice d ∧ turn = .host ∧
      ∃ rest, decodePacket s.port = .command .init rest) ∨
    (t.inited = s.inited ∧ t.pix = s.pix ∧ (turn = .host → t.res = 1) ∧ TurnMove s turn k d e) := by
  cases h with
  | quiet h1 h2 h3 h4 => rw [h1, hd] at he; cases he; exact .inl ⟨h3, rfl⟩
  | init h1 h2 h3 h4 h5 h6 h7 h8 =>
    rw [h6, List.getElem?_map, hd] at he; cases he
    exact .inr (.inl ⟨h3, h4, h5 d (List.mem_of_getElem? hd), rfl, h1, _, h2⟩)
  | store h1 h2 h3 h4 h5 h6 h7 h8 => rw [h7, hd] at he; cases he; exact .inl ⟨h8, rfl⟩
  | device h1 h2 h3 h4 h5 h6 h7 =>
    rw [h3, State.putDev_getElem? _ _ h1] at he
    split at he
    · next hk =>
      subst hk
      rw [show s.devs[_]? = some _ from h1] at hd
      cases hd; cases he
      exact .inr (.inr ⟨h5, h4, h7, h2⟩)
    · rw [hd] at he; cases he; exact .inl ⟨h5, rfl⟩

/-- A step neither makes nor loses a device. -/
theorem StepEffect.length {s t : State} {turn : Turn} (h : StepEffect s turn t) : t.devs.length = s.devs.length := by
  cases h with
  | quiet h1 => rw [h1]
  | init h1 h2 h3 h4 h5 h6 => rw [h6, List.length_map]
  | store h1 h2 h3 h4 h5 h6 h7 => rw [h7]
  | device h1 h2 h3 => rw [h3]; simp [State.putDev]

end Sys2Proof.Machine
end

