-- ==== Sys2Proof/Tests/Slice0.lean ====
section
/-! SUPPORT. Tests: ill-formed configurations are refused, words of the spec decode to what they stand for, single steps give what
95_test_vectors.md says, and every statement's hypotheses can be met. -/

namespace Sys2Proof.Tests

open Sys2Proof Sys2Proof.Machine Sys2Proof.Safety

-- One theorem after the other: the kernel evaluations below would otherwise wait on one another in too many threads.
set_option Elab.async false

/-! ### The standing configuration of 95_test_vectors.md, and small states -/

/-- One device with `n` LEDs at 0x20000000 and `t` ticks. -/
def cfg (n t : Nat) : DevConfig :=
  { ledMax := n, ticks := t, pixBase := 0x20000000, timer := 0, chan := 0, stream := 0 }

/-- A second device beside `cfg 8 100`. -/
def cfg2 : DevConfig := { ledMax := 1, ticks := 100, pixBase := 0x30000000, timer := 1, chan := 1, stream := 1 }

/-- What a step answered, if it answered a next state. -/
def ended (o : Host.Outcome State Machine.Fault Refusal) (p : State → Bool) : Bool :=
  match o with
  | .next s => p s
  | .fault _ => false
  | .refused _ => false

/-- The next state. -/
def result (o : Host.Outcome State Machine.Fault Refusal) : State :=
  match o with
  | .next s => s
  | .fault _ => State.reset
  | .refused _ => State.reset

theorem result_eq {o : Host.Outcome State Machine.Fault Refusal} (h : ended o (fun _ => true) = true) :
    o = .next (result o) := by
  cases o <;> first | rfl | cases h

/-- A device that is there. -/
def devAt (s : State) (dev : Byte) : Device := (s.dev? dev).getD (Device.powerOn (cfg 8 100))

theorem devAt_eq {s : State} {dev : Byte} (h : (s.dev? dev).isSome = true) : s.dev? dev = some (devAt s dev) := by
  unfold devAt; cases hd : s.dev? dev <;> simp_all

/-- A block of one device, initialised, all pixels 0. -/
def block (d : Device) (sched : List Turn) : State :=
  { res := 7, inited := true, pix := Memory.zero [] 0x20000000 24, devs := [d], port := [], sched := sched }

/-- `Idle`, after `INIT`. -/
def idle : Device := initDevice (Device.powerOn (cfg 8 100))

/-- The device a `SET` of its own buffer with `n` LEDs leaves. -/
def sendN (n : Word) : Device := devAt (result (exec (.set 0 0x20000000 n) (block idle []))) 0

/-- `Transfer`, all 8 LEDs. -/
def sending : Device := sendN 8

/-- `Reset`. -/
def resetting : Device := forceReset idle

/-- `Latch`. -/
def latching : Device := startLatch sending

/-- A packet at the port of a block, and the host's turn. -/
def withPacket (s : State) (ws : List Word) : State := { s with port := ws, sched := [.host] }

/-- `RES` after the step, if there is a next state. -/
def resOf (o : Host.Outcome State Machine.Fault Refusal) : Option Word :=
  match o with
  | .next s => some s.res
  | .fault _ => none
  | .refused _ => none

/-! ### Well-formedness: one ill-formed term for each check (R5, R6, R17) -/

theorem test_wf_default : Config.WellFormed Config.default := by decide
theorem test_wf_two : Config.WellFormed [cfg 8 100, cfg2] := by decide
theorem test_wf_edges :
    Config.WellFormed [{ cfg 1 1 with pixBase := 1 }] ∧ Config.WellFormed [cfg (2 ^ 30) 65535] ∧
      Config.WellFormed [{ cfg 1 4 with pixBase := 2 ^ 32 - 3 }] := by decide
theorem test_ill_no_device : ¬ Config.WellFormed [] := by decide
theorem test_ill_too_many_devices : ¬ Config.WellFormed (List.replicate 257 (cfg 1 4)) := by
  intro h; have := h.1.2; rw [List.length_replicate] at this; omega
theorem test_ill_no_led : ¬ Config.WellFormed [cfg 0 100] := by decide
theorem test_ill_too_many_leds : ¬ Config.WellFormed [cfg (2 ^ 30 + 1) 100] := by decide
theorem test_ill_no_ticks : ¬ Config.WellFormed [cfg 8 0] := by decide
theorem test_ill_too_many_ticks : ¬ Config.WellFormed [cfg 8 65536] := by decide
theorem test_ill_null_buffer : ¬ Config.WellFormed [{ cfg 8 100 with pixBase := 0 }] := by decide
theorem test_ill_buffer_past_end : ¬ Config.WellFormed [{ cfg 1 100 with pixBase := 2 ^ 32 - 2 }] := by decide
theorem test_ill_shared_byte : ¬ Config.WellFormed [cfg 8 100, { cfg2 with pixBase := 0x20000000 + 23 }] := by decide
theorem test_ill_shared_timer : ¬ Config.WellFormed [cfg 8 100, { cfg2 with timer := 0 }] := by decide
theorem test_ill_shared_channel : ¬ Config.WellFormed [cfg 8 100, { cfg2 with chan := 0 }] := by decide
theorem test_ill_shared_stream : ¬ Config.WellFormed [cfg 8 100, { cfg2 with stream := 0 }] := by decide
theorem test_ill_symbols_zero : ¬ Symbols.WellFormed { hval := 68, lval := 0 } := by decide
theorem test_ill_symbols_equal : ¬ Symbols.WellFormed { hval := 32, lval := 32 } := by decide
theorem test_ill_config_refused :
    step (State.powerOn [cfg 0 100]) = .refused .illFormedConfig := by
  simp only [step]; rw [if_neg (by decide +kernel)]

/-! ### Decoding, from words written out from the spec (V1, R51 to R57) -/

theorem test_decode_init : decodePacket [0b00000001_00000000_0000000000000000#32] = .command .init [] := by decide
theorem test_decode_set :
    decodePacket [0b00000010_00000011_0000000000000000#32, 0x20000100#32, 0x3C#32] =
      .command (.set 3 0x20000100 60) [] := by decide
theorem test_decode_reset : decodePacket [0b00000011_00000000_0000000000000000#32] = .command (.reset 0) [] := by decide
theorem test_decode_getLedCount :
    decodePacket [0b00000100_11111111_0000000000000000#32] = .command (.getLedCount 255) [] := by decide
theorem test_decode_setColor :
    decodePacket [0b00010000_00000000_0000000000000000#32, 2#32, 0x12#32, 0xB0#32, 1#32] =
      .command (.setColor 0 2 0x12 0xB0 1) [] := by decide
theorem test_decode_fillColor :
    decodePacket [0b00010001_00000000_0000000000000000#32, 0xFF#32, 0#32, 0x80#32] =
      .command (.fillColor 0 0xFF 0 0x80) [] := by decide
theorem test_decode_fillSeg :
    decodePacket [0b00010010_00000000_0000000000000000#32, 2#32, 5#32, 1#32, 2#32, 3#32] =
      .command (.fillSeg 0 2 5 1 2 3) [] := by decide
theorem test_decode_illegal :
    decodePacket [0x05000000#32] = .illegal .unknownOp 0 [] [] ∧
    decodePacket [0x01010000#32] = .illegal .initDevice 1 [] [] ∧
    decodePacket [0x02000001#32, 0x20000000#32, 1#32] = .illegal .reservedBits 0 [0x20000000#32, 1#32] [] ∧
    decodePacket [0x00000000#32] = .illegal .unknownOp 0 [] [] ∧
    decodePacket [0xFF00FFFF#32] = .illegal .unknownOp 0 [] [] := by
  decide
theorem test_decode_split :
    decodePacket [0x11000000#32, 1#32, 2#32, 3#32, 0x03000000#32] = .command (.fillColor 0 1 2 3) [0x03000000#32] := by
  decide
theorem test_decode_incomplete : decodePacket [0x02000000#32, 0x20000000#32] = .incomplete := by decide
theorem test_decode_events :
    decodeEvt 0b00000000_00000001#16 = .ok (.ht 0) ∧ decodeEvt 0b00000000_00000010#16 = .ok (.tc 0) ∧
    decodeEvt 0b00000010_00000011#16 = .ok (.te 2) := by decide
theorem test_decode_events_reserved :
    decodeEvt 0x0000#16 = .error .reservedFlag ∧ decodeEvt 0x0004#16 = .error .reservedFlag := by decide
theorem test_decode_callbacks :
    decodeCb 0b00000001_00000000#16 = .ok (.cbComplete 1) ∧ decodeCb 0b00000000_00000001#16 = .ok (.cbError 0) ∧
    decodeCb 0x0002#16 = .error .reservedVariant := by decide
theorem test_decode_codewords :
    decodeCw { hval := 68, lval := 32 } 0 68 = .ok (.cwOne 0) ∧ decodeCw { hval := 68, lval := 32 } 0 32 = .ok (.cwZero 0) ∧
    decodeCw { hval := 68, lval := 32 } 0 0 = .ok (.cwFill 0) ∧
    decodeCw { hval := 68, lval := 32 } 0 69 = .error .notACodeword := by decide
theorem test_decode_table :
    decodeTableWord 32 0x01000000 = some .init ∧ decodeTableWord 32 0x12000000 = some (.fillSeg 0 0 0 0 0 0) ∧
    decodeTableWord 16 0x0003 = some (.te 0) ∧ decodeTableWord 16 0x0100 = some (.cbComplete 1) := by decide

/-! ### Placing an instruction, and running it first after reset -/

theorem test_fetch_init :
    resOf (step (State.reset.withFetchWord 32 0x01000000)) = some 1 := by decide +kernel
theorem test_fetch_setColor_before_init :
    resOf (step (State.reset.withFetchWord 32 0x10000000)) = some 0 := by decide +kernel
theorem test_fetch_event :
    ended (step (State.reset.withFetchWord 16 0x0001)) (fun s => (devAt s 0).sent == 2) = true := by decide +kernel
theorem test_fetch_codeword :
    ended (step (State.reset.withFetchWord 16 68)) (fun s => (devAt s 0).ccr == 68) = true := by decide +kernel
theorem test_fetch_completion :
    ended (step (State.reset.withFetchWord 16 0xDD00)) (fun _ => true) = true := by decide +kernel

/-! ### Single steps (the values of 95_test_vectors.md) -/

/-- V2a. -/
theorem test_init :
    ended (exec .init (State.powerOn [cfg 4 100])) (fun s =>
      s.res == 1 && s.inited && (devAt s 0).hval == 68 && (devAt s 0).lval == 32 &&
      s.pix == (List.range 12).map fun k => (0x20000000 + k, 0#8)) = true := by decide +kernel
/-- V2f. -/
theorem test_init_all_or_nothing :
    ended (exec .init (State.powerOn [cfg 8 100, { cfg2 with ticks := 3 }])) (fun s =>
      s.res == 0 && !s.inited && (devAt s 0).hval == 0) = true := by decide +kernel
/-- V2b, V2c, V2e. -/
theorem test_tick_counts :
    symbolsOfTicks 90 = { hval := 61, lval := 28 } ∧ symbolsOfTicks 4 = { hval := 2, lval := 1 } ∧
    symbolsOfTicks 65535 = { hval := 44563, lval := 20971 } := by decide

/-- P1 after `SET`: green 0xB0, red 0x12, blue 0x01 of one LED, then zeros. -/
theorem test_set_codewords :
    ended (exec (.set 0 0x20000000 1) (result (exec (.setColor 0 0 0x12 0xB0 0x01) (block idle [])))) (fun s =>
      (devAt s 0).cw.toList == [68, 32, 68, 68, 32, 32, 32, 32, 32, 32, 32, 68, 32, 32, 68, 32,
        32, 32, 32, 32, 32, 32, 32, 68] ++ List.replicate 72 0) = true := by decide +kernel
/-- V3h, with 8 LEDs: the last LED of the transfer lies past the buffer. -/
theorem test_set_fault :
    exec (.set 0 0x20000010 4) (block idle []) = .fault .pixOutOfRange := by
  have h : ended (exec (.set 0 0x20000010 4) (block idle [])) (fun _ => true) = false := by decide +kernel
  have hc : checkSet (block idle []) 0 0x20000010 4 = .ok idle := checkSet_ok.2 (by decide +kernel)
  simp only [exec, execSet, hc] at h ⊢
  cases hs : startSet (block idle []) 0x20000010 4 idle with
  | ok d => rw [hs] at h; cases h
  | error r => rw [(startSet_error.1 hs).2]

/-- V12. -/
theorem test_reset :
    ended (exec (.reset 0) (block idle [])) (fun s =>
      (devAt s 0).fsm == .reset && (devAt s 0).total == 8 && (devAt s 0).out == [.en] && s.res == 1) = true := by
  decide +kernel
/-- V11. -/
theorem test_reset_busy : resOf (exec (.reset 0) (block sending [])) = some 0 := by decide +kernel
/-- Section 2.4. -/
theorem test_getLedCount :
    resOf (exec (.getLedCount 0) (block sending [])) = some 8 ∧ resOf (exec (.getLedCount 7) (block idle [])) = some 0 := by
  decide +kernel

/-- V20, V22: storage order, colours truncated. -/
theorem test_setColor :
    ended (exec (.setColor 0 2 0x12 0xB0 0x01) (block idle [])) (fun s =>
      s.pix.map Prod.snd == List.replicate 6 0 ++ [0x12, 0xB0, 0x01] ++ List.replicate 15 0) = true ∧
    ended (exec (.setColor 0 0 0x1FF 0x100 0xFFFFFF07) (block idle [])) (fun s =>
      s.pix.map Prod.snd == [0xFF, 0x00, 0x07] ++ List.replicate 21 0) = true := by decide +kernel
/-- V21a, V21c. -/
theorem test_setColor_bounds :
    resOf (exec (.setColor 0 8 1 2 3) (block idle [])) = some 0 ∧
    resOf (exec (.setColor 0 0xFFFFFFFF 1 2 3) (block idle [])) = some 0 := by decide +kernel
/-- V25, with 8 LEDs. -/
theorem test_fillColor :
    ended (exec (.fillColor 0 0xFF 0x00 0x80) (block idle [])) (fun s =>
      s.pix.map Prod.snd == (List.replicate 8 [0xFF#8, 0x00#8, 0x80#8]).flatten) = true := by decide +kernel
/-- V23. -/
theorem test_fillSeg :
    ended (exec (.fillSeg 0 2 5 1 2 3) (block idle [])) (fun s =>
      s.pix.map Prod.snd == List.replicate 6 0 ++ (List.replicate 4 [1#8, 2#8, 3#8]).flatten ++ List.replicate 6 0) = true := by
  decide +kernel
/-- V24a, V24b. -/
theorem test_fillSeg_bounds :
    resOf (exec (.fillSeg 0 5 8 1 2 3) (block idle [])) = some 0 ∧
    resOf (exec (.fillSeg 0 5 2 1 2 3) (block idle [])) = some 0 := by decide +kernel

/-- V8, n = 6: the first HT refills half 0 with the LEDs 4 and 5, which are black. -/
theorem test_ht_refills :
    ended (exec (.ht 0) (block { sendN 6 with htif := true } [])) (fun s =>
      (devAt s 0).sent == 2 && !(devAt s 0).htif && (devAt s 0).half == .h0 && (devAt s 0).fsm == .transfer &&
      (devAt s 0).cw.toList.take 48 == List.replicate 48 32) = true := by decide +kernel
/-- V9: `sent = 2 ≥ 2` starts the latch. -/
theorem test_ht_starts_latch :
    ended (exec (.ht 0) (block { sendN 2 with htif := true } [])) (fun s =>
      (devAt s 0).sent == 2 && (devAt s 0).fsm == .latch && (devAt s 0).dmaSrc == .latchbuf &&
      (devAt s 0).dmaLen == 48) = true := by decide +kernel
/-- V8, n = 6: the first TC leaves half 1 all zero. -/
theorem test_tc_zero_fills :
    ended (exec (.tc 0) (block { sendN 6 with tcif := true, sent := 2 } [])) (fun s =>
      (devAt s 0).sent == 4 && (devAt s 0).half == .h1 &&
      (devAt s 0).cw.toList.drop 48 == List.replicate 48 0) = true := by decide +kernel
/-- P1: TC in `Latch` finishes. -/
theorem test_tc_finishes :
    ended (exec (.tc 0) (block latching [])) (fun s =>
      (devAt s 0).fsm == .idle && !(devAt s 0).dmaEn && !(devAt s 0).chEn &&
      (devAt s 0).out == [.en, .dis, .cb .complete]) = true := by decide +kernel
/-- P4, V15: TE reports, aborts and starts the reset sequence; a pending HT is discarded. -/
theorem test_te :
    ended (exec (.te 0) (block { sending with teif := true, htif := true } [])) (fun s =>
      (devAt s 0).fsm == .reset && (devAt s 0).total == 8 && (devAt s 0).sent == 0 && !(devAt s 0).htif &&
      (devAt s 0).out == [.en, .cb .error, .dis, .en] && s.res == 7) = true := by decide +kernel
theorem test_callbacks :
    ended (exec (.cbComplete 0) (block idle [])) (fun s => (devAt s 0).out == [.cb .complete]) = true ∧
    ended (exec (.cbError 0) (block idle [])) (fun s => (devAt s 0).out == [.cb .error]) = true := by decide +kernel
theorem test_codewords :
    ended (exec (.cwOne 0) (block sending [])) (fun s => (devAt s 0).out == [.en, .cw 68]) = true ∧
    ended (exec (.cwZero 0) (block sending [])) (fun s => (devAt s 0).out == [.en, .cw 32]) = true ∧
    ended (exec (.cwFill 0) (block idle [])) (fun s => (devAt s 0).out == [] && (devAt s 0).ccr == 0) = true := by
  decide +kernel
/-- V8: the 48th beat raises HT and nothing else. -/
theorem test_beat_raises_ht :
    ended (step (block { sending with dmaRd := 47 } [.beat 0])) (fun s =>
      (devAt s 0).dmaRd == 48 && (devAt s 0).htif && !(devAt s 0).tcif && !(devAt s 0).underrun) = true := by
  decide +kernel
/-- V10: the 96th beat with HT pending is an underrun; V9: not so in `Latch`. -/
theorem test_beat_underrun :
    ended (step (block { sending with dmaRd := 95, htif := true } [.beat 0])) (fun s =>
      (devAt s 0).dmaRd == 0 && (devAt s 0).tcif && (devAt s 0).htif && (devAt s 0).underrun) = true ∧
    ended (step (block { latching with dmaRd := 47, htif := true } [.beat 0])) (fun s =>
      (devAt s 0).dmaRd == 0 && (devAt s 0).tcif && !(devAt s 0).underrun) = true := by decide +kernel
/-- V15: TE goes first. -/
theorem test_isr_priority :
    ended (step (block { sending with teif := true, htif := true } [.isr 0])) (fun s =>
      (devAt s 0).fsm == .reset) = true ∧
    ended (step (block { latching with htif := true, tcif := true } [.isr 0])) (fun s =>
      (devAt s 0).fsm == .latch && !(devAt s 0).htif && (devAt s 0).tcif) = true := by decide +kernel
/-- V18. -/
theorem test_fault_not_enabled :
    ended (step (block idle [.fault 0])) (fun s => !(devAt s 0).teif && s.sched.isEmpty) = true := by decide +kernel
/-- The codes of R13. -/
theorem test_fsm_codes : [Fsm.idle, .transfer, .latch, .reset].map fsmCode = [0, 1, 2, 3] := by decide
/-- R171: with a command waiting or a device in flight there is no final observation; then it shows the pixels. -/
theorem test_final_observation :
    finalObservation (withPacket (block idle []) [0x01000000]) = none ∧ finalObservation (block sending []) = none ∧
    finalObservation (block idle []) =
      some { res := 7, out := [[]], buffers := [List.replicate 24 (some 0)], underrun := [false] } := by decide +kernel
/-- V1k: an illegal packet is consumed whole and answers 0. -/
theorem test_illegal_packet :
    ended (step (withPacket (block idle []) [0x02000001, 0x20000000, 1])) (fun s =>
      s.res == 0 && s.port.isEmpty && (devAt s 0).fsm == .idle) = true := by decide +kernel

/-! ### Every statement's hypotheses can be met

Each theorem shows a concrete state and operands that meet the hypotheses of the statement it is named after. -/

/-- What `DeviceInv` asks of the stream, once the block is initialised. -/
abbrev StreamFacts (d : Device) : Prop :=
  (d.fsm = .idle → enablesAre false d) ∧ (d.fsm ≠ .idle → enablesAre true d) ∧
  (d.fsm = .transfer ∨ d.fsm = .reset → d.dmaSrc = .cwbuf ∧ d.dmaLen = 96) ∧
  (d.fsm = .latch → d.dmaSrc = .latchbuf ∧ d.dmaLen = 48) ∧ d.dmaRd.toNat < d.dmaLen.toNat

/-- What it asks of the codewords. -/
def codewordsOk (d : Device) : Bool :=
  d.cw.toList.all (fun v => decide (isCodeword d v)) && d.latch.toList.all (· == 0) &&
  (d.fsm != .reset || d.cw.toList.all (· == 0)) && decide (isCodeword d d.ccr ∧ d.ccr.toNat ≤ d.cfg.ticks)

/-- What it asks of the counter, the trace and the symbols. -/
abbrev FrameFacts (d : Device) : Prop :=
  (d.total.toNat ≤ d.cfg.ledMax ∧ (d.fsm = .transfer → 1 ≤ d.total.toNat)) ∧
  frameOpen d.out = some (decide (d.fsm ≠ .idle)) ∧ d.symbols.WellFormed ∧ d.hval.toNat ≤ d.cfg.ticks

/-- The invariants of a device written out, by evaluation. -/
def deviceOk (d : Device) : Bool := decide (StreamFacts d) && codewordsOk d && decide (FrameFacts d)

theorem block_inv {d : Device} {ts : List Turn} (h : deviceOk d = true) : BlockInv (block d ts) := by
  intro e he
  rw [List.mem_singleton.1 he]
  simp only [deviceOk, codewordsOk, Bool.and_eq_true, Bool.or_eq_true, bne_iff_ne, decide_eq_true_eq, List.all_eq_true,
    beq_iff_eq] at h
  have stream := h.1.1
  have codes := h.1.2
  exact {
    quiet := nofun
    idle := stream.1
    inFlight := stream.2.1
    codewordBuffer := stream.2.2.1
    latchBuffer := stream.2.2.2.1
    reader := stream.2.2.2.2
    codewords := codes.1.1.1
    compare := codes.2
    resetLow := fun reset => codes.1.2.resolve_left (not_not_intro reset)
    length := h.2.1
    trace := h.2.2.1
    symbols := h.2.2.2
    latchLow := codes.1.1.2 }

theorem idle_inv (ts : List Turn) : BlockInv (block idle ts) := block_inv (by decide +kernel)
theorem sending_inv (ts : List Turn) : BlockInv (block sending ts) := block_inv (by decide +kernel)
theorem latching_inv (ts : List Turn) : BlockInv (block latching ts) := block_inv (by decide +kernel)

/-- The two symbols of the standing configuration are distinct. -/
theorem witness_EncodeThenDecode : ∀ _ : Byte, Symbols.WellFormed { hval := 68, lval := 32 } := fun _ => by decide
theorem witness_DecodeThenEncode :
    decodePacket [0x11000000#32, 1#32, 2#32, 3#32, 9#32] = .command (.fillColor 0 1 2 3) [9#32] ∧
    decodeEvt 0xFF02#16 = .ok (.tc 255) ∧ decodeCb 0xFF01#16 = .ok (.cbError 255) ∧
    decodeCw { hval := 68, lval := 32 } 9 0#16 = .ok (.cwFill 9) := by decide
theorem witness_PacketLengths :
    operandWords (headerOp 0x12000000#32) ≤ [0#32, 0#32, 0#32, 0#32, 0#32].length ∧
    NextTurn (withPacket (block idle []) [0x12000000, 0, 0, 0, 0]) .host [] ∧
    [0#32, 0#32, 0#32, 0#32].length < operandWords (headerOp 0x12000000#32) := by decide +kernel
theorem witness_IllegalPackets :
    operandWords (headerOp 0x02000001#32) ≤ [0#32, 0#32].length ∧
    NextTurn (withPacket (block idle []) [0x02000001, 0, 0]) .host [] ∧
    (withPacket (block idle []) [0x02000001, 0, 0]).port = 0x02000001#32 :: [0, 0] ∧
    decodePacket [0x02000001#32, 0#32, 0#32] = .illegal .reservedBits 0 [0, 0] [] ∧
    NextTurn (withPacket (block idle []) [0x03FF0000, 7]) .host [] ∧
    decodePacket (withPacket (block idle []) [0x03FF0000, 7]).port = .command (.reset 255) [7] ∧
    commandDevice (.reset 255) = some 255 ∧ (withPacket (block idle []) [0x03FF0000, 7]).dev? 255 = none := by
  decide +kernel
theorem witness_StepRunsPacket :
    NextTurn (withPacket (block idle []) [0x03000000, 5]) .host [] ∧
    decodePacket [0x03000000#32, 5#32] = .command (.reset 0) [5] := by decide +kernel
theorem witness_StepRunsEventWord :
    NextTurn (block idle [.evt 0x0001]) (.evt 0x0001) [] ∧ decodeEvt 0x0001#16 = .ok (.ht 0) ∧
    NextTurn (block idle [.evt 0x0004]) (.evt 0x0004) [] ∧ wordCode 0x0004#16 ∉ [1#8, 2#8, 3#8] := by decide +kernel
theorem witness_HandlerDispatch :
    NextTurn (block { sending with teif := true } [.isr 0]) (.isr 0) [] ∧
    (block { sending with teif := true } [.isr 0]).dev? 0 = some { sending with teif := true } :=
  ⟨by decide +kernel, rfl⟩
theorem witness_BeatCopiesOneCodeword :
    NextTurn (block { sending with dmaRd := 95 } [.beat 0]) (.beat 0) [] ∧
    (block { sending with dmaRd := 95 } [.beat 0]).dev? 0 = some { sending with dmaRd := 95 } ∧ sending.dmaEn = true ∧
    sending.dmaSrc = .cwbuf ∧ sending.cw[95]? = some 32 ∧
    NextTurn (block { latching with dmaRd := 47 } [.beat 0]) (.beat 0) [] ∧
    (block { latching with dmaRd := 47 } [.beat 0]).dev? 0 = some { latching with dmaRd := 47 } ∧ latching.dmaEn = true ∧
    latching.dmaSrc = .latchbuf ∧ latching.latch[47]? = some 0 :=
  have ready : sending.dmaEn = true ∧ sending.dmaSrc = .cwbuf ∧ sending.cw[95]? = some 32 := by decide +kernel
  have draining : latching.dmaEn = true ∧ latching.dmaSrc = .latchbuf ∧ latching.latch[47]? = some 0 := by decide +kernel
  ⟨by decide +kernel, rfl, ready.1, ready.2.1, ready.2.2, by decide +kernel, rfl, draining⟩
theorem witness_BeatRunsCodeword :
    NextTurn (block sending [.beat 0]) (.beat 0) [] ∧ (block sending [.beat 0]).dev? 0 = some sending ∧
    sending.dmaEn = true ∧ fetchCodeword sending = some 32 ∧ decodeCw sending.symbols 0 32 = .ok (.cwZero 0) ∧
    exec (.cwZero 0) (block sending []) = .next ((block sending []).putDev 0 (deliver sending.lval sending)) ∧
    ((block sending []).putDev 0 (deliver sending.lval sending)).dev? 0 = some (deliver sending.lval sending) ∧
    BlockInv (block sending [.beat 0]) ∧ (block sending [.beat 0]).inited = true ∧ sending ∈ (block sending [.beat 0]).devs :=
  have fetched : sending.dmaEn = true ∧ fetchCodeword sending = some 32 ∧
      decodeCw sending.symbols 0 32 = .ok (.cwZero 0) := by decide +kernel
  ⟨by decide +kernel, rfl, fetched.1, fetched.2.1, fetched.2.2, rfl, rfl, sending_inv _, rfl, List.mem_singleton.2 rfl⟩
theorem witness_FaultSourceRaisesError :
    NextTurn (block sending [.fault 0]) (.fault 0) [] ∧ (block sending [.fault 0]).dev? 0 = some sending ∧
    sending.dmaEn = true ∧
    NextTurn (block idle [.fault 0]) (.fault 0) [] ∧ (block idle [.fault 0]).dev? 0 = some idle ∧ idle.dmaEn = false :=
  ⟨by decide +kernel, rfl, by decide +kernel, by decide, rfl, rfl⟩
theorem witness_DisabledStreamIsStill :
    (block idle [.beat 0]).dev? 0 = some idle ∧ idle.dmaEn = false ∧ NextTurn (block idle [.beat 0]) (.beat 0) [] ∧
    NextTurn (block idle [.fault 0]) (.fault 0) [] ∧ BlockInv (block idle []) ∧ idle ∈ (block idle []).devs :=
  ⟨rfl, rfl, by decide +kernel, by decide +kernel, idle_inv _, List.mem_singleton.2 rfl⟩
theorem witness_TickCounts : 1 ≤ 1 ∧ 1 ≤ 65535 ∧ 65535 ≤ 65535 := by decide
theorem witness_InitCompletes :
    (State.powerOn [cfg 1 4]).inited = false ∧
    ∀ d ∈ (State.powerOn [cfg 1 4]).devs, 4 ≤ d.cfg.ticks ∧ d.cfg.ticks ≤ 65535 := by
  refine ⟨rfl, fun d hd => ?_⟩
  rw [List.mem_singleton.1 hd]; decide
theorem witness_InitChangesNothing :
    (block idle []).inited = true ∧ (State.powerOn [cfg 1 3]).inited = false ∧
    ∃ d ∈ (State.powerOn [cfg 1 3]).devs, d.cfg.ticks < 4 :=
  ⟨rfl, rfl, Device.powerOn (cfg 1 3), List.mem_singleton.2 rfl, by decide⟩

/-- The bytes of the block's LEDs are allocated. -/
theorem own_allocated (d : Device) (ts : List Turn) (h : d.cfg = cfg 8 100) (first : Nat) :
    LedsAllocated (block d ts) 0x20000000 8 first := by
  intro led _ hlt off ho
  have hp : d.cfg.pixBase = 0x20000000 ∧ d.cfg.ledMax = 8 := by rw [h]; exact ⟨rfl, rfl⟩
  simp only [State.allocated, block, List.any_cons, List.any_nil, DevConfig.owns, hp.1, hp.2, pixSize, Bool.and_eq_true,
    Bool.or_false, decide_eq_true_eq]
  exact ⟨decide_eq_true (by omega), by omega, by omega⟩

/-- All LEDs of the device: the boundary of check 7. -/
theorem witness_SetCompletes :
    SetAllowed (block idle []) 0 idle 0x20000000 8 ∧ LedsAllocated (block idle []) (0x20000000#32).toNat (8#32).toNat 0 ∧
    LedsAllocated (block idle []) (0x20000000#32).toNat (8#32).toNat 2 :=
  ⟨⟨⟨rfl, rfl⟩, by decide, by decide, by decide, by decide⟩, own_allocated idle [] rfl 0, own_allocated idle [] rfl 2⟩
theorem witness_SetRejects :
    (block idle []).dev? 1 = none ∧ (block idle []).dev? 0 = some idle ∧
    checkSet (block idle []) 0 0x20000000 9 = .error .oversize := ⟨rfl, rfl, rfl⟩
theorem witness_SetOwnBufferCompletes :
    (block idle []).config.WellFormed ∧ SetAllowed (block idle []) 0 idle 0x20000000 8 ∧
    (0x20000000#32).toNat = idle.cfg.pixBase :=
  ⟨by decide, ⟨⟨rfl, rfl⟩, by decide, by decide, by decide, by decide⟩, rfl⟩
theorem witness_SetForeignBufferFaults :
    SetAllowed (block idle []) 0 idle 0x20000010 4 ∧ 3 < 4 ∧ 3 < (4#32).toNat ∧ 2 < 3 ∧
    (block idle []).allocated ((0x20000010#32).toNat + 3 * 3 + 2) = false :=
  ⟨⟨⟨rfl, rfl⟩, by decide, by decide, by decide, by decide⟩, by decide, by decide, by decide, by decide⟩

/-- A block whose LED 0 is green 0b10110000. -/
def green : State := { block idle [] with pix := (block idle []).pix.write 0x20000001 0b10110000 }

theorem witness_GreenByteCodewords :
    SetAllowed green 0 idle 0x20000000 1 ∧ green.pix.read ((0x20000000#32).toNat + 1) = some 0b10110000#8 ∧
    exec (.set 0 0x20000000 1) green = .next (result (exec (.set 0 0x20000000 1) green)) ∧
    (result (exec (.set 0 0x20000000 1) green)).dev? 0 = some (devAt (result (exec (.set 0 0x20000000 1) green)) 0) :=
  ⟨⟨⟨rfl, rfl⟩, by decide, by decide, by decide, by decide⟩, by decide +kernel, result_eq (by decide +kernel),
    devAt_eq (by decide +kernel)⟩
theorem witness_ResetCompletes :
    Ready (block idle []) 0 idle ∧ idle.fsm = .idle ∧ idle.chEn = false ∧ idle.dmaEn = false :=
  ⟨⟨rfl, rfl⟩, rfl, rfl, rfl⟩
theorem witness_ResetRejects :
    (block idle []).dev? 1 = none ∧ (State.powerOn [cfg 8 100]).inited = false ∧
    ((block resetting []).dev? 0 = some resetting ∧ resetting.fsm ≠ .idle) := ⟨rfl, rfl, rfl, by decide +kernel⟩
theorem witness_GetLedCountAnswers :
    Ready (block idle []) 0 idle ∧ (block idle []).dev? 255 = none ∧ (State.powerOn [cfg 8 100]).inited = false ∧
    (block idle []).config.WellFormed := ⟨⟨rfl, rfl⟩, rfl, rfl, by decide⟩
theorem witness_SetColorStoresOneLed : Ready (block idle []) 0 idle ∧ (7#32).toNat < idle.cfg.ledMax := ⟨⟨rfl, rfl⟩, by decide⟩
theorem witness_FillColorStoresAllLeds : Ready (block sending []) 0 sending := ⟨rfl, rfl⟩
theorem witness_FillSegStoresInclusive :
    Ready (block idle []) 0 idle ∧ (3#32).toNat ≤ (3#32).toNat ∧ (0#32).toNat ≤ (7#32).toNat ∧
    (7#32).toNat < idle.cfg.ledMax := ⟨⟨rfl, rfl⟩, by decide, by decide, by decide⟩
theorem witness_FillSegWholeIsFillColor :
    Ready (block idle []) 0 idle ∧ (0#32).toNat = 0 ∧ (7#32).toNat + 1 = idle.cfg.ledMax := ⟨⟨rfl, rfl⟩, by decide, by decide⟩
theorem witness_WritersReject :
    (block idle []).dev? 1 = none ∧ (State.powerOn [cfg 8 100]).inited = false ∧ (block idle []).dev? 0 = some idle ∧
    idle.cfg.ledMax ≤ (8#32).toNat ∧ (2#32).toNat < (5#32).toNat := ⟨rfl, rfl, rfl, by decide, by decide⟩
/-- `sent + 2 = 6` is the last value below 8 LEDs. -/
theorem witness_DataEventRefills :
    InState (block { sending with sent := 4 } []) 0 { sending with sent := 4 } .transfer ∧
    ((4#32 : Word) + 2).toNat < sending.total.toNat ∧
    LedsAllocated (block { sending with sent := 4 } []) sending.pixBase.toNat sending.total.toNat (((4#32 : Word) + 2).toNat + 2) := by
  have hp : sending.pixBase.toNat = 0x20000000 ∧ sending.total.toNat = 8 ∧ sending.cfg = cfg 8 100 := by decide +kernel
  exact ⟨⟨rfl, by decide +kernel⟩, by decide +kernel, by
    rw [hp.1, hp.2.1]; exact own_allocated { sending with sent := 4 } [] hp.2.2 _⟩
theorem witness_DataEventStartsLatch :
    (block { sending with sent := 6 } []).dev? 0 = some { sending with sent := 6 } ∧ sending.fsm = .transfer ∧
    sending.total.toNat ≤ ((6#32 : Word) + 2).toNat ∧
    (block { resetting with sent := 6 } []).dev? 0 = some { resetting with sent := 6 } ∧ resetting.fsm = .reset ∧
    resetting.total.toNat ≤ ((6#32 : Word) + 2).toNat :=
  ⟨rfl, by decide +kernel, by decide +kernel, rfl, by decide +kernel, by decide +kernel⟩
theorem witness_DataEventInReset :
    InState (block { resetting with sent := 4 } []) 0 { resetting with sent := 4 } .reset ∧
    ((4#32 : Word) + 2).toNat < resetting.total.toNat := ⟨⟨rfl, by decide +kernel⟩, by decide +kernel⟩
theorem witness_EventsInLatch : InState (block latching []) 0 latching .latch := ⟨rfl, by decide +kernel⟩
theorem witness_DataEventInIdle :
    InState (block idle [.isr 0]) 0 idle .idle ∧ BlockInv (block idle [.isr 0]) ∧
    NextTurn (block idle [.isr 0]) (.isr 0) [] := ⟨⟨rfl, rfl⟩, idle_inv _, by decide⟩
/-- LED 4 of a transfer from a buffer that is nobody's. -/
theorem witness_RefillFaults :
    InState (block { sending with pixBase := 0x30000000 } []) 0 { sending with pixBase := 0x30000000 } .transfer ∧
    (sending.sent + 2).toNat < sending.total.toNat ∧ 4 = (sending.sent + 2).toNat + 2 ∧
    5 = (sending.sent + 2).toNat + 3 ∧ 5 < sending.total.toNat ∧ 2 < 3 ∧
    (block { sending with pixBase := 0x30000000 } []).allocated ((0x30000000#32).toNat + 3 * 4 + 0) = false ∧
    (block { sending with pixBase := 0x30000000 } []).allocated ((0x30000000#32).toNat + 3 * 5 + 2) = false :=
  ⟨⟨rfl, by decide +kernel⟩, by decide +kernel⟩
theorem witness_ErrorForcesReset :
    Ready (block sending []) 0 sending ∧ (State.powerOn [cfg 8 100]).dev? 0 = some (Device.powerOn (cfg 8 100)) ∧
    (State.powerOn [cfg 8 100]).inited = false := ⟨⟨rfl, rfl⟩, rfl, rfl⟩
theorem witness_MissingDeviceIgnored :
    (block idle [.beat 1]).dev? 1 = none ∧ turnDevice (.beat 1) = some 1 ∧ NextTurn (block idle [.beat 1]) (.beat 1) [] ∧
    turnDevice (.evt 0x0101) = some 1 ∧ NextTurn (block idle [.evt 0x0101]) (.evt 0x0101) [] := by
  refine ⟨rfl, ?_⟩; decide
theorem witness_CallbacksAppendOneItem : (block idle []).dev? 0 = some idle := rfl
theorem witness_CodewordsReachCompareRegister :
    (block sending []).dev? 0 = some sending ∧ sending.chEn = true ∧ (block idle []).dev? 0 = some idle ∧
    idle.chEn = false := ⟨rfl, by decide +kernel, rfl, rfl⟩

/-- Before a beat, and after it. -/
def before : State := block sending [.beat 0]
def after : State := result (step before)

theorem before_step : step before = .next after := result_eq (by decide +kernel)

theorem witness_StepKeepsInvariants : BlockInv before ∧ step before = .next after := ⟨sending_inv _, before_step⟩

/-- What the canonical form asks of the block's memory, and that its buffer has been written. -/
theorem block_memory (d : Device) (ts : List Turn) (h : d.cfg = cfg 8 100) : MemoryInv (block d ts) := by
  have hw : Memory.wf (Memory.zero [] 0x20000000 24) :=
    Memory.zero_wf 24 ⟨List.Pairwise.nil, by simp⟩ (by norm_num [pixSize])
  have hb : d.cfg.pixBase = 0x20000000 ∧ d.cfg.ledMax = 8 := by rw [h]; exact ⟨rfl, rfl⟩
  have hr : ∀ e ∈ [d], ∀ a, DevConfig.owns e.cfg a = true → ((Memory.zero [] 0x20000000 24).read a).isSome = true := by
    intro e he a ha
    rw [List.mem_singleton.1 he] at ha
    simp only [DevConfig.owns, hb, Bool.and_eq_true, decide_eq_true_eq] at ha
    rw [Memory.read_zero, if_pos (by omega)]; rfl
  exact And.intro hw fun _ => hr

theorem witness_StepKeepsMemory : MemoryInv before ∧ step before = .next after :=
  ⟨block_memory sending _ (by decide +kernel), before_step⟩

/-- Before and after the step that makes each of the five transitions. -/
def begins : State := withPacket (block idle []) [0x02000000, 0x20000000, 8]
def resets : State := withPacket (block idle []) [0x03000000]
def latches : State := block { sending with htif := true, sent := 6 } [.isr 0]
def finishes : State := block { latching with tcif := true } [.isr 0]
def errs : State := block { sending with teif := true } [.isr 0]

theorem block_devs (s : State) (h : s.devs.length = 1) : s.devs[0]? = some (devAt s 0) := by
  have hs : s.dev? 0 = s.devs[0]? := rfl
  rw [← hs]; exact devAt_eq (by rw [hs, List.getElem?_eq_getElem (by omega)]; rfl)

/-- The hypotheses of a statement about a change of device 0's `fsm`, in one turn. -/
abbrev Changes (s : State) (turn : Turn) : Prop :=
  NextTurn s turn [] ∧ ended (step s) (fun _ => true) = true ∧ s.devs.length = 1 ∧ (result (step s)).devs.length = 1 ∧
    (devAt (result (step s)) 0).fsm ≠ (devAt s 0).fsm

theorem witness_TransitionRelation :
    (BlockInv begins ∧ BlockInv resets ∧ BlockInv latches ∧ BlockInv finishes ∧ BlockInv errs) ∧
    Changes begins .host ∧ Changes resets .host ∧ Changes latches (.isr 0) ∧ Changes finishes (.isr 0) ∧
    Changes errs (.isr 0) ∧
    (∀ s turn, Changes s turn → step s = .next (result (step s)) ∧ s.devs[0]? = some (devAt s 0) ∧
      (result (step s)).devs[0]? = some (devAt (result (step s)) 0)) :=
  have fromBusy : BlockInv latches ∧ BlockInv finishes ∧ BlockInv errs := by
    refine ⟨?_, ?_, ?_⟩ <;> exact block_inv (by decide +kernel)
  have fromIdle : Changes begins .host ∧ Changes resets .host := by decide +kernel
  have drained : Changes latches (.isr 0) ∧ Changes finishes (.isr 0) := by decide +kernel
  ⟨⟨idle_inv [], idle_inv [], fromBusy⟩, fromIdle.1, fromIdle.2, drained.1, drained.2, by decide +kernel,
    fun s _ h => ⟨result_eq h.2.1, block_devs s h.2.2.1, block_devs _ h.2.2.2.1⟩⟩
theorem witness_AgentsTouchOneDevice :
    NextTurn before (.beat 0) [] ∧ turnDevice (.beat 0) = some 0 ∧ step before = .next after :=
  ⟨by decide +kernel, rfl, before_step⟩
theorem witness_CommandsTouchOneDevice :
    commandDevice (.reset 0) = some 0 ∧
    exec (.reset 0) (block idle []) = .next (((block idle []).putDev 0 (forceReset idle)).withRes 1) := ⟨rfl, rfl⟩
/-- Two blocks that differ in `RES` and in what waits. -/
theorem witness_DevicesIndependent :
    NextTurn before (.beat 0) [] ∧ NextTurn { before with res := 0, sched := [.beat 0, .host] } (.beat 0) [.host] ∧
    turnDevice (.beat 0) = some 0 ∧ before.config = { before with res := 0, sched := [.beat 0, .host] }.config ∧
    step before = .next after := ⟨by decide +kernel, by decide +kernel, rfl, rfl, before_step⟩
theorem witness_PixelWritesStayInBuffer :
    commandDevice (.setColor 0 7 0 0 9) = some 0 ∧
    exec (.setColor 0 7 0 0 9) (block idle []) = .next (storeRange (block idle []) idle 7 1 0 0 9) ∧
    (storeRange (block idle []) idle 7 1 0 0 9).pix.read (0x20000000 + 23) ≠ (block idle []).pix.read (0x20000000 + 23) ∧
    exec .init (State.powerOn [cfg 1 4]) = .next (result (exec .init (State.powerOn [cfg 1 4]))) ∧
    (result (exec .init (State.powerOn [cfg 1 4]))).pix.read 0x20000000 ≠ (State.powerOn [cfg 1 4]).pix.read 0x20000000 :=
  ⟨rfl, rfl, by decide +kernel, result_eq (by decide +kernel), by decide +kernel⟩
theorem witness_StepKeepsHistory : step before = .next after := before_step
theorem witness_CallbacksOnlyWhereDue :
    BlockInv finishes ∧ Changes finishes (.isr 0) ∧
    (devAt (result (step finishes)) 0).out = (devAt finishes 0).out ++ [.dis, .cb .complete] ∧
    BlockInv errs ∧ Changes errs (.isr 0) ∧
    (devAt (result (step errs)) 0).out = (devAt errs 0).out ++ [.cb .error, .dis, .en] :=
  have done : Changes finishes (.isr 0) ∧
      (devAt (result (step finishes)) 0).out = (devAt finishes 0).out ++ [.dis, .cb .complete] := by decide +kernel
  have failed : Changes errs (.isr 0) ∧
      (devAt (result (step errs)) 0).out = (devAt errs 0).out ++ [.cb .error, .dis, .en] := by decide +kernel
  ⟨block_inv (by decide +kernel), done.1, done.2, block_inv (by decide +kernel), failed⟩
theorem witness_StepKeepsDoubleBuffer :
    BlockInv before ∧ (∀ d ∈ before.devs, DoubleBuffer d) ∧ step before = .next after := by
  refine ⟨sending_inv _, fun d hd => ?_, before_step⟩
  rw [List.mem_singleton.1 hd]
  have h : sending.htif = false ∧ sending.tcif = false := by decide +kernel
  intro _ _; simp [h]

/-- HT is pending and the reader is in the other half: the handler's turn refills half 0. -/
def refilling : Device := { sending with htif := true, dmaRd := 48 }
def refills : State := block refilling [.isr 0]

theorem witness_EncoderAvoidsReader :
    BlockInv refills ∧ DoubleBuffer refilling ∧ NextTurn refills (.isr 0) [] ∧ InState refills 0 refilling .transfer ∧
    refilling.underrun = false ∧ step refills = .next (result (step refills)) ∧
    (result (step refills)).dev? 0 = some (devAt (result (step refills)) 0) ∧
    (devAt (result (step refills)) 0).fsm = .transfer := by
  refine ⟨block_inv (by decide +kernel), ?_, by decide +kernel, ⟨rfl, by decide +kernel⟩, by decide +kernel,
    result_eq (by decide +kernel), devAt_eq (by decide +kernel), by decide +kernel⟩
  have h : refilling.tcif = false ∧ refilling.dmaRd = 48 := by decide +kernel
  intro _ _; simp [h]
/-- A `SET` of a buffer that is nobody's faults. -/
theorem witness_OwnBuffersNeverFault :
    BlockInv (withPacket (block idle []) [0x02000000, 0x20000010, 4]) ∧
    OwnBuffers (withPacket (block idle []) [0x02000000, 0x20000010, 4]) ∧
    NextTurn (withPacket (block idle []) [0x02000000, 0x20000010, 4]) .host [] ∧
    step (withPacket (block idle []) [0x02000000, 0x20000010, 4]) = .fault .pixOutOfRange := by
  refine ⟨idle_inv [], fun d hd => ?_, by decide +kernel, ?_⟩
  · rw [List.mem_singleton.1 hd]; intro h; cases h
  · rw [step_eq (turn := .host) (ts := []) (by decide +kernel)]
    exact test_set_fault
/-- A used-up port, and one that holds the beginning of a packet, with the host's turn left; and a device in flight. -/
theorem witness_IdleDeviceIsInert :
    BlockInv (block idle [.beat 0]) ∧ InState (block idle [.beat 0]) 0 idle .idle ∧
    Turn.beat 0 ∈ [Turn.beat 0, .fault 0, .isr 0] ∧ NextTurn (block idle [.beat 0]) (.beat 0) [] ∧
    BlockInv before ∧ sending ∈ before.devs ∧ sending.fsm ≠ .idle ∧
    runOver (block idle [.beat 0]) ∧ BlockInv (withPacket (block idle []) [0x02000000, 0x20000000]) ∧
    runOver (withPacket (block idle []) [0x02000000, 0x20000000]) ∧
    NextTurn (withPacket (block idle []) [0x02000000, 0x20000000]) .host [] ∧ (∀ w : Half16, Turn.host ≠ .evt w) :=
  ⟨idle_inv _, ⟨rfl, rfl⟩, by decide, by decide, sending_inv _, List.mem_singleton.2 rfl, by decide +kernel, by decide +kernel,
    idle_inv [], by decide +kernel, by decide, fun w h => (by cases h)⟩
/-- The most beats in a row that stay inside the buffer. -/
theorem witness_BeatsStreamTheBuffer :
    BlockInv (block sending (List.replicate 95 (.beat 0))) ∧ (block sending (List.replicate 95 (.beat 0))).config.WellFormed ∧
    (block sending (List.replicate 95 (.beat 0))).sched = List.replicate 95 (.beat 0) ++ [] ∧
    (block sending (List.replicate 95 (.beat 0))).dev? 0 = some sending ∧ sending.fsm ≠ .idle ∧
    sending.dmaRd.toNat + 95 < sending.dmaLen.toNat :=
  ⟨sending_inv _, by decide +kernel, (List.append_nil _).symm, rfl, by decide +kernel, by decide +kernel⟩
theorem witness_LatchRunsToIdle :
    let ts := List.replicate 24 (Turn.beat 0) ++ [.isr 0] ++ List.replicate 24 (.beat 0) ++ [.isr 0]
    BlockInv (block latching ts) ∧ (block latching ts).inited = true ∧ (block latching ts).config.WellFormed ∧
    InState (block latching ts) 0 latching .latch ∧ latching.dmaRd = 0 ∧ latching.htif = false ∧ latching.tcif = false ∧
    latching.teif = false ∧ (block latching ts).sched = ts ++ [] :=
  have quiet : latching.dmaRd = 0 ∧ latching.htif = false ∧ latching.tcif = false ∧ latching.teif = false := by decide +kernel
  ⟨latching_inv _, rfl, by decide +kernel, ⟨rfl, by decide +kernel⟩, quiet.1, quiet.2.1, quiet.2.2.1, quiet.2.2.2,
    (List.append_nil _).symm⟩
/-- Nothing pending: a beat; HT pending: the handler; `Idle`: no turn. -/
theorem witness_EagerScheduleNeverUnderruns :
    BlockInv before ∧ eagerTurn (block sending []) 0 = some (.beat 0) ∧ step before = .next after ∧
    after.dev? 0 = some (devAt after 0) ∧
    BlockInv refills ∧ eagerTurn (block refilling []) 0 = some (.isr 0) ∧ step refills = .next (result (step refills)) ∧
    eagerTurn (block idle []) 0 = none :=
  ⟨sending_inv _, by decide +kernel, before_step, devAt_eq (by decide +kernel), block_inv (by decide +kernel),
    by decide +kernel, result_eq (by decide +kernel), by decide +kernel⟩
/-- Freshly armed: 1 LED and 8 LEDs in `Transfer`, and `Reset`. -/
theorem witness_EagerFrameCounts :
    BlockInv (block (sendN 1) []) ∧ BlockInv (block sending []) ∧ BlockInv (block resetting []) ∧
    (block sending []).config.WellFormed ∧
    ∀ d ∈ [sendN 1, sending, resetting], (d.fsm = .transfer ∨ d.fsm = .reset) ∧
      (d.fsm = .transfer → d.pixBase.toNat = d.cfg.pixBase) ∧ 1 ≤ d.total.toNat ∧ d.sent = 0 ∧ d.dmaRd = 0 ∧ d.htif = false ∧
      d.tcif = false ∧ d.teif = false :=
  ⟨block_inv (by decide +kernel), sending_inv _, block_inv (by decide +kernel), by decide +kernel, by decide +kernel⟩
theorem witness_SetBeginsFrame :
    SetAllowed (block idle []) 0 idle 0x20000000 8 ∧
    exec (.set 0 0x20000000 8) (block idle []) = .next (result (exec (.set 0 0x20000000 8) (block idle []))) ∧
    (result (exec (.set 0 0x20000000 8) (block idle []))).dev? 0 = some sending :=
  ⟨⟨⟨rfl, rfl⟩, by decide, by decide, by decide, by decide⟩, result_eq (by decide +kernel), devAt_eq (by decide +kernel)⟩

/-- The frame of `before`: nothing has been sent. -/
theorem before_frame : FrameOk before sending (streamCodeword before sending) := by
  have position : frameCodewords sending.out = [] ∧ sending.sent = 0 ∧ sending.total = 8 ∧ pendingData sending = 0 ∧
      sending.dmaRd = 0 ∧ sending.htif = false ∧ sending.tcif = false ∧ sending.fsm = .transfer := by decide +kernel
  obtain ⟨sentNone, served, leds, noneDue, start, noHt, noTc, running⟩ := position
  have halves : ∀ half < 2, ∀ j < 48, sending.cw[48 * half + j]? = some (streamCodeword before sending (48 * half + j)) := by
    decide +kernel
  constructor
  · intro _
    exact
      { stream := fun _ => rfl
        sent := by simp [sentNone]
        progress := by simp [sentNone, served, noneDue, start]
        even := by simp [served]
        side := by simp [start, served, noneDue]
        oneFlag := by simp [noHt]
        htSide := by simp [noHt]
        tcSide := by simp [noTc]
        remains := by simp [served, leds]
        reading := by simpa [start, sentNone] using halves 0
        next := fun _ => by simpa [start, sentNone] using halves 1 }
  · intro h; rw [running] at h; cases h

theorem witness_FrameCarriesTheData :
    BlockInv before ∧ NextTurn before (.beat 0) [] ∧ (∀ w : Half16, Turn.beat 0 ≠ .evt w) ∧ step before = .next after ∧
    before.dev? 0 = some sending ∧ after.dev? 0 = some (devAt after 0) ∧ sending.fsm = .transfer ∧
    (devAt after 0).underrun = false ∧ (∀ a : Nat, after.pix.read a = before.pix.read a) ∧
    FrameOk before sending (streamCodeword before sending) := by
  refine ⟨sending_inv _, by decide +kernel, fun w h => (by cases h), before_step, rfl, devAt_eq (by decide +kernel),
    by decide +kernel, by decide +kernel, fun a => ?_, before_frame⟩
  have : after.pix = before.pix := by decide +kernel
  rw [this]

end Sys2Proof.Tests
end

section
/-! PROOFS. The scope of the block (00_scope.md): when a step is refused, that devices are independent of each other, and what no
step takes back. The step of every agent but the host is one function on the agent's device (`runTurn_eq_onDevice`), from which its
frame and its independence of other devices follow; what no step takes back is said once of a device (`KeepsHistory`) and shown of
every move. -/

namespace Sys2Proof.Machine

open Sys2Proof Sys2Proof.Safety

/-! ### A change of one device -/

theorem othersSame_of_devs_eq {s t : State} {dev : Byte} (h : t.devs = s.devs) : OthersSame s t dev :=
  ⟨by rw [h], fun _ _ => by rw [h]⟩

theorem othersSame_of_devs_putDev {s t : State} {dev : Byte} {e : Device} (h : t.devs = (s.putDev dev e).devs) :
    OthersSame s t dev := by
  rw [OthersSame, h]
  exact ⟨List.length_set .., fun k hk => List.getElem?_set_ne (Ne.symm hk)⟩

theorem State.putDev_self {s : State} {dev : Byte} {d : Device} (h : s.dev? dev = some d) : s.putDev dev d = s := by
  obtain ⟨hlt, rfl⟩ := List.getElem?_eq_some_iff.1 h
  simp [State.putDev]

/-- Apply `f` to device `dev`, if there is one: the form of every agent's step but the host's. -/
def onDevice (dev : Byte) (f : Device → Except Fault Device) (s : State) : Host.Outcome State Fault Refusal :=
  match s.dev? dev with
  | none => .next s
  | some d =>
    match f d with
    | .ok e => .next (s.putDev dev e)
    | .error r => .fault r

section

variable {dev : Byte} {f g : Device → Except Fault Device} {s t : State}

theorem onDevice_of_none (h : s.dev? dev = none) : onDevice dev f s = .next s := by simp only [onDevice, h]

theorem onDevice_of_ok {d e : Device} (h : s.dev? dev = some d) (hf : f d = .ok e) :
    onDevice dev f s = .next (s.putDev dev e) := by simp only [onDevice, h, hf]

theorem onDevice_of_error {d : Device} {r : Fault} (h : s.dev? dev = some d) (hf : f d = .error r) :
    onDevice dev f s = .fault r := by simp only [onDevice, h, hf]

/-- Only what `f` does to the device itself matters. -/
theorem onDevice_congr (h : ∀ d, s.dev? dev = some d → f d = g d) : onDevice dev f s = onDevice dev g s := by
  unfold onDevice
  split
  · rfl
  · next d hd => rw [h d hd]

theorem onDevice_of_unchanged (h : ∀ d, s.dev? dev = some d → f d = .ok d) : onDevice dev f s = .next s := by
  cases hd : s.dev? dev with
  | none => exact onDevice_of_none hd
  | some d => rw [onDevice_of_ok hd (h d hd), State.putDev_self hd]

theorem onDevice_next (h : onDevice dev f s = .next t) :
    (s.dev? dev = none ∧ t = s) ∨ ∃ d e, s.dev? dev = some d ∧ f d = .ok e ∧ t = s.putDev dev e := by
  unfold onDevice at h
  split at h
  · next hd => cases h; exact .inl ⟨hd, rfl⟩
  · next d hd =>
    split at h
    · next e he => cases h; exact .inr ⟨d, e, hd, he, rfl⟩
    · cases h

theorem onDevice_ne_refused (r : Refusal) : onDevice dev f s ≠ .refused r := by
  unfold onDevice
  split
  · nofun
  · split <;> nofun

end

/-! ### An agent's step as a function on its device -/

/-- One service of a flag, on the device alone (R101 to R103). -/
def serviceFlag (s : State) (f : Flag) (d : Device) : Except Fault Device :=
  match f with
  | .ht => onData s .ht d
  | .tc => onData s .tc d
  | .te => .ok (onError s.inited d)

/-- Service the flag that is due, if one is. -/
def serviceDue (s : State) (due : Option Flag) (d : Device) : Except Fault Device :=
  match due with
  | some f => serviceFlag s f d
  | none => .ok d

/-- What a turn of the agent of device `dev` does to the device (R8): a beat (R91), an error raised (R96), or the service of the
flag that is due (R100). An agent that is not enabled does nothing. -/
def agentStep (s : State) (dev : Byte) (turn : Turn) (d : Device) : Except Fault Device :=
  match turn with
  | .host => .ok d
  | .beat _ => if d.dmaEn then beatDevice d else .ok d
  | .fault _ => .ok (if d.dmaEn then raiseError d else d)
  | .isr _ => serviceDue s (servicedFlag s dev.toNat d turn) d
  | .evt _ => serviceDue s (servicedFlag s dev.toNat d turn) d

theorem exec_flagInstr (dev : Byte) (f : Flag) (s : State) :
    exec (flagInstr dev f) s = onDevice dev (serviceFlag s f) s := by
  cases f <;> rfl

theorem beatTurn_eq_onDevice (dev : Byte) (s : State) : beatTurn dev s = onDevice dev (agentStep s dev (.beat dev)) s := by
  unfold beatTurn
  split
  · next hd => rw [onDevice_of_none hd]
  · next d hd =>
    split
    · next hen =>
      have hstep : agentStep s dev (.beat dev) d = beatDevice d := if_pos hen
      split
      · next e he => rw [onDevice_of_ok hd (hstep.trans he)]
      · next r hr => rw [onDevice_of_error hd (hstep.trans hr)]
    · next hen => rw [onDevice_of_ok hd (if_neg hen), State.putDev_self hd]

theorem faultTurn_eq_onDevice (dev : Byte) (s : State) :
    faultTurn dev s = onDevice dev (agentStep s dev (.fault dev)) s := by
  unfold faultTurn
  split
  · next hd => rw [onDevice_of_none hd]
  · next d hd =>
    have hstep : agentStep s dev (.fault dev) d = .ok (if d.dmaEn then raiseError d else d) := rfl
    rw [onDevice_of_ok hd hstep]
    split
    · rfl
    · rw [State.putDev_self hd]

theorem isrTurn_eq_onDevice (dev : Byte) (s : State) : isrTurn dev s = onDevice dev (agentStep s dev (.isr dev)) s := by
  unfold isrTurn
  split
  · next hd => rw [onDevice_of_none hd]
  · next d hd =>
    have hstep : agentStep s dev (.isr dev) d = serviceDue s (takeInterrupt s d) d := by simp [agentStep, servicedFlag]
    split
    · next f hf =>
      rw [exec_flagInstr]
      refine onDevice_congr fun d' hd' => ?_
      rw [hd] at hd'; cases hd'
      rw [hstep, hf]; rfl
    · next hf => rw [onDevice_of_ok hd (hstep.trans (by rw [hf]; rfl)), State.putDev_self hd]

/-- An `EVT` word services the flag it names (R55), and a reserved one none (R59). -/
theorem evtTurn_eq_onDevice (w : Half16) (s : State) :
    evtTurn w s = onDevice (wordDev w) (agentStep s (wordDev w) (.evt w)) s := by
  have named : ∀ f, (∀ d, servicedFlag s (wordDev w).toNat d (.evt w) = some f) →
      exec (flagInstr (wordDev w) f) s = onDevice (wordDev w) (agentStep s (wordDev w) (.evt w)) s := by
    intro f hf
    rw [exec_flagInstr]
    exact onDevice_congr fun d _ => by simp only [agentStep, hf, serviceDue]
  unfold evtTurn decodeEvt
  split_ifs with h1 h2 h3
  · exact named .ht fun d => by simp [servicedFlag, h1]
  · exact named .tc fun d => by simp [servicedFlag, h2]
  · exact named .te fun d => by simp [servicedFlag, h3]
  · exact (onDevice_of_unchanged fun d _ => by simp [agentStep, servicedFlag, h1, h2, h3, serviceDue]).symm

/-- Every turn but the host's is a step on the device of its agent. -/
theorem runTurn_eq_onDevice {turn : Turn} {dev : Byte} (h : turnDevice turn = some dev) (s : State) :
    runTurn turn s = onDevice dev (agentStep s dev turn) s := by
  cases turn <;> cases h
  case beat => exact beatTurn_eq_onDevice _ s
  case fault => exact faultTurn_eq_onDevice _ s
  case isr => exact isrTurn_eq_onDevice _ s
  case evt => exact evtTurn_eq_onDevice _ s

theorem step_eq_onDevice {s : State} {turn : Turn} {ts : List Turn} {dev : Byte} (hn : NextTurn s turn ts)
    (hd : turnDevice turn = some dev) :
    step s = onDevice dev (agentStep { s with sched := ts } dev turn) { s with sched := ts } := by
  rw [step_eq hn, runTurn_eq_onDevice hd]

/-- An agent reads the configuration, `inited` and the pixels, nothing else of the block. -/
theorem agentStep_congr {s₁ s₂ : State} (hc : s₁.config = s₂.config) (hi : s₁.inited = s₂.inited) (hp : s₁.pix = s₂.pix) :
    agentStep s₁ = agentStep s₂ := by
  funext dev turn d
  have hflag : servicedFlag s₁ dev.toNat d turn = servicedFlag s₂ dev.toNat d turn := by
    cases turn <;> simp only [servicedFlag, takeInterrupt, hi]
  have hservice : serviceFlag s₁ = serviceFlag s₂ := by
    funext f d
    cases f <;> simp only [serviceFlag, onData_congr hp hc, hi]
  cases turn <;> simp only [agentStep, serviceDue, hflag, hservice]

/-! ### No turn is refused -/

theorem runTurn_ne_refused (turn : Turn) (s : State) (r : Refusal) : runTurn turn s ≠ .refused r := by
  cases turn
  case host =>
    simp only [runTurn, hostTurn]
    split
    · nofun
    · nofun
    · exact exec_ne_refused _ _ r
  all_goals
    rw [runTurn_eq_onDevice rfl]
    exact onDevice_ne_refused r

theorem takeTurn_ne_refused (s : State) (r : Refusal) : takeTurn s ≠ .refused r := by
  unfold takeTurn
  split
  · nofun
  · exact runTurn_ne_refused _ _ r

/-! ### What no step takes back -/

/-- `e` comes after `d` in the history of one device: what never changes (R5, R19), what only grows (R23, R24), and the tick counts,
which are fixed once the block is initialised (R17). -/
structure KeepsHistory (inited : Bool) (d e : Device) : Prop where
  cfg : e.cfg = d.cfg
  latch : e.latch = d.latch
  trace : d.out <+: e.out
  underrun : d.underrun = true → e.underrun = true
  ticks : inited = true → e.hval = d.hval ∧ e.lval = d.lval

section

variable {inited : Bool} {s : State} {d e : Device}

theorem KeepsHistory.refl (d : Device) : KeepsHistory inited d d :=
  ⟨rfl, rfl, List.prefix_rfl, id, fun _ => ⟨rfl, rfl⟩⟩

theorem KeepsHistory.trans {a b c : Device} (h₁ : KeepsHistory inited a b) (h₂ : KeepsHistory inited b c) :
    KeepsHistory inited a c where
  cfg := h₂.cfg.trans h₁.cfg
  latch := h₂.latch.trans h₁.latch
  trace := h₁.trace.trans h₂.trace
  underrun := h₂.underrun ∘ h₁.underrun
  ticks hi := ⟨(h₂.ticks hi).1.trans (h₁.ticks hi).1, (h₂.ticks hi).2.trans (h₁.ticks hi).2⟩

/-- A refill writes codewords and `half`, nothing else (R16, R18). -/
theorem keepsHistory_refill (h : Half) (cw : Vector Half16 96) (d : Device) :
    KeepsHistory inited d (setHalf h (setCw cw d)) := by
  constructor <;> simp

theorem keepsHistory_forceReset (d : Device) : KeepsHistory inited d (forceReset d) := by constructor <;> simp

theorem keepsHistory_callback (c : Callback) (d : Device) : KeepsHistory inited d (callback c d) := by constructor <;> simp

theorem keepsHistory_startLatch (d : Device) : KeepsHistory inited d (startLatch d) := by constructor <;> simp

theorem keepsHistory_finish (d : Device) : KeepsHistory inited d (finish d) := by constructor <;> simp

theorem keepsHistory_clearError (d : Device) : KeepsHistory inited d (clearError d) := by constructor <;> simp

theorem keepsHistory_raiseError (d : Device) : KeepsHistory inited d (raiseError d) := by constructor <;> simp

theorem keepsHistory_deliver (v : Half16) (d : Device) : KeepsHistory inited d (deliver v d) := by constructor <;> simp

theorem keepsHistory_setReader (r : Half16) (d : Device) : KeepsHistory inited d (setReader r d) := by constructor <;> simp

/-- A data flag is cleared and a pair of LEDs counted: the beginning of every data event (R101, R102, R104). -/
theorem keepsHistory_countPair_clearData (f : DataFlag) (d : Device) : KeepsHistory inited d (countPair (clearData f d)) := by
  cases f <;> constructor <;> simp

/-- The underrun bit is only ever set (R23, R98). -/
theorem keepsHistory_raiseData (f : DataFlag) (d : Device) : KeepsHistory inited d (raiseData f d) := by
  cases f <;> constructor <;> simp +contextual

/-- INIT computes the tick counts anew, in a block that was not initialised (R70). -/
theorem keepsHistory_initDevice (d : Device) : KeepsHistory false d (initDevice d) := by constructor <;> simp

theorem keepsHistory_raiseAtMiddle (d : Device) : KeepsHistory inited d (raiseAtMiddle d) := by
  unfold raiseAtMiddle
  split
  · exact keepsHistory_raiseData .ht d
  · exact .refl d

theorem keepsHistory_wrapAtEnd (d : Device) : KeepsHistory inited d (wrapAtEnd d) := by
  unfold wrapAtEnd
  split
  · exact (keepsHistory_setReader 0 d).trans (keepsHistory_raiseData .tc _)
  · exact .refl d

theorem keepsHistory_advanceReader (d : Device) : KeepsHistory inited d (advanceReader d) :=
  ((keepsHistory_setReader _ d).trans (keepsHistory_raiseAtMiddle _)).trans (keepsHistory_wrapAtEnd _)

theorem keepsHistory_of_beatDevice (h : beatDevice d = .ok e) : KeepsHistory inited d e := by
  obtain ⟨v, -, rfl⟩ := beatDevice_ok h
  exact (keepsHistory_deliver v d).trans (keepsHistory_advanceReader _)

theorem keepsHistory_of_onData {f : DataFlag} (h : onData s f d = .ok e) : KeepsHistory inited d e := by
  have counted := keepsHistory_countPair_clearData (inited := inited) f d
  cases onData_cases h with
  | refill => exact counted.trans (keepsHistory_refill _ _ _)
  | startLatch => exact counted.trans (keepsHistory_startLatch _)
  | count => exact counted
  | finish => exact counted.trans (keepsHistory_finish _)

theorem keepsHistory_onError (b : Bool) (d : Device) : KeepsHistory inited d (onError b d) := by
  unfold onError
  split
  · exact ((keepsHistory_clearError d).trans (keepsHistory_callback .error _)).trans (keepsHistory_forceReset _)
  · exact keepsHistory_clearError d

theorem keepsHistory_of_startSet {base count : Word} (h : startSet s base count d = .ok e) : KeepsHistory inited d e := by
  obtain ⟨-, -, rfl⟩ := startSet_ok.1 h
  constructor <;> simp

theorem keepsHistory_of_turnMove {turn : Turn} {k : Nat} (h : TurnMove s turn k d e) : KeepsHistory inited d e := by
  cases h with
  | set _ _ _ _ hs => exact keepsHistory_of_startSet hs
  | reset => exact keepsHistory_forceReset d
  | data _ hd => exact keepsHistory_of_onData hd
  | error => exact keepsHistory_onError s.inited d
  | beat _ _ _ hb => exact keepsHistory_of_beatDevice hb
  | fault => exact keepsHistory_raiseError d

end

namespace StepEffect

variable {s t : State} {turn : Turn}

theorem keepsHistory (h : StepEffect s turn t) {k : Nat} {d e : Device} (hd : s.devs[k]? = some d)
    (he : t.devs[k]? = some e) : KeepsHistory s.inited d e := by
  obtain ⟨-, rfl⟩ | ⟨hi, -, -, rfl, -⟩ | ⟨-, -, -, hm⟩ := step_device h hd he
  · exact .refl e
  · exact hi ▸ keepsHistory_initDevice d
  · exact keepsHistory_of_turnMove hm

theorem exists_keepsHistory (h : StepEffect s turn t) {k : Nat} {d : Device} (hd : s.devs[k]? = some d) :
    ∃ e, t.devs[k]? = some e ∧ KeepsHistory s.inited d e := by
  obtain ⟨hlt, -⟩ := List.getElem?_eq_some_iff.1 hd
  have he := List.getElem?_eq_getElem (h.length.symm ▸ hlt : k < t.devs.length)
  exact ⟨_, he, h.keepsHistory hd he⟩

theorem config_eq (h : StepEffect s turn t) : t.config = s.config := by
  refine List.ext_getElem (by simp [State.config, h.length]) fun k ht hs => ?_
  simp only [State.config, List.length_map, List.getElem_map] at ht hs ⊢
  exact (h.keepsHistory (List.getElem?_eq_getElem hs) (List.getElem?_eq_getElem ht)).cfg

theorem inited_mono (h : StepEffect s turn t) (hi : s.inited = true) : t.inited = true := by
  cases h with
  | quiet _ _ same => exact same.trans hi
  | init _ _ _ now => exact now
  | store _ _ _ _ _ _ _ same => exact same.trans hi
  | device _ _ _ _ same => exact same.trans hi

end StepEffect

/-! ### The statements -/

/-- Settles O13: no turn is refused, so a step is refused exactly by the check of the configuration. -/
theorem illFormedRefused : Obligations.IllFormedRefused := by
  intro s
  constructor
  · rintro ⟨r, h⟩ hc
    rw [step, if_pos hc] at h
    exact takeTurn_ne_refused s r h
  · intro hc
    exact ⟨.illFormedConfig, if_neg hc⟩

/-- Settles O45: an agent's step is a step on its device. -/
theorem agentsTouchOneDevice : Obligations.AgentsTouchOneDevice := by
  intro s t turn ts dev hn hd h
  rw [step_eq_onDevice hn hd] at h
  obtain ⟨-, rfl⟩ | ⟨d, e, -, -, rfl⟩ := onDevice_next h
  · exact ⟨othersSame_of_devs_eq rfl, rfl⟩
  · exact ⟨othersSame_of_devs_putDev rfl, rfl⟩

/-- Settles O46, by the effects an operation can have. -/
theorem commandsTouchOneDevice : Obligations.CommandsTouchOneDevice := by
  intro s t i dev hi h
  cases exec_effect h with
  | result v => exact ⟨othersSame_of_devs_eq rfl, rfl⟩
  | nothing => exact ⟨othersSame_of_devs_eq rfl, rfl⟩
  | init hinit => subst hinit; cases hi
  | store => exact ⟨othersSame_of_devs_eq rfl, rfl⟩
  | device hdev =>
    cases hi.symm.trans hdev
    exact ⟨othersSame_of_devs_putDev rfl, rfl⟩

/-- Settles O47: both blocks apply the same function to the same device. -/
theorem devicesIndependent : Obligations.DevicesIndependent := by
  intro s₁ s₂ t₁ turn ts₁ ts₂ dev hn₁ hn₂ hd hc hi hp hdev h
  have same : agentStep { s₁ with sched := ts₁ } = agentStep { s₂ with sched := ts₂ } := agentStep_congr hc hi hp
  rw [step_eq_onDevice hn₁ hd, same] at h
  rw [step_eq_onDevice hn₂ hd]
  obtain ⟨hnone, rfl⟩ | ⟨d, e, hsome, hstep, rfl⟩ := onDevice_next h
  · exact ⟨_, onDevice_of_none (hdev.symm.trans hnone), hdev⟩
  · have hsome₂ : ({ s₂ with sched := ts₂ } : State).dev? dev = some d := hdev.symm.trans hsome
    refine ⟨_, onDevice_of_ok hsome₂ hstep, ?_⟩
    rw [State.putDev_dev?_same e hsome, State.putDev_dev?_same e hsome₂]

/-- Settles O49, by what a step's effect keeps of every device. -/
theorem stepKeepsHistory : Obligations.StepKeepsHistory := by
  intro s t h
  obtain ⟨-, ⟨-, rfl⟩ | ⟨turn, ts, -, -, effect⟩⟩ := step_effect h
  · exact ⟨rfl, id, fun k d hd => ⟨d, hd, rfl, List.prefix_rfl, id, fun _ => ⟨rfl, rfl⟩⟩⟩
  · refine ⟨effect.config_eq, effect.inited_mono, fun k d hd => ?_⟩
    obtain ⟨e, he, kept⟩ := effect.exists_keepsHistory hd
    exact ⟨e, he, kept.latch, kept.trace, kept.underrun, kept.ticks⟩

end Sys2Proof.Machine
end

section
/-! PROOFS. The state of the block (10_state.md): what holds at power-on, the callbacks, and that every step keeps the invariants
of R26. The invariants of one device are shown kept by each update a move is made of; `ForceReset` and `Finish` both begin by
bringing the device to rest (`halt`), and `SET` and `ForceReset` both end by arming the double buffer. -/

namespace Sys2Proof.Machine

open Sys2Proof Sys2Proof.Safety

/-! ### Codewords (R86) -/

theorem eq_zero_of_mem_zeroCodewords {n : Nat} {v : Half16} (h : v ∈ (zeroCodewords n).toList) : v = 0 := by
  simp only [zeroCodewords, Vector.toList_mk] at h
  exact List.eq_of_mem_replicate h

theorem isCodeword_of_mem_zeroCodewords (d : Device) {n : Nat} : ∀ v ∈ (zeroCodewords n).toList, isCodeword d v :=
  fun _ hv => .inl (eq_zero_of_mem_zeroCodewords hv)

/-- The encoder gives codewords of its device only. -/
theorem isCodeword_codewordOf (s : State) (d : Device) (first j : Nat) : isCodeword d (codewordOf s d first j) := by
  unfold codewordOf bitCodeword
  split_ifs
  · exact .inr (.inr rfl)
  · exact .inr (.inl rfl)
  · exact .inl rfl

theorem forall_mem_writeHalf {P : Half16 → Prop} {h : Half} {new : Nat → Half16} {cw : Vector Half16 96}
    (hnew : ∀ j, P (new j)) (hcw : ∀ v ∈ cw.toList, P v) : ∀ v ∈ (writeHalf h new cw).toList, P v := by
  intro v hv
  obtain ⟨i, hi⟩ := List.mem_iff_getElem?.1 hv
  rw [Vector.getElem?_toList, writeHalf_getElem?] at hi
  split at hi
  · cases hi; exact hnew _
  · exact hcw v (List.mem_of_getElem? (by rwa [Vector.getElem?_toList]))

/-! ### The trace (R26 item 8) -/

theorem frameOpen_append_singleton (out : List OutItem) (item : OutItem) :
    frameOpen (out ++ [item]) = traceStep (frameOpen out) item := by
  simp [frameOpen]

/-- A callback neither opens nor closes a frame. -/
theorem traceStep_cb (isOpen : Bool) (c : Callback) : traceStep (some isOpen) (.cb c) = some isOpen := by
  cases isOpen <;> rfl

/-! ### What the invariants say of a device -/

section

variable {inited : Bool} {s : State} {d e : Device}

/-- Stream and channel are on exactly while the device is in flight (R26 item 2). -/
theorem enables_eq_of_deviceInv (h : DeviceInv inited d) :
    d.dmaEn = decide (d.fsm ≠ .idle) ∧ d.chEn = decide (d.fsm ≠ .idle) := by
  by_cases hf : d.fsm = .idle
  · obtain ⟨hdma, hch, -⟩ := h.idle hf
    simp [hdma, hch, hf]
  · obtain ⟨hdma, hch, -⟩ := h.inFlight hf
    simp [hdma, hch, hf]

/-- No device is in flight before INIT (R26 item 1). -/
theorem inited_of_inFlight (h : DeviceInv inited d) (hf : d.fsm ≠ .idle) : inited = true :=
  eq_true_of_ne_false fun hi => hf (h.quiet hi).1

/-- A codeword fits in a bit period (R17). -/
theorem isCodeword_le_ticks (h : DeviceInv true d) {v : Half16} (hv : isCodeword d v) : v.toNat ≤ d.cfg.ticks := by
  obtain ⟨⟨-, hlt⟩, hle⟩ : d.symbols.WellFormed ∧ d.hval.toNat ≤ d.cfg.ticks := h.symbols
  simp only [Device.symbols] at hlt
  obtain rfl | rfl | rfl := hv
  · simp
  · omega
  · exact hle

/-- What the reader fetches is a codeword of its device (R86). -/
theorem isCodeword_fetchCodeword (h : DeviceInv inited d) {v : Half16} (hv : fetchCodeword d = some v) : isCodeword d v := by
  obtain ⟨-, hmem⟩ | ⟨-, hmem⟩ := fetchCodeword_mem hv
  · exact h.codewords v hmem
  · exact .inl (h.latchLow v hmem)

/-! ### The invariants of the codewords alone -/

/-- The invariants of one device that do not depend on where a frame stands: of its symbols and codewords (R17, R19, R26 item 5). -/
structure CodewordInv (inited : Bool) (d : Device) : Prop where
  codewords : ∀ v ∈ d.cw.toList, isCodeword d v
  compare : isCodeword d d.ccr ∧ d.ccr.toNat ≤ d.cfg.ticks
  symbols : if inited then d.symbols.WellFormed ∧ d.hval.toNat ≤ d.cfg.ticks else d.hval = 0 ∧ d.lval = 0
  latchLow : ∀ v ∈ d.latch.toList, v = 0

/-- What the invariants of the codewords are about. -/
def codewordFields (d : Device) : DevConfig × Half16 × Half16 × Vector Half16 96 × Vector Half16 48 × Half16 :=
  (d.cfg, d.hval, d.lval, d.cw, d.latch, d.ccr)

/-- An update that leaves the symbols, the buffers and the compare register alone keeps the invariants of the codewords. -/
theorem codewordInv_of_fields_eq (h : DeviceInv inited d) (same : codewordFields e = codewordFields d) :
    CodewordInv inited e := by
  simp only [codewordFields, Prod.mk.injEq] at same
  obtain ⟨hcfg, hhval, hlval, hcw, hlatch, hccr⟩ := same
  exact
    { codewords := by simpa only [isCodeword, hhval, hlval, hcw] using h.codewords
      compare := by simpa only [isCodeword, hhval, hlval, hccr, hcfg] using h.compare
      symbols := by simpa only [Device.symbols, hhval, hlval, hcfg] using h.symbols
      latchLow := by simpa only [hlatch] using h.latchLow }

/-! ### Updates that keep the invariants in every state -/

theorem deviceInv_callback (c : Callback) (h : DeviceInv inited d) : DeviceInv inited (callback c d) :=
  { h with trace := by rw [callback_out, frameOpen_append_singleton, h.trace, traceStep_cb]; rfl }

theorem deviceInv_clearFlags (h : DeviceInv inited d) : DeviceInv inited (clearFlags d) :=
  { h with quiet := fun hi => ⟨(h.quiet hi).1, rfl, rfl, rfl⟩ }

theorem deviceInv_clearError (h : DeviceInv inited d) : DeviceInv inited (clearError d) :=
  { h with quiet := fun hi => by obtain ⟨hf, hht, htc, -⟩ := h.quiet hi; exact ⟨hf, hht, htc, rfl⟩ }

/-- The beginning of every data event (R101, R102, R104). -/
theorem deviceInv_countPair_clearData (f : DataFlag) (h : DeviceInv inited d) :
    DeviceInv inited (countPair (clearData f d)) := by
  cases f with
  | ht => exact { h with quiet := fun hi => by obtain ⟨hf, -, htc, hte⟩ := h.quiet hi; exact ⟨hf, rfl, htc, hte⟩ }
  | tc => exact { h with quiet := fun hi => by obtain ⟨hf, hht, -, hte⟩ := h.quiet hi; exact ⟨hf, hht, rfl, hte⟩ }

theorem deviceInv_setHalf (x : Half) (h : DeviceInv inited d) : DeviceInv inited (setHalf x d) := { h with }

/-- The codeword buffer may take any codewords of the device, except during the reset sequence (R26 items 5 and 6). -/
theorem deviceInv_setCw {cw : Vector Half16 96} (h : DeviceInv inited d) (hf : d.fsm ≠ .reset)
    (hcw : ∀ v ∈ cw.toList, isCodeword d v) : DeviceInv inited (setCw cw d) :=
  { h with codewords := hcw, resetLow := fun hr => absurd hr hf }

theorem deviceInv_zeroCw (h : DeviceInv inited d) : DeviceInv inited (zeroCw d) :=
  { h with
    codewords := isCodeword_of_mem_zeroCodewords d
    resetLow := fun _ _ => eq_zero_of_mem_zeroCodewords }

/-! ### Updates of a device at rest -/

/-- A device at rest may be given any buffer within its LED count (R14). -/
theorem deviceInv_setBuffer {base count : Word} (h : DeviceInv inited d) (hf : d.fsm = .idle)
    (hc : count.toNat ≤ d.cfg.ledMax) : DeviceInv inited (setBuffer base count d) :=
  { h with length := ⟨hc, fun ht => absurd (hf.symm.trans ht) nofun⟩ }

theorem deviceInv_coverAllLeds (h : DeviceInv inited d) (hf : d.fsm = .idle) : DeviceInv inited (coverAllLeds d) :=
  { h with length := ⟨(BitVec.toNat_ofNat ..).trans_le (Nat.mod_le ..), fun ht => absurd (hf.symm.trans ht) nofun⟩ }

/-- A device at rest begins a frame: the last step of `SET` and of `ForceReset` (R75). -/
theorem deviceInv_armCw {f : Fsm} (h : DeviceInv true d) (hf : d.fsm = .idle) (hto : f = .transfer ∨ f = .reset)
    (hlen : f = .transfer → 1 ≤ d.total.toNat) (hlow : f = .reset → ∀ v ∈ d.cw.toList, v = 0) :
    DeviceInv true (setFsm f (armCw d)) := by
  have hne : f ≠ .idle := by rintro rfl; simp at hto
  have hnl : f ≠ .latch := by rintro rfl; simp at hto
  exact
    { codewordInv_of_fields_eq h (e := setFsm f (armCw d)) (by simp [codewordFields]) with
      quiet := nofun
      idle := fun hi => absurd hi hne
      inFlight := fun _ => ⟨rfl, rfl, rfl, rfl, rfl⟩
      codewordBuffer := fun _ => ⟨rfl, rfl⟩
      latchBuffer := fun hl => absurd hl hnl
      reader := by simp
      resetLow := by simpa using hlow
      length := by simpa using And.intro h.length.1 hlen
      trace := by simp [frameOpen_append_singleton, h.trace, hf, hne, traceStep] }

/-- INIT leaves every device at rest, with usable tick counts (R70). -/
theorem deviceInv_initDevice (h : DeviceInv false d) (hu : tickCountsUsable d.cfg = true) :
    DeviceInv true (initDevice d) where
  quiet := nofun
  idle _ := ⟨rfl, rfl, rfl, rfl, rfl⟩
  inFlight hf := absurd rfl hf
  codewordBuffer hf := by simp at hf
  latchBuffer := nofun
  reader := by simp
  codewords := isCodeword_of_mem_zeroCodewords _
  compare := ⟨.inl rfl, by simp⟩
  resetLow := nofun
  length := ⟨by simp, nofun⟩
  trace := by simpa [(h.quiet rfl).1] using h.trace
  symbols := by
    simp only [tickCountsUsable, Bool.and_eq_true, decide_eq_true_eq] at hu
    obtain ⟨⟨hpos, hlt⟩, hle⟩ := hu
    exact ⟨⟨hpos, hlt⟩, hle⟩
  latchLow := h.latchLow

/-! ### Bringing a device to rest -/

/-- The common beginning of `Finish` (R110) and `ForceReset` (R111): a frame in flight is broken off, and the device rests. -/
def halt (d : Device) : Device := setFsm .idle (setEnables false (abort d))

theorem deviceInv_halt (h : DeviceInv inited d) : DeviceInv inited (halt d) := by
  obtain ⟨hdma, hch⟩ := enables_eq_of_deviceInv h
  have hout : frameOpen (halt d).out = some false := by
    by_cases hf : d.fsm = .idle <;> simp [halt, hdma, hch, hf, frameOpen_append_singleton, h.trace, traceStep]
  exact
    { codewordInv_of_fields_eq h (e := halt d) (by simp [codewordFields, halt]) with
      quiet := fun hi => by simpa [halt] using (h.quiet hi).2
      idle := fun _ => by simp [halt, enablesAre]
      inFlight := fun hf => absurd rfl hf
      codewordBuffer := fun hf => by simp [halt] at hf
      latchBuffer := nofun
      reader := by simpa [halt] using h.reader
      resetLow := nofun
      length := ⟨by simpa [halt] using h.length.1, nofun⟩
      trace := hout }

/-- `ForceReset` brings the device to rest and arms it anew. -/
theorem forceReset_eq_armCw_halt (d : Device) :
    forceReset d = setFsm .reset (armCw (coverAllLeds (zeroCw (halt d)))) := by
  apply Device.ext_fields <;> simp [halt]

theorem deviceInv_forceReset (h : DeviceInv true d) : DeviceInv true (forceReset d) := by
  rw [forceReset_eq_armCw_halt]
  exact deviceInv_armCw (deviceInv_coverAllLeds (deviceInv_zeroCw (deviceInv_halt h)) rfl) rfl (.inr rfl) nofun
    fun _ _ => eq_zero_of_mem_zeroCodewords

/-- `Finish` of a device in flight brings it to rest and calls back. -/
theorem finish_eq_callback_halt (hch : d.chEn = true) : finish d = callback .complete (clearFlags (halt d)) := by
  apply Device.ext_fields <;> simp [halt, hch]

theorem deviceInv_finish (h : DeviceInv inited d) (hf : d.fsm ≠ .idle) : DeviceInv inited (finish d) := by
  obtain ⟨-, hch, -⟩ := h.inFlight hf
  rw [finish_eq_callback_halt hch]
  exact deviceInv_callback _ (deviceInv_clearFlags (deviceInv_halt h))

/-! ### Updates of a device in flight -/

/-- `StartLatch` keeps the channel and the enables, which are on (R109). -/
theorem deviceInv_startLatch (h : DeviceInv inited d) (hf : d.fsm ≠ .idle) : DeviceInv inited (startLatch d) := by
  have hi := inited_of_inFlight h hf
  obtain ⟨-, hch, hht, htc, hte⟩ := h.inFlight hf
  exact
    { codewordInv_of_fields_eq h (e := startLatch d) (by simp [codewordFields]) with
      quiet := fun hn => absurd (hi.symm.trans hn) nofun
      idle := nofun
      inFlight := fun _ => by simp [enablesAre, hch, hht, htc, hte]
      codewordBuffer := fun hb => by simp at hb
      latchBuffer := fun _ => ⟨rfl, rfl⟩
      reader := by simp
      resetLow := nofun
      length := ⟨by simpa using h.length.1, nofun⟩
      trace := by simp [h.trace, hf] }

theorem deviceInv_raiseError (h : DeviceInv inited d) (hf : d.fsm ≠ .idle) : DeviceInv inited (raiseError d) :=
  { h with quiet := fun hn => absurd (h.quiet hn).1 hf }

/-- A codeword reaches the compare register, and the open frame gains it (R91). -/
theorem deviceInv_deliver {v : Half16} (h : DeviceInv inited d) (hf : d.fsm ≠ .idle) (hv : isCodeword d v) :
    DeviceInv inited (deliver v d) := by
  obtain ⟨-, hch, -⟩ := h.inFlight hf
  have hle := isCodeword_le_ticks (inited_of_inFlight h hf ▸ h) hv
  rw [deliver, if_pos hch]
  exact
    { h with
      compare := ⟨hv, hle⟩
      trace := by simp [frameOpen_append_singleton, h.trace, hf, traceStep] }

/-- The reader moves on inside its buffer (R91, R97). -/
theorem deviceInv_advanceReader (h : DeviceInv inited d) (hf : d.fsm ≠ .idle) : DeviceInv inited (advanceReader d) := by
  have hlt := h.reader
  have hnext : (d.dmaRd + 1).toNat = d.dmaRd.toNat + 1 := by
    rw [BitVec.toNat_add]
    exact Nat.mod_eq_of_lt (by simp; omega)
  have hreader : (if d.dmaRd + 1 = d.dmaLen then 0 else d.dmaRd + 1).toNat < d.dmaLen.toNat := by
    split
    · next heq => simp; omega
    · next hne => have := BitVec.toNat_ne.1 hne; omega
  rw [advanceReader_eq fun h0 => by rw [h0] at hnext; cases hnext]
  exact
    { h with
      quiet := fun hn => absurd (h.quiet hn).1 hf
      reader := hreader }

/-! ### The moves of a turn -/

theorem deviceInv_of_beatDevice (h : DeviceInv inited d) (hen : d.dmaEn = true) (hb : beatDevice d = .ok e) :
    DeviceInv inited e := by
  have hf : d.fsm ≠ .idle := by simpa [hen] using (enables_eq_of_deviceInv h).1
  obtain ⟨v, hv, rfl⟩ := beatDevice_ok hb
  exact deviceInv_advanceReader (deviceInv_deliver h hf (isCodeword_fetchCodeword h hv)) (by simpa using hf)

theorem deviceInv_of_onData {f : DataFlag} (h : DeviceInv inited d) (ho : onData s f d = .ok e) : DeviceInv inited e := by
  have hfsm : (countPair (clearData f d)).fsm = d.fsm := by cases f <;> rfl
  have counted := deviceInv_countPair_clearData f h
  cases onData_cases ho with
  | refill hf =>
    refine deviceInv_setHalf _ (deviceInv_setCw counted (by rw [hfsm, hf]; nofun) ?_)
    have hcw := forall_mem_writeHalf (h := vacatedHalf f) (isCodeword_codewordOf s d ((d.sent + 2).toNat + 2)) h.codewords
    cases f <;> exact hcw
  | startLatch hf => exact deviceInv_startLatch counted (by rw [hfsm]; intro hi; simp [hi] at hf)
  | count => exact counted
  | finish hf => exact deviceInv_finish counted (by rw [hfsm, hf]; nofun)

theorem deviceInv_onError (h : DeviceInv inited d) : DeviceInv inited (onError inited d) := by
  have cleared := deviceInv_clearError h
  cases inited with
  | false => exact cleared
  | true => exact deviceInv_forceReset (deviceInv_callback .error cleared)

theorem deviceInv_of_startSet {base count : Word} (h : DeviceInv true d) (hf : d.fsm = .idle) (hpos : count ≠ 0)
    (hmax : count.toNat ≤ d.cfg.ledMax) (hs : startSet s base count d = .ok e) : DeviceInv true e := by
  obtain ⟨-, -, rfl⟩ := startSet_ok.1 hs
  have hcount : 1 ≤ count.toNat := Nat.pos_of_ne_zero fun h0 => hpos (BitVec.eq_of_toNat_eq h0)
  have encoded := isCodeword_codewordOf s (setBuffer base count d)
  have held := deviceInv_setCw (deviceInv_setBuffer (base := base) h hf hmax) (by simp [hf])
    (forall_mem_writeHalf (h := .h1) (encoded 2)
      (forall_mem_writeHalf (h := .h0) (encoded 0) (isCodeword_of_mem_zeroCodewords _)))
  exact deviceInv_armCw (deviceInv_setHalf .h1 held) hf (.inl rfl) (fun _ => hcount) nofun

theorem deviceInv_of_turnMove {turn : Turn} {k : Nat} (hm : TurnMove s turn k d e) (h : DeviceInv s.inited d) :
    DeviceInv s.inited e := by
  cases hm with
  | set _ _ _ hallowed hs =>
    obtain ⟨⟨-, hi⟩, hf, -, hpos, hmax⟩ := hallowed
    rw [hi] at h ⊢
    exact deviceInv_of_startSet h hf hpos hmax hs
  | reset _ _ _ hi =>
    rw [hi] at h ⊢
    exact deviceInv_forceReset h
  | data _ ho => exact deviceInv_of_onData h ho
  | error => exact deviceInv_onError h
  | beat _ _ hen hb => exact deviceInv_of_beatDevice h hen hb
  | fault _ _ hen => exact deviceInv_raiseError h (by simpa [hen] using (enables_eq_of_deviceInv h).1)

/-! ### The block -/

theorem StepEffect.keepsBlockInv {t : State} {turn : Turn} (effect : StepEffect s turn t) (h : BlockInv s) : BlockInv t := by
  intro e he
  obtain ⟨k, hk, rfl⟩ := List.mem_iff_getElem.1 he
  have hd := List.getElem?_eq_getElem (effect.length ▸ hk : k < s.devs.length)
  have inv := h _ (List.mem_of_getElem? hd)
  obtain ⟨hi, heq⟩ | ⟨hi, hi', hu, heq, -⟩ | ⟨hi, -, -, hm⟩ := step_device effect hd (List.getElem?_eq_getElem hk)
  · rw [hi, heq]; exact inv
  · rw [hi', heq]; exact deviceInv_initDevice (hi ▸ inv) hu
  · rw [hi]; exact deviceInv_of_turnMove hm inv

theorem deviceInv_powerOn (c : DevConfig) : DeviceInv false (Device.powerOn c) where
  quiet _ := ⟨rfl, rfl, rfl, rfl⟩
  idle _ := ⟨rfl, rfl, rfl, rfl, rfl⟩
  inFlight hf := absurd rfl hf
  codewordBuffer hf := by rcases hf with hf | hf <;> cases hf
  latchBuffer := nofun
  reader := by simp [Device.powerOn]
  codewords := isCodeword_of_mem_zeroCodewords _
  compare := ⟨.inl rfl, Nat.zero_le _⟩
  resetLow := nofun
  length := ⟨Nat.zero_le _, nofun⟩
  trace := rfl
  symbols := ⟨rfl, rfl⟩
  latchLow _ := eq_zero_of_mem_zeroCodewords

end

theorem blockInv_powerOn (c : Config) : BlockInv (State.powerOn c) :=
  List.forall_mem_map.2 fun x _ => deviceInv_powerOn x

/-- No device is in `Transfer` at power-on. -/
theorem doubleBuffer_powerOn (c : DevConfig) : DoubleBuffer (Device.powerOn c) := nofun

/-- At power-on no pixel byte has been written and the block is not initialised. -/
theorem memoryInv_powerOn (c : Config) : MemoryInv (State.powerOn c) := ⟨⟨.nil, nofun⟩, nofun⟩

/-! ### The statements -/

/-- Settles O41: each kind of move keeps the invariants of its device, and `step_device` says that there are no others. -/
theorem stepKeepsInvariants : Obligations.StepKeepsInvariants := by
  intro s t h hstep
  obtain ⟨-, ⟨-, rfl⟩ | ⟨turn, ts, -, -, effect⟩⟩ := step_effect hstep
  · exact h
  · exact effect.keepsBlockInv h

/-- Settles O38: both callbacks are `callback`, which emits one item. -/
theorem callbacksAppendOneItem : Obligations.CallbacksAppendOneItem := by
  intro s dev d hd
  have houtput : ∀ c, output dev (callback c) s = s.putDev dev { d with out := d.out ++ [.cb c] } := by
    intro c
    simp only [output, hd, callback, emit]
  exact ⟨congrArg _ (houtput .complete), congrArg _ (houtput .error)⟩

/-- Settles O40, device by device. -/
theorem powerOnInvariants : Obligations.PowerOnInvariants := fun c =>
  ⟨blockInv_powerOn c, List.forall_mem_map.2 fun x _ => doubleBuffer_powerOn x, memoryInv_powerOn c⟩

end Sys2Proof.Machine
end

section
/-! PROOFS. The pixel memory (20_memory.md): every step keeps its canonical form and leaves no allocated byte unwritten, commands write
pixel bytes only in the buffer of the device they name, and a pixel byte is read only where it is allocated (R42). A device's own
buffer is allocated in a well-formed configuration (`ledsAllocated_ownBuffer`), which is why own buffers never fault. -/

namespace Sys2Proof.Machine

open Sys2Proof Sys2Proof.Safety

/-! ### Buffers and the address space (R6, R25) -/

theorem DevConfig.owns_iff {c : DevConfig} {a : Nat} :
    DevConfig.owns c a = true ↔ c.pixBase ≤ a ∧ a < c.pixBase + 3 * c.ledMax := by
  simp [DevConfig.owns]

theorem State.mem_devs_of_dev? {s : State} {dev : Byte} {d : Device} (h : s.dev? dev = some d) : d ∈ s.devs :=
  List.mem_of_getElem? h

/-- In a well-formed configuration every buffer ends inside the address space (R5). -/
theorem buffer_le_pixSize {s : State} {d : Device} (hc : s.config.WellFormed) (hd : d ∈ s.devs) :
    d.cfg.pixBase + 3 * d.cfg.ledMax ≤ pixSize := by
  obtain ⟨-, hbounds, -⟩ := hc
  obtain ⟨-, -, -, hend⟩ := hbounds d.cfg (List.mem_map_of_mem hd)
  exact hend

theorem allocated_of_owns {s : State} {d : Device} {a : Nat} (hc : s.config.WellFormed) (hd : d ∈ s.devs)
    (ha : DevConfig.owns d.cfg a = true) : s.allocated a = true := by
  have hlt : a < pixSize := (DevConfig.owns_iff.1 ha).2.trans_le (buffer_le_pixSize hc hd)
  simpa [State.allocated, hlt] using ⟨d, hd, ha⟩

/-! ### What the encoder reads (R42, R82) -/

/-- The three bytes of an LED, in storage order instead of the order they are sent in (R37). -/
theorem ledReadable_iff {s : State} {d : Device} {led : Nat} :
    ledReadable s d led = true ↔ ∀ off, off < 3 → s.allocated (d.pixBase.toNat + 3 * led + off) = true := by
  simp only [ledReadable, sentAddr, channelOffset, Bool.and_eq_true]
  constructor
  · rintro ⟨⟨green, red⟩, blue⟩ off hoff
    interval_cases off
    · exact red
    · exact green
    · exact blue
  · intro h
    exact ⟨⟨h 1 (by omega), h 0 (by omega)⟩, h 2 (by omega)⟩

theorem halfReadable_iff {s : State} {d : Device} {first : Nat} :
    halfReadable s d first = true ↔ LedsAllocated s d.pixBase.toNat d.total.toNat first := by
  simp only [halfReadable, Bool.and_eq_true, Bool.or_eq_true, decide_eq_true_eq, ledReadable_iff]
  constructor
  · rintro ⟨h0, h1⟩ led (rfl | rfl) hlt
    · exact h0.resolve_left (by omega)
    · exact h1.resolve_left (by omega)
  · intro h
    exact ⟨or_iff_not_imp_left.2 fun hlt => h first (.inl rfl) (by omega),
      or_iff_not_imp_left.2 fun hlt => h (first + 1) (.inr rfl) (by omega)⟩

/-- Every LED of a device's own buffer is allocated. -/
theorem ledsAllocated_ownBuffer {s : State} {d : Device} {total : Nat} (hc : s.config.WellFormed) (hd : d ∈ s.devs)
    (ht : total ≤ d.cfg.ledMax) (first : Nat) : LedsAllocated s d.cfg.pixBase total first :=
  fun _ _ _ _ _ => allocated_of_owns hc hd (DevConfig.owns_iff.2 ⟨by omega, by omega⟩)

/-! ### What is written (R34, R70, R123) -/

/-- The pixel writers leave every byte outside the device's buffer alone. -/
theorem storePixels_read_of_not_owns {c : DevConfig} {first n a : Nat} (r g b : Word) (m : Memory)
    (hn : first + n ≤ c.ledMax) (ha : ¬ DevConfig.owns c a = true) :
    (storePixels c r g b first n m).read a = m.read a := by
  rw [DevConfig.owns_iff] at ha
  rw [storePixels_read, if_neg (by omega)]

/-- The pixel writers take no byte's value away. -/
theorem storePixels_read_isSome {c : DevConfig} {first n a : Nat} (r g b : Word) {m : Memory}
    (h : (m.read a).isSome = true) : ((storePixels c r g b first n m).read a).isSome = true := by
  rw [storePixels_read]
  split_ifs
  · rfl
  · rfl
  · rfl
  · exact h

/-! ### The invariant of the memory -/

/-- The invariant of the memory looks at the pixels, `inited` and the configuration. -/
theorem memoryInv_iff {s : State} :
    MemoryInv s ↔ Memory.wf s.pix ∧
      (s.inited = true → ∀ c ∈ s.config, ∀ a, DevConfig.owns c a = true → (s.pix.read a).isSome = true) := by
  simp only [MemoryInv, State.config, List.forall_mem_map]

theorem memoryInv_of_unchanged {s t : State} (h : MemoryInv s) (hc : t.config = s.config) (hp : t.pix = s.pix)
    (hi : t.inited = s.inited) : MemoryInv t := by
  rw [memoryInv_iff] at h ⊢
  rwa [hp, hi, hc]

theorem StepEffect.keepsMemoryInv {s t : State} {turn : Turn} (effect : StepEffect s turn t) (hc : s.config.WellFormed)
    (h : MemoryInv s) : MemoryInv t := by
  have sameConfig := effect.config_eq
  obtain ⟨canonical, written⟩ := h
  cases effect with
  | quiet _ hp hi => exact memoryInv_of_unchanged ⟨canonical, written⟩ sameConfig hp hi
  | device _ _ _ hp hi => exact memoryInv_of_unchanged ⟨canonical, written⟩ sameConfig hp hi
  | init _ _ _ _ _ _ hp =>
    rw [memoryInv_iff, sameConfig, hp]
    refine ⟨zeroBuffers_wf canonical fun d hd => buffer_le_pixSize hc hd, fun _ => List.forall_mem_map.2 fun d hd a ha => ?_⟩
    rw [zeroBuffers_read, if_pos (List.any_eq_true.2 ⟨d, hd, ha⟩)]
    rfl
  | store _ _ _ hdev _ hn hd hi hp =>
    have hend := buffer_le_pixSize hc (State.mem_devs_of_dev? hdev)
    rw [MemoryInv, hp, hd, hi]
    exact ⟨storePixels_wf _ _ _ _ _ canonical (by omega),
      fun hin d hmem a ha => storePixels_read_isSome _ _ _ (written hin d hmem a ha)⟩

/-! ### Which steps can fault -/

theorem exec_set_of_startSet_error {s : State} {dev : Byte} {d : Device} {base count : Word} {r : Fault}
    (ha : SetAllowed s dev d base count) (h : startSet s base count d = .error r) :
    exec (.set dev base count) s = .fault r := by
  simp only [exec, execSet, checkSet_ok.2 ha, h]

theorem exec_set_of_startSet_ok {s : State} {dev : Byte} {d e : Device} {base count : Word}
    (ha : SetAllowed s dev d base count) (h : startSet s base count d = .ok e) :
    exec (.set dev base count) s = .next ((s.putDev dev e).withRes 1) := by
  simp only [exec, execSet, checkSet_ok.2 ha, h]

/-- Only `SET` and the data events can fault: only they encode pixels. -/
theorem exec_fault {i : Instr} {s : State} {r : Fault} (h : exec i s = .fault r) :
    (∃ dev base count, i = .set dev base count) ∨ ∃ f dev, i = dataEvent f dev := by
  cases i with
  | set dev base count => exact .inl ⟨dev, base, count, rfl⟩
  | ht dev => exact .inr ⟨.ht, dev, rfl⟩
  | tc dev => exact .inr ⟨.tc, dev, rfl⟩
  | init => simp only [exec, execInit] at h; split_ifs at h
  | reset => simp only [exec, execReset] at h; split at h <;> cases h
  | getLedCount => simp only [exec, execGetLedCount] at h; split at h <;> cases h
  | setColor =>
    simp only [exec, execSetColor] at h
    split at h
    · cases h
    · split_ifs at h
  | fillColor => simp only [exec, execFillColor] at h; split at h <;> cases h
  | fillSeg =>
    simp only [exec, execFillSeg] at h
    split at h
    · cases h
    · split_ifs at h
  | te => simp only [exec, execTe] at h; split at h <;> cases h
  | cbComplete => cases h
  | cbError => cases h
  | cwOne => cases h
  | cwZero => cases h
  | cwFill => cases h

theorem hostTurn_fault {s : State} {r : Fault} (h : hostTurn s = .fault r) :
    ∃ dev base count rest, decodePacket s.port = .command (.set dev base count) rest := by
  simp only [hostTurn] at h
  split at h
  · cases h
  · cases h
  · next i rest hp =>
    obtain ⟨dev, base, count, rfl⟩ | ⟨f, dev, rfl⟩ := exec_fault h
    · exact ⟨dev, base, count, rest, hp⟩
    · cases f <;> simpa [dataEvent] using decodePacket_command hp

theorem onDevice_fault {dev : Byte} {f : Device → Except Fault Device} {s : State} {r : Fault}
    (h : onDevice dev f s = .fault r) : ∃ d, s.dev? dev = some d ∧ f d = .error r := by
  unfold onDevice at h
  split at h
  · cases h
  · next d hd =>
    split at h
    · cases h
    · next q hq => cases h; exact ⟨d, hd, hq⟩

/-- The reader of a device in flight stands inside the buffer in use (R26 items 3 and 4). -/
theorem beatDevice_ne_error {inited : Bool} {d : Device} (inv : DeviceInv inited d) (hen : d.dmaEn = true) (r : Fault) :
    beatDevice d ≠ .error r := by
  have hf : d.fsm ≠ .idle := by simpa [hen] using (enables_eq_of_deviceInv inv).1
  have buffer : (d.dmaSrc = .cwbuf ∧ d.dmaLen = 96) ∨ (d.dmaSrc = .latchbuf ∧ d.dmaLen = 48) := by
    cases hstate : d.fsm with
    | idle => exact absurd hstate hf
    | transfer => exact .inl (inv.codewordBuffer (.inl hstate))
    | reset => exact .inl (inv.codewordBuffer (.inr hstate))
    | latch => exact .inr (inv.latchBuffer hstate)
  have fetched : (fetchCodeword d).isSome = true := by
    have inside := inv.reader
    obtain ⟨hsrc, hlen⟩ | ⟨hsrc, hlen⟩ := buffer <;>
      · rw [hlen] at inside
        simpa [fetchCodeword, hsrc] using inside
  obtain ⟨v, hv⟩ := Option.isSome_iff_exists.1 fetched
  simp only [beatDevice, hv]
  nofun

section

variable {s : State} {inited : Bool} {d : Device}

variable (hc : s.config.WellFormed) (hd : d ∈ s.devs) (inv : DeviceInv inited d)
  (own : d.fsm = .transfer → d.pixBase.toNat = d.cfg.pixBase)

include hc hd inv own

/-- A refill from the device's own buffer does not fault (R42). -/
theorem onData_ne_error (f : DataFlag) (r : Fault) : onData s f d ≠ .error r := by
  intro h
  obtain ⟨hf, -, -, unreadable⟩ := onData_error h
  have readable := halfReadable_iff.2 (own hf ▸ ledsAllocated_ownBuffer hc hd inv.length.1 ((d.sent + 2).toNat + 2))
  rw [readable] at unreadable
  cases unreadable

theorem serviceDue_ne_error (due : Option Flag) (r : Fault) : serviceDue s due d ≠ .error r := by
  match due with
  | none => nofun
  | some .ht => exact onData_ne_error hc hd inv own .ht r
  | some .tc => exact onData_ne_error hc hd inv own .tc r
  | some .te => nofun

/-- No agent other than the host faults on a device that reads its own buffer. -/
theorem agentStep_ne_error (dev : Byte) (turn : Turn) (r : Fault) : agentStep s dev turn d ≠ .error r := by
  cases turn with
  | host => nofun
  | beat =>
    simp only [agentStep]
    split
    · next hen => exact beatDevice_ne_error inv hen r
    · nofun
  | fault => nofun
  | isr => exact serviceDue_ne_error hc hd inv own _ r
  | evt => exact serviceDue_ne_error hc hd inv own _ r

end

theorem eq_host_of_turnDevice_eq_none {turn : Turn} (h : turnDevice turn = none) : turn = .host := by
  cases turn with
  | host => rfl
  | _ => cases h

/-! ### The statements -/

/-- Settles O42, by the effects a step can have: only INIT and the pixel writers touch the memory. -/
theorem stepKeepsMemory : Obligations.StepKeepsMemory := by
  intro s t h hstep
  obtain ⟨hc, ⟨-, rfl⟩ | ⟨turn, ts, -, -, effect⟩⟩ := step_effect hstep
  · exact h
  · exact effect.keepsMemoryInv hc h

/-- Settles O19: both halves of the initial encode read allocated bytes only. -/
theorem setOwnBufferCompletes : Obligations.SetOwnBufferCompletes := by
  intro s dev d base count hc ha hbase
  have ⟨⟨hdev, _⟩, _, _, _, hcount⟩ := ha
  have readable : ∀ first, halfReadable s (setBuffer base count d) first = true := fun first =>
    halfReadable_iff.2 (hbase ▸ ledsAllocated_ownBuffer hc (State.mem_devs_of_dev? hdev) hcount first)
  exact ⟨_, _, exec_set_of_startSet_ok ha (startSet_ok.2 ⟨readable 0, readable 2, rfl⟩), rfl,
    State.putDev_dev?_same _ hdev, by simp, by simp⟩

/-- Settles O20: LEDs 0 and 1 are read by the encode of half 0, LEDs 2 and 3 by that of half 1. -/
theorem setForeignBufferFaults : Obligations.SetForeignBufferFaults := by
  intro s dev d base count led off ha hled hcount hoff hunalloc
  have unreadable : ∀ first, led = first ∨ led = first + 1 → halfReadable s (setBuffer base count d) first = false := by
    intro first hfirst
    rw [Bool.eq_false_iff, ne_eq, halfReadable_iff]
    intro h
    exact absurd ((h led hfirst hcount off hoff).symm.trans hunalloc) nofun
  refine exec_set_of_startSet_error ha (startSet_error.2 ⟨?_, rfl⟩)
  obtain hlow | hhigh : led < 2 ∨ 2 ≤ led := by omega
  · exact .inl (unreadable 0 (by omega))
  · exact .inr (unreadable 2 (by omega))

/-- Settles O48, by the effects an operation can have. -/
theorem pixelWritesStayInBuffer : Obligations.PixelWritesStayInBuffer := by
  constructor
  · intro s t i dev a hi h hne
    cases exec_effect h with
    | result => exact absurd rfl hne
    | nothing => exact absurd rfl hne
    | device => exact absurd rfl hne
    | init hinit => subst hinit; cases hi
    | @store _ d _ _ _ _ _ hdev hd _ hn =>
      cases hi.symm.trans hdev
      exact ⟨d, hd, by_contra fun ha => hne (storePixels_read_of_not_owns _ _ _ _ hn ha)⟩
  · intro s t a h hne
    cases exec_effect h with
    | result => exact absurd rfl hne
    | nothing => exact absurd rfl hne
    | device hi => cases hi
    | store hi => cases hi
    | init =>
      by_contra hnone
      refine hne ((zeroBuffers_read a s.devs s.pix).trans (if_neg fun hany => hnone ?_))
      exact List.any_eq_true.1 hany

/-- Settles O53: the host faults only in a `SET`, and no other agent does. -/
theorem ownBuffersNeverFault : Obligations.OwnBuffersNeverFault := by
  intro s turn ts r inv own hn h
  cases hturn : turnDevice turn with
  | none =>
    obtain rfl := eq_host_of_turnDevice_eq_none hturn
    rw [step_eq hn] at h
    exact ⟨rfl, hostTurn_fault (s := { s with sched := ts }) h⟩
  | some dev =>
    rw [step_eq_onDevice hn hturn] at h
    obtain ⟨d, hd, herror⟩ := onDevice_fault h
    have hmem := State.mem_devs_of_dev? hd
    exact absurd herror (agentStep_ne_error hn.1 hmem (inv d hmem) (own d hmem) dev turn r)

end Sys2Proof.Machine
end

section
/-! PROOFS. The word formats (30_encoding.md). The fields of a header and of a 16-bit word determine the word; what the decoders give
is said once per format, and so is what they accept. A host turn and an `EVT` turn are then read off the decoder's answer, and so is
a beat, whose codeword is one of the device's three. -/

namespace Sys2Proof.Machine

open Sys2Proof Sys2Proof.Safety
open Sys2Proof.Laws.Format (headerOp_header headerZero_header wordCode_devWord)

/-! ### The fields of a word (R51, R55, R56) -/

@[simp] theorem headerDev_header (op dev : Byte) : headerDev (header op dev) = dev := by
  apply BitVec.eq_of_getElem_eq
  intro k hk
  simp only [headerDev, header, BitVec.getElem_extractLsb', BitVec.getLsbD_append]
  rw [if_neg (by omega), if_pos (by omega), Nat.add_sub_cancel_left, BitVec.getLsbD_eq_getElem hk]

@[simp] theorem wordDev_devWord (dev code : Byte) : wordDev (devWord dev code) = dev := by
  apply BitVec.eq_of_getElem_eq
  intro k hk
  simp only [wordDev, devWord, BitVec.getElem_extractLsb', BitVec.getLsbD_append]
  rw [if_neg (by omega), Nat.add_sub_cancel_left, BitVec.getLsbD_eq_getElem hk]

/-- The three fields of a header cover all its bits. -/
theorem header_of_fields {h : Word} (hz : headerZero h = 0#16) : header (headerOp h) (headerDev h) = h := by
  have hz' : (0#16) = h.extractLsb' 0 16 := hz.symm
  rw [header, headerOp, headerDev, hz',
    BitVec.extractLsb'_append_extractLsb'_eq_extractLsb' (by rfl), BitVec.extractLsb'_append_extractLsb'_eq_extractLsb' (by rfl)]
  exact BitVec.extractLsb'_eq_self

/-- The two fields of an `EVT` or `CB` word cover all its bits. -/
theorem devWord_of_fields {w : Half16} {code : Byte} (h : wordCode w = code) : devWord (wordDev w) code = w := by
  rw [← h, devWord, wordDev, wordCode, BitVec.extractLsb'_append_extractLsb'_eq_extractLsb' (by rfl)]
  exact BitVec.extractLsb'_eq_self

/-! ### The command decoder (R52, R53, R58) -/

section

variable {h : Word} {ws ops rest : List Word} {i : Instr}

theorem decodePacket_of_short (hlen : ws.length < operandWords (headerOp h)) : decodePacket (h :: ws) = .incomplete :=
  if_pos hlen

theorem decodePacket_of_command (hlen : operandWords (headerOp h) ≤ ws.length)
    (hc : decodeCommand h (ws.take (operandWords (headerOp h))) = .ok i) :
    decodePacket (h :: ws) = .command i (ws.drop (operandWords (headerOp h))) := by
  simp only [decodePacket, if_neg (not_lt.2 hlen), hc]

theorem decodePacket_of_illegal (hlen : operandWords (headerOp h) ≤ ws.length) {why : Reject}
    (hc : decodeCommand h (ws.take (operandWords (headerOp h))) = .error why) :
    decodePacket (h :: ws) = .illegal why (headerDev h) (ws.take (operandWords (headerOp h)))
      (ws.drop (operandWords (headerOp h))) := by
  simp only [decodePacket, if_neg (not_lt.2 hlen), hc]

/-- A command at the front of a stream is a header, as many operand words as its `op` calls for, and the rest. -/
theorem exists_of_decodePacket_command (hp : decodePacket ws = .command i rest) :
    ∃ h ops, ws = (h :: ops) ++ rest ∧ ops.length = operandWords (headerOp h) ∧ decodeCommand h ops = .ok i := by
  cases ws with
  | nil => cases hp
  | cons h ws =>
    obtain hlen | hlen := lt_or_ge ws.length (operandWords (headerOp h))
    · rw [decodePacket_of_short hlen] at hp
      cases hp
    · cases hc : decodeCommand h (ws.take (operandWords (headerOp h))) with
      | error why =>
        rw [decodePacket_of_illegal hlen hc] at hp
        cases hp
      | ok j =>
        rw [decodePacket_of_command hlen hc] at hp
        cases hp
        exact ⟨h, _, by rw [List.cons_append, List.take_append_drop], List.length_take_of_le hlen, hc⟩

/-- An illegal packet is taken off the stream whole (R53, R60). -/
theorem fields_of_decodePacket_illegal {why : Reject} {dev : Byte}
    (hp : decodePacket (h :: ws) = .illegal why dev ops rest) :
    dev = headerDev h ∧ ops = ws.take (operandWords (headerOp h)) ∧ rest = ws.drop (operandWords (headerOp h)) := by
  obtain hlen | hlen := lt_or_ge ws.length (operandWords (headerOp h))
  · rw [decodePacket_of_short hlen] at hp
    cases hp
  · cases hc : decodeCommand h (ws.take (operandWords (headerOp h))) with
    | ok j =>
      rw [decodePacket_of_command hlen hc] at hp
      cases hp
    | error r =>
      rw [decodePacket_of_illegal hlen hc] at hp
      cases hp
      exact ⟨rfl, rfl, rfl⟩

/-- The conditions of R58, the other way round: which packets are commands. -/
theorem exists_decodeCommand_ok_iff :
    (∃ i, decodeCommand h ops = .ok i) ↔
      headerOp h ∈ [0x01#8, 0x02#8, 0x03#8, 0x04#8, 0x10#8, 0x11#8, 0x12#8] ∧ headerZero h = 0#16 ∧
        (headerOp h = 0x01#8 → headerDev h = 0#8) := by
  unfold decodeCommand
  by_cases hz : headerZero h = 0#16
  · simp only [hz, if_true]
    split_ifs <;> simp_all
  · simp only [hz, if_false, false_and, and_false, iff_false, not_exists]
    intro i
    split_ifs <;> nofun

/-- A header with a zero low half and the operand words its `op` calls for are a packet (R51, R53). -/
theorem packet_of_fields {op dev : Byte} {args : List Word} (hop : headerOp h = op) (hdev : headerDev h = dev)
    (hz : headerZero h = 0#16) (hlen : ops.length = operandWords (headerOp h))
    (hargs : args = (List.range (operandWords op)).map (ops.getD · 0)) :
    Encoded.cmd (header op dev :: args) = .cmd (h :: ops) := by
  subst hop hdev hargs
  rw [header_of_fields hz, ← hlen]
  congr 2
  exact List.ext_getElem (by simp) fun k _ hk => by simp [hk]

/-- What the decoder accepts is the encoding of what it gives. -/
theorem encode_of_decodeCommand (y : Byte → Symbols) (hlen : ops.length = operandWords (headerOp h))
    (hc : decodeCommand h ops = .ok i) : encode y i = .cmd (h :: ops) := by
  obtain ⟨-, hz, -⟩ := exists_decodeCommand_ok_iff.1 ⟨i, hc⟩
  simp only [decodeCommand, hz, if_true] at hc
  split_ifs at hc with hop hdev hop hop hop hop hop hop <;> cases hc
  · exact packet_of_fields hop hdev hz hlen rfl
  all_goals exact packet_of_fields hop rfl hz hlen rfl

/-- Decoding a packet put before any other words gives its instruction back and leaves those words. -/
theorem decodePacket_encode {y : Byte → Symbols} {used : List Word} (he : encode y i = .cmd used) :
    decodePacket (used ++ rest) = .command i rest := by
  cases i <;> cases he <;>
    simp [decodePacket, decodeCommand, operandWords, headerOp_header, headerZero_header]

end

/-! ### The decoders of 16-bit words (R55 to R57, R59) -/

theorem encode_of_decodeEvt (y : Byte → Symbols) {w : Half16} {i : Instr} (h : decodeEvt w = .ok i) :
    encode y i = .evt w := by
  obtain ⟨hcode, rfl⟩ | ⟨hcode, rfl⟩ | ⟨hcode, rfl⟩ := decodeEvt_ok h <;>
    exact congrArg Encoded.evt (devWord_of_fields hcode)

theorem decodeCb_ok {w : Half16} {i : Instr} (h : decodeCb w = .ok i) :
    (wordCode w = 0#8 ∧ i = .cbComplete (wordDev w)) ∨ (wordCode w = 1#8 ∧ i = .cbError (wordDev w)) := by
  unfold decodeCb at h
  split_ifs at h with h0 h1 <;> cases h
  · exact .inl ⟨h0, rfl⟩
  · exact .inr ⟨h1, rfl⟩

theorem encode_of_decodeCb (y : Byte → Symbols) {w : Half16} {i : Instr} (h : decodeCb w = .ok i) :
    encode y i = .cb w := by
  obtain ⟨hcode, rfl⟩ | ⟨hcode, rfl⟩ := decodeCb_ok h <;> exact congrArg Encoded.cb (devWord_of_fields hcode)

theorem decodeCw_ok {y : Symbols} {dev : Byte} {v : Half16} {i : Instr} (h : decodeCw y dev v = .ok i) :
    (v = y.hval ∧ i = .cwOne dev) ∨ (v = y.lval ∧ i = .cwZero dev) ∨ (v = 0 ∧ i = .cwFill dev) := by
  unfold decodeCw at h
  split_ifs at h with hone hzero hfill <;> cases h
  · exact .inl ⟨hone, rfl⟩
  · exact .inr (.inl ⟨hzero, rfl⟩)
  · exact .inr (.inr ⟨hfill, rfl⟩)

/-- Every codeword of a device decodes (R57, R86). -/
theorem exists_decodeCw_of_isCodeword {d : Device} {dev : Byte} {v : Half16} (h : isCodeword d v) :
    ∃ i, decodeCw d.symbols dev v = .ok i := by
  unfold decodeCw
  split_ifs with hone hzero hfill
  · exact ⟨_, rfl⟩
  · exact ⟨_, rfl⟩
  · exact ⟨_, rfl⟩
  · obtain h | h | h := h
    · exact absurd h hfill
    · exact absurd h hzero
    · exact absurd h hone

/-- The three symbols of a device are told apart (R17). -/
theorem decodeCw_symbols {y : Symbols} (dev : Byte) (hy : y.WellFormed) :
    decodeCw y dev y.hval = .ok (.cwOne dev) ∧ decodeCw y dev y.lval = .ok (.cwZero dev) ∧
      decodeCw y dev 0 = .ok (.cwFill dev) := by
  obtain ⟨hpos, hlt⟩ := hy
  have hlh : y.lval ≠ y.hval := fun h => by rw [h] at hlt; omega
  have hl0 : (0 : Half16) ≠ y.lval := fun h => by rw [← h] at hpos; cases hpos
  have hh0 : (0 : Half16) ≠ y.hval := fun h => by rw [← h] at hlt; cases hlt
  refine ⟨if_pos rfl, ?_, ?_⟩
  · rw [decodeCw, if_neg hlh, if_pos rfl]
  · rw [decodeCw, if_neg hh0, if_neg hl0]
    exact if_pos rfl

/-! ### The turns that decode -/

theorem hostTurn_of_command {s : State} {i : Instr} {rest : List Word} (h : decodePacket s.port = .command i rest) :
    hostTurn s = exec i { s with port := rest } := by simp only [hostTurn, h]

theorem hostTurn_of_illegal {s : State} {why : Reject} {dev : Byte} {ops rest : List Word}
    (h : decodePacket s.port = .illegal why dev ops rest) : hostTurn s = .next { s with res := 0, port := rest } := by
  simp only [hostTurn, h]
  rfl

theorem hostTurn_of_incomplete {s : State} (h : decodePacket s.port = .incomplete) : hostTurn s = .next s := by
  simp only [hostTurn, h]

/-- The host's step, past the words of its command (R53). -/
theorem step_of_command {s : State} {ts : List Turn} {i : Instr} {rest : List Word} (hn : NextTurn s .host ts)
    (h : decodePacket s.port = .command i rest) : step s = exec i { s with port := rest, sched := ts } := by
  rw [step_eq hn]
  exact hostTurn_of_command (s := { s with sched := ts }) h

theorem decodeEvt_of_reserved {w : Half16} (h : wordCode w ∉ [1#8, 2#8, 3#8]) : decodeEvt w = .error .reservedFlag := by
  simp only [List.mem_cons, List.not_mem_nil, or_false, not_or] at h
  obtain ⟨h1, h2, h3⟩ := h
  rw [decodeEvt, if_neg h1, if_neg h2, if_neg h3]

/-! ### Devices that do not exist (R59, R74; log entry 6) -/

section

variable {s : State} {dev : Byte}

theorem requireInited_of_none (h : s.dev? dev = none) : requireInited s dev = .error .badDevice := by
  simp only [requireInited, requireDevice, h]

theorem requireIdle_of_none (h : s.dev? dev = none) : requireIdle s dev = .error .badDevice := by
  simp only [requireIdle, requireInited_of_none h]

/-- Every command checks first that its device exists (R74). -/
theorem exec_command_of_none {i : Instr} {ws rest : List Word} (hp : decodePacket ws = .command i rest)
    (hi : commandDevice i = some dev) (h : s.dev? dev = none) : exec i s = .next (s.withRes 0) := by
  obtain rfl | ⟨_, _, _, rfl⟩ | ⟨_, rfl⟩ | ⟨_, rfl⟩ | ⟨_, _, _, _, _, rfl⟩ | ⟨_, _, _, _, rfl⟩ | ⟨_, _, _, _, _, _, rfl⟩ :=
    decodePacket_command hp <;> cases hi
  · simp only [exec, execSet, checkSet, requireIdle_of_none h, State.fail]
  · simp only [exec, execReset, requireIdle_of_none h, State.fail]
  · simp only [exec, execGetLedCount, requireInited_of_none h, State.fail]
  · simp only [exec, execSetColor, requireInited_of_none h, State.fail]
  · simp only [exec, execFillColor, requireInited_of_none h, State.fail]
  · simp only [exec, execFillSeg, requireInited_of_none h, State.fail]

theorem output_of_none (h : s.dev? dev = none) (f : Device → Device) : output dev f s = s := by simp only [output, h]

theorem output_of_some {d : Device} (h : s.dev? dev = some d) (f : Device → Device) :
    output dev f s = s.putDev dev (f d) := by simp only [output, h]

theorem exec_flagInstr_of_none (h : s.dev? dev = none) (f : Flag) : exec (flagInstr dev f) s = .next s := by
  rw [exec_flagInstr, onDevice_of_none h]

end

/-! ### A beat and its codeword (R57, R91) -/

theorem State.putDev_putDev (s : State) (dev : Byte) (d e : Device) : (s.putDev dev d).putDev dev e = s.putDev dev e := by
  simp [State.putDev]

/-- The codeword instructions deliver the codeword they are decoded from. -/
theorem exec_of_decodeCw {s : State} {dev : Byte} {d : Device} {v : Half16} {i : Instr} (hd : s.dev? dev = some d)
    (h : decodeCw d.symbols dev v = .ok i) : exec i s = .next (s.putDev dev (deliver v d)) := by
  obtain ⟨rfl, rfl⟩ | ⟨rfl, rfl⟩ | ⟨rfl, rfl⟩ := decodeCw_ok h <;> exact congrArg _ (output_of_some hd _)

theorem step_of_beat {s : State} {ts : List Turn} {dev : Byte} {d : Device} {v : Half16} (hn : NextTurn s (.beat dev) ts)
    (hd : s.dev? dev = some d) (hen : d.dmaEn = true) (hv : fetchCodeword d = some v) :
    step s = .next ({ s with sched := ts }.putDev dev (advanceReader (deliver v d))) := by
  rw [step_eq_onDevice hn rfl]
  refine onDevice_of_ok hd ?_
  simp only [agentStep, if_pos hen, beatDevice, hv]

/-! ### The statements -/

/-- Settles O2, channel by channel: the packets by `decodePacket_encode`, the codewords by the order of the symbols. -/
theorem encodeThenDecode : Obligations.EncodeThenDecode := by
  intro y i hy
  have packet : ∀ used, encode y i = .cmd used → decode y (encode y i) = .ok i := fun used he => by
    have hp := decodePacket_encode (rest := []) he
    rw [List.append_nil] at hp
    rw [he, decode, hp]
  cases i with
  | ht dev => simp [encode, decode, decodeEvt, wordCode_devWord]
  | tc dev => simp [encode, decode, decodeEvt, wordCode_devWord]
  | te dev => simp [encode, decode, decodeEvt, wordCode_devWord]
  | cbComplete dev => simp [encode, decode, decodeCb, wordCode_devWord]
  | cbError dev => simp [encode, decode, decodeCb, wordCode_devWord]
  | cwOne dev => exact (decodeCw_symbols dev (hy dev)).1
  | cwZero dev => exact (decodeCw_symbols dev (hy dev)).2.1
  | cwFill dev => exact (decodeCw_symbols dev (hy dev)).2.2
  | _ => exact packet _ rfl

/-- Settles O3: on each channel the fields the decoder reads cover the whole word. -/
theorem decodeThenEncode : Obligations.DecodeThenEncode := by
  refine ⟨fun y ws i rest hp => ?_, fun y w i h => encode_of_decodeEvt y h, fun y w i h => encode_of_decodeCb y h,
    fun y dev v i h => ?_⟩
  · obtain ⟨h, ops, rfl, hlen, hc⟩ := exists_of_decodePacket_command hp
    exact ⟨h :: ops, rfl, encode_of_decodeCommand y hlen hc⟩
  · obtain ⟨rfl, rfl⟩ | ⟨rfl, rfl⟩ | ⟨rfl, rfl⟩ := decodeCw_ok h <;> rfl

/-- Settles O5: an illegal packet is one that the decoder of commands rejects. -/
theorem illegalPackets : Obligations.IllegalPackets := by
  refine ⟨fun h ws hlen => ?_, ?_, ?_⟩
  · have rejected : (∃ why dev ops rest, decodePacket (h :: ws) = .illegal why dev ops rest) ↔
        ¬ ∃ i, decodeCommand h (ws.take (operandWords (headerOp h))) = .ok i := by
      cases hc : decodeCommand h (ws.take (operandWords (headerOp h))) with
      | ok i => simp [decodePacket_of_command hlen hc]
      | error why => simp [decodePacket_of_illegal hlen hc]
    rw [rejected, exists_decodeCommand_ok_iff]
    tauto
  · intro s ts h ws why dev ops rest hn hport hp
    obtain ⟨hdev, hops, hrest⟩ := fields_of_decodePacket_illegal (hport ▸ hp)
    refine ⟨hdev, hops, hrest, ?_⟩
    rw [step_eq hn]
    exact hostTurn_of_illegal (s := { s with sched := ts }) hp
  · intro s ts i dev rest hn hp hi hd
    rw [step_of_command hn hp]
    exact exec_command_of_none (s := { s with port := rest, sched := ts }) hp hi hd

/-- Settles O10: a beat delivers the codeword it fetches, and the instruction of that codeword delivers it too. -/
theorem beatRunsCodeword : Obligations.BeatRunsCodeword := by
  constructor
  · intro s ts dev d v i t e hn hd hen hv hi ht he
    rw [exec_of_decodeCw (s := { s with sched := ts }) hd hi] at ht
    cases ht
    rw [State.putDev_dev?_same (s := { s with sched := ts }) _ hd] at he
    cases he
    rw [step_of_beat hn hd hen hv, State.putDev_putDev]
  · intro s dev d v inv _ hmem hv
    exact exists_decodeCw_of_isCodeword (isCodeword_fetchCodeword (inv d hmem) hv)

/-- Settles O1, by evaluation of the nine words. -/
theorem specWordsDecode : Obligations.SpecWordsDecode := by
  unfold Obligations.SpecWordsDecode
  decide

/-- Settles O4: a packet that is long enough is a command or illegal, as the decoder of commands says. -/
theorem packetLengths : Obligations.PacketLengths := by
  refine ⟨⟨rfl, rfl, rfl, rfl, rfl, rfl, rfl, fun op hop => ?_⟩, fun h ws hlen => ?_, fun s ts h ws hn hport hlen => ?_⟩
  · simp only [List.mem_cons, List.not_mem_nil, or_false, not_or] at hop
    simp [operandWords, hop]
  · cases hc : decodeCommand h (ws.take (operandWords (headerOp h))) with
    | ok i => exact .inl ⟨i, decodePacket_of_command hlen hc⟩
    | error why => exact .inr ⟨why, decodePacket_of_illegal hlen hc⟩
  · rw [step_eq hn, runTurn]
    exact hostTurn_of_incomplete (by rw [hport, decodePacket_of_short hlen])

/-- Settles O6. -/
theorem stepRunsPacket : Obligations.StepRunsPacket := fun _ _ _ _ hn hp => step_of_command hn hp

/-- Settles O7: the turn asks the decoder of `EVT` words. -/
theorem stepRunsEventWord : Obligations.StepRunsEventWord := by
  intro s ts w hn
  rw [step_eq hn, runTurn, evtTurn]
  exact ⟨fun i hi => by rw [hi], fun hcode => by rw [decodeEvt_of_reserved hcode]⟩

/-- Settles O37: events and turns are steps on a device (`onDevice`), output operations are `output`. -/
theorem missingDeviceIgnored : Obligations.MissingDeviceIgnored := by
  intro s dev hd
  have silent : ∀ f, Host.Outcome.next (φ := Fault) (ρ := Refusal) (output dev f s) = .next s := fun f => by
    rw [output_of_none hd]
  constructor
  · simp only [List.forall_mem_cons, List.not_mem_nil, false_imp_iff, implies_true, and_true]
    exact ⟨exec_flagInstr_of_none hd .ht, exec_flagInstr_of_none hd .tc, exec_flagInstr_of_none hd .te, silent _, silent _,
      silent _, silent _, silent _⟩
  · intro turn ts hturn hn
    rw [step_eq_onDevice hn hturn, onDevice_of_none (s := { s with sched := ts }) hd]

end Sys2Proof.Machine
end

section
/-! PROOFS. The eager schedule (R62, R116, R117): every pending flag is serviced before the next beat. One eager turn is a step of the
device alone (`EagerStep`), and so is a run of them (`EagerRun`). A frame is then counted half buffer by half buffer: the beats up to
the next data flag (`Approaching`), and the invocation that services it (`Raised`). -/

namespace Sys2Proof.Machine

open Sys2Proof Sys2Proof.Safety

/-! ### One eager turn of a device -/

/-- What one turn of the eager schedule does to a device of an initialised block: it services the flag that is due, and only if there
is none does the reader take a beat. -/
inductive EagerStep (s : State) (d e : Device) : Prop
  | service {f : Flag} : pendingFlag d = some f → serviceFlag s f d = .ok e → EagerStep s d e
  | beat : pendingFlag d = none → d.fsm ≠ .idle → d.dmaEn = true → beatDevice d = .ok e → EagerStep s d e

section

variable {s t : State} {dev : Byte} {d e : Device}

theorem eagerTurn_of_pending {f : Flag} (hd : s.dev? dev = some d) (hi : s.inited = true) (hp : pendingFlag d = some f) :
    eagerTurn s dev = some (.isr dev) := by
  simp [eagerTurn, hd, takeInterrupt, hi, hp]

theorem eagerTurn_of_beat (hd : s.dev? dev = some d) (hi : s.inited = true) (hp : pendingFlag d = none)
    (hf : d.fsm ≠ .idle) (hen : d.dmaEn = true) : eagerTurn s dev = some (.beat dev) := by
  simp [eagerTurn, hd, takeInterrupt, hi, hp, hf, hen]

theorem eagerTurn_of_idle (hd : s.dev? dev = some d) (hi : s.inited = true) (hp : pendingFlag d = none)
    (hf : d.fsm = .idle) : eagerTurn s dev = none := by
  simp [eagerTurn, hd, takeInterrupt, hi, hp, hf]

/-- The handler's turn services the flag that is due (R100). -/
theorem agentStep_isr_of_pending {f : Flag} (hi : s.inited = true) (hp : pendingFlag d = some f) :
    agentStep s dev (.isr dev) d = serviceFlag s f d := by
  simp [agentStep, servicedFlag, takeInterrupt, hi, hp, serviceDue]

/-- A turn put before the others is a step on the device of its agent. -/
theorem step_put_turn {turn : Turn} (hc : s.config.WellFormed) (hturn : turnDevice turn = some dev) :
    step { s with sched := turn :: s.sched } = onDevice dev (agentStep s dev turn) s :=
  step_eq_onDevice (s := { s with sched := turn :: s.sched }) ⟨hc, rfl⟩ hturn

variable (hc : s.config.WellFormed) (hi : s.inited = true) (hd : s.dev? dev = some d)

include hc hi hd

/-- The eager schedule takes the device's eager step. -/
theorem EagerStep.step_eq (h : EagerStep s d e) :
    ∃ turn, eagerTurn s dev = some turn ∧ step { s with sched := turn :: s.sched } = .next (s.putDev dev e) := by
  cases h with
  | service hp hs =>
    exact ⟨_, eagerTurn_of_pending hd hi hp, (step_put_turn hc rfl).trans
      (onDevice_of_ok hd ((agentStep_isr_of_pending hi hp).trans hs))⟩
  | beat hp hf hen hb =>
    exact ⟨_, eagerTurn_of_beat hd hi hp hf hen, (step_put_turn hc rfl).trans (onDevice_of_ok hd ((if_pos hen).trans hb))⟩

/-- And it takes no other. -/
theorem eagerStep_of_step {turn : Turn} (hturn : eagerTurn s dev = some turn)
    (hstep : step { s with sched := turn :: s.sched } = .next t) (he : t.dev? dev = some e) : EagerStep s d e := by
  have moved : turnDevice turn = some dev → agentStep s dev turn d = .ok e := by
    intro hdev
    rw [step_put_turn hc hdev] at hstep
    obtain ⟨hnone, -⟩ | ⟨d', e', hd', hok, rfl⟩ := onDevice_next hstep
    · cases hd.symm.trans hnone
    · cases hd.symm.trans hd'
      cases (State.putDev_dev?_same e' hd).symm.trans he
      exact hok
  cases hp : pendingFlag d with
  | some f =>
    cases (eagerTurn_of_pending hd hi hp).symm.trans hturn
    exact .service hp ((agentStep_isr_of_pending hi hp).symm.trans (moved rfl))
  | none =>
    by_cases hf : d.fsm = .idle
    · cases (eagerTurn_of_idle hd hi hp hf).symm.trans hturn
    · by_cases hen : d.dmaEn = true
      · cases (eagerTurn_of_beat hd hi hp hf hen).symm.trans hturn
        exact .beat hp hf hen ((if_pos hen).symm.trans (moved rfl))
      · simp [eagerTurn, hd, takeInterrupt, hi, hp, hf, hen] at hturn

end

/-! ### What an eager turn keeps -/

section

variable {s : State} {d e : Device}

/-- With all flags enabled, a flag is due as soon as one is pending. -/
theorem pendingFlag_eq_none_iff (inv : DeviceInv true d) (hf : d.fsm ≠ .idle) :
    pendingFlag d = none ↔ d.htif = false ∧ d.tcif = false ∧ d.teif = false := by
  obtain ⟨-, -, hht, htc, hte⟩ := inv.inFlight hf
  simp only [pendingFlag, hht, htc, hte, Bool.and_true]
  split_ifs <;> simp_all

/-- With no flag enabled, none is due. -/
theorem pendingFlag_of_idle (inv : DeviceInv true d) (hf : d.fsm = .idle) : pendingFlag d = none := by
  obtain ⟨-, -, hht, htc, hte⟩ := inv.idle hf
  simp [pendingFlag, hht, htc, hte]

/-- Servicing a flag neither sets nor clears the underrun bit. -/
theorem underrun_of_serviceFlag {f : Flag} (h : serviceFlag s f d = .ok e) : e.underrun = d.underrun := by
  have data : ∀ f, onData s f d = .ok e → e.underrun = d.underrun := by
    intro f h
    have counted : (countPair (clearData f d)).underrun = d.underrun := by cases f <;> rfl
    cases onData_cases h <;> simpa using counted
  cases f with
  | ht => exact data .ht h
  | tc => exact data .tc h
  | te =>
    cases h
    cases hi : s.inited <;> simp [onError]

theorem dmaRd_succ_toNat (inv : DeviceInv true d) : (d.dmaRd + 1).toNat = d.dmaRd.toNat + 1 := by
  have := inv.reader
  rw [BitVec.toNat_add]
  exact Nat.mod_eq_of_lt (by simp; omega)

/-- A beat of a device in flight with no flag pending, in one record (R91, R92): no refill is late. -/
theorem beatDevice_of_quiet (inv : DeviceInv true d) (hf : d.fsm ≠ .idle) (hht : d.htif = false) (htc : d.tcif = false) :
    ∃ v, beatDevice d = .ok
      { d with
        ccr := v
        out := d.out ++ [.cw v]
        dmaRd := if d.dmaRd.toNat + 1 = d.dmaLen.toNat then 0 else d.dmaRd + 1
        htif := decide (d.dmaRd.toNat + 1 = d.dmaLen.toNat / 2)
        tcif := decide (d.dmaRd.toNat + 1 = d.dmaLen.toNat) } := by
  obtain ⟨hen, hch, -⟩ := inv.inFlight hf
  have hnext := dmaRd_succ_toNat inv
  have hne : d.dmaRd + 1 ≠ 0 := fun h0 => by rw [h0] at hnext; cases hnext
  have hend : d.dmaRd + 1 = d.dmaLen ↔ d.dmaRd.toNat + 1 = d.dmaLen.toNat := by rw [← BitVec.toNat_inj, hnext]
  have hmid : d.dmaRd + 1 = d.dmaLen / 2 ↔ d.dmaRd.toNat + 1 = d.dmaLen.toNat / 2 := by
    rw [← BitVec.toNat_inj, hnext, BitVec.toNat_udiv]; rfl
  cases hv : fetchCodeword d with
  | none => exact absurd (by simp only [beatDevice, hv]) (beatDevice_ne_error inv hen .codewordIndex)
  | some v =>
    refine ⟨v, ?_⟩
    simp only [beatDevice, hv]
    rw [deliver, if_pos hch, advanceReader_eq (d := emit (.cw v) (setCompare v d)) hne]
    simp only [emit, setCompare, hend, hmid, hht, htc, Bool.false_or, Bool.or_false, Bool.and_false, Bool.false_and]

theorem EagerStep.underrun (h : EagerStep s d e) (inv : DeviceInv true d) : e.underrun = d.underrun := by
  cases h with
  | service _ hs => exact underrun_of_serviceFlag hs
  | beat hp hf _ hb =>
    obtain ⟨hht, htc, -⟩ := (pendingFlag_eq_none_iff inv hf).1 hp
    obtain ⟨v, hv⟩ := beatDevice_of_quiet inv hf hht htc
    cases hb.symm.trans hv
    rfl

theorem deviceInv_of_serviceFlag {f : Flag} (hi : s.inited = true) (inv : DeviceInv true d)
    (h : serviceFlag s f d = .ok e) : DeviceInv true e := by
  cases f with
  | ht => exact deviceInv_of_onData (f := .ht) inv h
  | tc => exact deviceInv_of_onData (f := .tc) inv h
  | te =>
    cases h
    rw [hi]
    exact deviceInv_onError inv

theorem EagerStep.deviceInv (h : EagerStep s d e) (hi : s.inited = true) (inv : DeviceInv true d) : DeviceInv true e := by
  cases h with
  | service _ hs => exact deviceInv_of_serviceFlag hi inv hs
  | beat _ _ hen hb => exact deviceInv_of_beatDevice inv hen hb

theorem EagerStep.cfg (h : EagerStep s d e) : e.cfg = d.cfg := by
  cases h with
  | @service f _ hs =>
    cases f with
    | ht => exact (keepsHistory_of_onData (inited := true) (f := .ht) hs).cfg
    | tc => exact (keepsHistory_of_onData (inited := true) (f := .tc) hs).cfg
    | te =>
      cases hs
      exact (keepsHistory_onError (inited := true) s.inited d).cfg
  | beat _ _ _ hb => exact (keepsHistory_of_beatDevice (inited := true) hb).cfg

/-- A service reads the configuration, `inited` and the pixels, nothing else of the block. -/
theorem EagerStep.congr {s₂ : State} (hc : s₂.config = s.config) (hi : s₂.inited = s.inited) (hp : s₂.pix = s.pix)
    (h : EagerStep s d e) : EagerStep s₂ d e := by
  cases h with
  | beat hq hf hen hb => exact .beat hq hf hen hb
  | @service f hq hs =>
    refine .service hq ?_
    cases f with
    | ht => exact (congrFun (congrFun (onData_congr hp hc) .ht) d).trans hs
    | tc => exact (congrFun (congrFun (onData_congr hp hc) .tc) d).trans hs
    | te => exact (congrArg (fun b => Except.ok (onError b d)) hi).trans hs

end

/-! ### A run of eager turns -/

/-- `n` turns of the eager schedule bring the device from `d` to `e`. -/
inductive EagerRun (s : State) : Nat → Device → Device → Prop
  | nil (d : Device) : EagerRun s 0 d d
  | cons {n : Nat} {d e f : Device} : EagerStep s d e → EagerRun s n e f → EagerRun s (n + 1) d f

section

variable {s : State} {m n : Nat} {d e f : Device}

theorem EagerStep.run (h : EagerStep s d e) : EagerRun s 1 d e := .cons h (.nil e)

theorem EagerRun.trans (h₁ : EagerRun s m d e) (h₂ : EagerRun s n e f) : EagerRun s (m + n) d f := by
  induction h₁ with
  | nil => rwa [Nat.zero_add]
  | cons step _ ih => rw [Nat.succ_add_eq_add_succ]; exact .cons step (ih h₂)

theorem EagerRun.underrun (h : EagerRun s n d e) (hi : s.inited = true) (inv : DeviceInv true d) :
    e.underrun = d.underrun := by
  induction h with
  | nil => rfl
  | cons step _ ih => rw [ih (step.deviceInv hi inv), step.underrun inv]

theorem EagerRun.congr {s₂ : State} (hc : s₂.config = s.config) (hi : s₂.inited = s.inited) (hp : s₂.pix = s.pix)
    (h : EagerRun s n d e) : EagerRun s₂ n d e := by
  induction h with
  | nil => exact .nil _
  | cons step _ ih => exact .cons (step.congr hc hi hp) ih

/-- The block runs as its device does (R62, `RUN d`). -/
theorem runEager_of_eagerRun {dev : Byte} (run : EagerRun s n d e) (hc : s.config.WellFormed) (hi : s.inited = true)
    (hd : s.dev? dev = some d) : runEager dev n s = .next (s.putDev dev e) := by
  induction n generalizing s d with
  | zero =>
    cases run
    rw [State.putDev_self hd]
    rfl
  | succ n ih =>
    obtain _ | @⟨_, _, mid, _, first, rest⟩ := run
    obtain ⟨turn, hturn, hstep⟩ := first.step_eq hc hi hd
    have hconfig : (s.putDev dev mid).config = s.config := State.putDev_config hd first.cfg
    simp only [runEager, hturn, hstep]
    rw [ih (rest.congr hconfig rfl rfl) (hconfig ▸ hc) hi (State.putDev_dev?_same mid hd), State.putDev_putDev]

end

/-! ### Half buffers -/

/-- Beats in half of the buffer that a driver state reads (R18, R19). -/
def halfLength : Fsm → Nat
  | .latch => 24
  | _ => 48

theorem dmaLen_eq_two_halves {d : Device} (inv : DeviceInv true d) (hf : d.fsm ≠ .idle) :
    d.dmaLen.toNat = 2 * halfLength d.fsm := by
  cases hfsm : d.fsm with
  | idle => exact absurd hfsm hf
  | transfer => rw [(inv.codewordBuffer (.inl hfsm)).2]; rfl
  | reset => rw [(inv.codewordBuffer (.inr hfsm)).2]; rfl
  | latch => rw [(inv.latchBuffer hfsm).2]; rfl

/-- The data flag that follows `f` as the reader goes round (R92). -/
def DataFlag.other : DataFlag → DataFlag
  | .ht => .tc
  | .tc => .ht

/-- How far the reader has come, counted from the start of the buffer, when it raises `f` (R92). -/
def raisedAt (g : Fsm) : DataFlag → Nat
  | .ht => halfLength g
  | .tc => 2 * halfLength g

/-- In driver state `g`, with nothing pending, the reader is `m` beats before raising `f`. -/
structure Approaching (g : Fsm) (f : DataFlag) (m : Nat) (d : Device) : Prop where
  inv : DeviceInv true d
  fsm : d.fsm = g
  inFlight : g ≠ .idle
  htif : d.htif = false
  tcif : d.tcif = false
  teif : d.teif = false
  place : d.dmaRd.toNat + m = raisedAt g f
  near : m ≤ halfLength g

/-- In driver state `g`, the reader has just raised `f`, and half a buffer lies before the other flag. -/
structure Raised (g : Fsm) (f : DataFlag) (d : Device) : Prop where
  inv : DeviceInv true d
  fsm : d.fsm = g
  inFlight : g ≠ .idle
  htif : d.htif = decide (f = .ht)
  tcif : d.tcif = decide (f = .tc)
  teif : d.teif = false
  place : d.dmaRd.toNat + halfLength g = raisedAt g f.other

/-- On the way from `d` to `e` the device has sent `n` codewords and serviced `k` data flags of one transfer. -/
structure Progress (n k : Nat) (d e : Device) : Prop where
  cfg : e.cfg = d.cfg
  pixBase : e.pixBase = d.pixBase
  total : e.total = d.total
  sent : e.sent.toNat = d.sent.toNat + 2 * k
  out : ∃ cws : List Half16, cws.length = n ∧ e.out = d.out ++ cws.map .cw

section

variable {s : State} {g : Fsm} {f : DataFlag} {d e : Device}

theorem Progress.trans {n₁ n₂ k₁ k₂ : Nat} {x : Device} (h₁ : Progress n₁ k₁ d e) (h₂ : Progress n₂ k₂ e x) :
    Progress (n₁ + n₂) (k₁ + k₂) d x where
  cfg := h₂.cfg.trans h₁.cfg
  pixBase := h₂.pixBase.trans h₁.pixBase
  total := h₂.total.trans h₁.total
  sent := by rw [h₂.sent, h₁.sent]; ring
  out := by
    obtain ⟨cws₁, hlen₁, hout₁⟩ := h₁.out
    obtain ⟨cws₂, hlen₂, hout₂⟩ := h₂.out
    exact ⟨cws₁ ++ cws₂, by simp [hlen₁, hlen₂], by rw [hout₂, hout₁, List.map_append, List.append_assoc]⟩

/-- One beat with nothing pending sends one codeword, and raises `f` exactly if it is the last before it. -/
theorem Approaching.beat {m : Nat} (h : Approaching g f (m + 1) d) :
    ∃ e, EagerStep s d e ∧ Progress 1 0 d e ∧ (m = 0 → Raised g f e) ∧ (m ≠ 0 → Approaching g f m e) := by
  obtain ⟨inv, rfl, hf, hht, htc, hte, hplace, hnear⟩ := h
  obtain ⟨v, hv⟩ := beatDevice_of_quiet inv hf hht htc
  have hen := (inv.inFlight hf).1
  have inv' := deviceInv_of_beatDevice inv hen hv
  have hlen := dmaLen_eq_two_halves inv hf
  have hread : (if d.dmaRd.toNat + 1 = d.dmaLen.toNat then (0 : Half16) else d.dmaRd + 1).toNat =
      if d.dmaRd.toNat + 1 = d.dmaLen.toNat then 0 else d.dmaRd.toNat + 1 := by
    rw [apply_ite BitVec.toNat, dmaRd_succ_toNat inv]
    rfl
  refine ⟨_, .beat ((pendingFlag_eq_none_iff inv hf).2 ⟨hht, htc, hte⟩) hf hen hv,
    ⟨rfl, rfl, rfl, rfl, [v], rfl, rfl⟩, fun hm => ?_, fun hm => ?_⟩
  · cases f <;> simp only [raisedAt] at hplace
    all_goals
      exact ⟨inv', rfl, hf, by simp; omega, by simp; omega, hte, by
        simp only [hread, DataFlag.other, raisedAt]; split <;> omega⟩
  · cases f <;> simp only [raisedAt] at hplace
    all_goals
      exact ⟨inv', rfl, hf, by simp; omega, by simp; omega, hte, by
        simp only [hread, raisedAt]; split <;> omega, by omega⟩

/-- The beats up to the next data flag. -/
theorem Approaching.run {m : Nat} (h : Approaching g f (m + 1) d) :
    ∃ e, EagerRun s (m + 1) d e ∧ Progress (m + 1) 0 d e ∧ Raised g f e := by
  induction m generalizing d with
  | zero =>
    obtain ⟨e, beat, sent, last, -⟩ := h.beat (s := s)
    exact ⟨e, beat.run, sent, last rfl⟩
  | succ m ih =>
    obtain ⟨mid, beat, sent, -, next⟩ := h.beat (s := s)
    obtain ⟨e, run, sent', raised⟩ := ih (next (Nat.succ_ne_zero m))
    exact ⟨e, .cons beat run, Nat.add_comm 1 (m + 1) ▸ sent.trans sent', raised⟩

/-- A raised data flag is the one that is due. -/
theorem Raised.pending (h : Raised g f d) : pendingFlag d = some f.toFlag := by
  obtain ⟨-, -, hht, htc, -⟩ := h.inv.inFlight (h.fsm ▸ h.inFlight)
  cases f <;> simp [pendingFlag, h.htif, h.tcif, h.teif, hht, htc, DataFlag.toFlag]

theorem Raised.eagerStep (h : Raised g f d) (ho : onData s f d = .ok e) : EagerStep s d e :=
  .service h.pending (by cases f <;> exact ho)

theorem sent_add_two_toNat (hsmall : d.sent.toNat + 2 < 2 ^ 32) : (d.sent + 2).toNat = d.sent.toNat + 2 := by
  rw [BitVec.toNat_add]
  exact Nat.mod_eq_of_lt hsmall

/-- Every service of a data flag begins by counting a pair of LEDs (R101, R102, R104). -/
theorem Raised.counted (h : Raised g f d) (hsmall : d.sent.toNat + 2 < 2 ^ 32) :
    Progress 0 1 d (countPair (clearData f d)) ∧ Approaching g f.other (halfLength g) (countPair (clearData f d)) := by
  obtain ⟨inv, hfsm, hg, hht, htc, hte, hplace⟩ := h
  have hsent := sent_add_two_toNat hsmall
  have inv' := deviceInv_countPair_clearData f inv
  cases f with
  | ht => exact ⟨⟨rfl, rfl, rfl, hsent, [], rfl, by simp⟩, ⟨inv', hfsm, hg, rfl, htc, hte, hplace, le_rfl⟩⟩
  | tc => exact ⟨⟨rfl, rfl, rfl, hsent, [], rfl, by simp⟩, ⟨inv', hfsm, hg, hht, rfl, hte, hplace, le_rfl⟩⟩

/-- The device is one of the block's, and a transfer reads its own buffer (R42). -/
structure ReadsOwn (s : State) (g : Fsm) (d : Device) : Prop where
  config : d.cfg ∈ s.config
  own : g = .transfer → d.pixBase.toNat = d.cfg.pixBase

theorem ReadsOwn.of_progress {n k : Nat} (h : ReadsOwn s g d) (hp : Progress n k d e) : ReadsOwn s g e where
  config := hp.cfg.symm ▸ h.config
  own hg := by rw [hp.pixBase, hp.cfg, h.own hg]

section

variable (hc : s.config.WellFormed)

include hc

/-- A frame is never longer than the limit on LED counts (R5). -/
theorem ReadsOwn.total_le (own : ReadsOwn s g d) (inv : DeviceInv true d) : d.total.toNat ≤ ledLimit := by
  obtain ⟨-, hbounds, -⟩ := hc
  obtain ⟨⟨-, hmax⟩, -⟩ := hbounds d.cfg own.config
  exact inv.length.1.trans hmax

/-- A refill from the device's own buffer answers (R42). -/
theorem Raised.exists_onData (h : Raised g f d) (own : ReadsOwn s g d) : ∃ e, onData s f d = .ok e := by
  cases ho : onData s f d with
  | ok e => exact ⟨e, rfl⟩
  | error r =>
    obtain ⟨hf, -, -, unreadable⟩ := onData_error ho
    obtain ⟨d₀, hmem, hcfg⟩ := List.mem_map.1 own.config
    have readable := halfReadable_iff.2 (own.own (h.fsm ▸ hf) ▸ hcfg ▸
      ledsAllocated_ownBuffer hc hmem (hcfg.symm ▸ h.inv.length.1) ((d.sent + 2).toNat + 2))
    cases readable.symm.trans unreadable

/-- While LEDs are left, the service of a data flag goes on with the frame (R105, R106). -/
theorem Raised.continues (h : Raised g f d) (own : ReadsOwn s g d) (hg : g = .transfer ∨ g = .reset)
    (hleft : d.sent.toNat + 2 < d.total.toNat) :
    ∃ e, EagerStep s d e ∧ Progress 0 1 d e ∧ Approaching g f.other (halfLength g) e := by
  obtain ⟨e, ho⟩ := h.exists_onData hc own
  have hsmall := hleft.trans d.total.isLt
  obtain ⟨sent, approaching⟩ := h.counted hsmall
  have hsent := sent_add_two_toNat hsmall
  have inv := deviceInv_of_onData h.inv ho
  refine ⟨e, h.eagerStep ho, ?_⟩
  cases onData_cases ho with
  | refill => exact ⟨{ sent with }, { approaching with inv }⟩
  | count => exact ⟨sent, approaching⟩
  | startLatch _ hdone => omega
  | finish hf => simp [← h.fsm, hf] at hg

/-- Once all LEDs have gone out, it starts the latch (R105, R106, R109). -/
theorem Raised.startsLatch (h : Raised g f d) (own : ReadsOwn s g d) (hg : g = .transfer ∨ g = .reset)
    (hdone : d.total.toNat ≤ d.sent.toNat + 2) (hsmall : d.sent.toNat + 2 < 2 ^ 32) :
    ∃ e, EagerStep s d e ∧ Progress 0 1 d e ∧ Approaching .latch .ht (halfLength .latch) e := by
  obtain ⟨e, ho⟩ := h.exists_onData hc own
  obtain ⟨sent, approaching⟩ := h.counted hsmall
  have hsent := sent_add_two_toNat hsmall
  have inv := deviceInv_of_onData h.inv ho
  refine ⟨e, h.eagerStep ho, ?_⟩
  cases onData_cases ho with
  | refill _ hleft => omega
  | count hcount =>
    obtain hf | ⟨-, hleft⟩ | ⟨hf, -⟩ := hcount
    · simp [← h.fsm, hf] at hg
    · omega
    · simp [← h.fsm, hf] at hg
  | startLatch => exact ⟨{ sent with }, ⟨inv, rfl, nofun, rfl, rfl, approaching.teif, rfl, le_rfl⟩⟩
  | finish hf => simp [← h.fsm, hf] at hg

/-- In the middle of the latch buffer nothing but the count happens (R107). -/
theorem Raised.countsInLatch (h : Raised .latch .ht d) (own : ReadsOwn s .latch d) (hsmall : d.sent.toNat + 2 < 2 ^ 32) :
    ∃ e, EagerStep s d e ∧ Progress 0 1 d e ∧ Approaching .latch .tc (halfLength .latch) e := by
  obtain ⟨e, ho⟩ := h.exists_onData hc own
  refine ⟨e, h.eagerStep ho, ?_⟩
  cases onData_cases ho with
  | refill hf => cases h.fsm.symm.trans hf
  | count => exact h.counted hsmall
  | startLatch hf => simp [h.fsm] at hf
  | finish _ hne => cases hne

/-- At its end the frame is finished (R107, R110). -/
theorem Raised.finishes (h : Raised .latch .tc d) (own : ReadsOwn s .latch d) (hsmall : d.sent.toNat + 2 < 2 ^ 32) :
    ∃ e, EagerStep s d e ∧ e.fsm = .idle ∧ e.sent.toNat = d.sent.toNat + 2 ∧ e.out = d.out ++ [OutItem.dis, .cb .complete] := by
  obtain ⟨e, ho⟩ := h.exists_onData hc own
  refine ⟨e, h.eagerStep ho, ?_⟩
  cases onData_cases ho with
  | refill hf => cases h.fsm.symm.trans hf
  | count hcount => simp [h.fsm] at hcount
  | startLatch hf => simp [h.fsm] at hf
  | finish => exact ⟨finish_fsm _, sent_add_two_toNat hsmall, by simp⟩

/-! ### The phases of a frame -/

/-- Half a buffer of data: 48 beats and an invocation, which goes on with the frame or starts the latch (R116). -/
theorem Approaching.halfBuffer (h : Approaching g f 48 d) (own : ReadsOwn s g d) (hg : g = .transfer ∨ g = .reset)
    (hremains : d.sent.toNat < d.total.toNat) :
    ∃ e, EagerRun s 49 d e ∧ Progress 48 1 d e ∧
      (d.sent.toNat + 2 < d.total.toNat → Approaching g f.other 48 e) ∧
      (d.total.toNat ≤ d.sent.toNat + 2 → Approaching .latch .ht 24 e) := by
  obtain ⟨mid, beats, sent, raised⟩ := h.run (s := s)
  have own' := own.of_progress sent
  have htotal : mid.total.toNat = d.total.toNat := congrArg _ sent.total
  have hsent : mid.sent.toNat = d.sent.toNat := sent.sent
  have hlimit : d.total.toNat ≤ 2 ^ 30 := own.total_le hc h.inv
  have hhalf : halfLength g = 48 := by obtain rfl | rfl := hg <;> rfl
  by_cases hleft : d.sent.toNat + 2 < d.total.toNat
  · obtain ⟨e, service, counted, approaching⟩ := raised.continues hc own' hg (by omega)
    exact ⟨e, beats.trans service.run, sent.trans counted, fun _ => hhalf ▸ approaching, fun hdone => by omega⟩
  · obtain ⟨e, service, counted, latch⟩ := raised.startsLatch hc own' hg (by omega) (by omega)
    exact ⟨e, beats.trans service.run, sent.trans counted, fun hleft' => absurd hleft' hleft, fun _ => latch⟩

/-- The data phase: `k + 1` half buffers. -/
theorem Approaching.dataPhase {k : Nat} (h : Approaching g f 48 d) (own : ReadsOwn s g d) (hg : g = .transfer ∨ g = .reset)
    (hleft : d.sent.toNat + 2 * k < d.total.toNat) (hdone : d.total.toNat ≤ d.sent.toNat + 2 * (k + 1)) :
    ∃ e, EagerRun s (49 * (k + 1)) d e ∧ Progress (48 * (k + 1)) (k + 1) d e ∧ Approaching .latch .ht 24 e := by
  induction k generalizing d f with
  | zero =>
    obtain ⟨e, run, sent, -, latch⟩ := h.halfBuffer hc own hg hleft
    exact ⟨e, run, sent, latch hdone⟩
  | succ k ih =>
    obtain ⟨mid, run, sent, next, -⟩ := h.halfBuffer hc own hg (by omega)
    have htotal : mid.total.toNat = d.total.toNat := congrArg _ sent.total
    have hsent := sent.sent
    obtain ⟨e, run', sent', latch⟩ := ih (next (by omega)) (own.of_progress sent) (by omega) (by omega)
    refine ⟨e, ?_, ?_, latch⟩
    · rw [Nat.mul_succ, Nat.add_comm]
      exact run.trans run'
    · rw [Nat.mul_succ, Nat.add_comm, Nat.add_comm (k + 1)]
      exact sent.trans sent'

/-- The latch phase: the 48 codewords of the latch buffer, an invocation in the middle and one at the end (R107, R110). -/
theorem Approaching.latchPhase (h : Approaching .latch .ht 24 d) (own : ReadsOwn s .latch d)
    (hsmall : d.sent.toNat + 4 < 2 ^ 32) :
    ∃ e, EagerRun s 50 d e ∧ e.fsm = .idle ∧ e.sent.toNat = d.sent.toNat + 4 ∧
      ∃ cws : List Half16, cws.length = 48 ∧ e.out = d.out ++ cws.map .cw ++ [OutItem.dis, .cb .complete] := by
  obtain ⟨d₁, beats₁, sent₁, middle⟩ := h.run (s := s)
  have hsent₁ : d₁.sent.toNat = d.sent.toNat := sent₁.sent
  obtain ⟨d₂, service₁, counted, again⟩ := middle.countsInLatch hc (own.of_progress sent₁) (by omega)
  obtain ⟨d₃, beats₂, sent₂, last⟩ := again.run (s := s)
  have half := sent₁.trans counted
  have sent := half.trans sent₂
  have hsent : d₃.sent.toNat = d.sent.toNat + 2 := sent.sent
  obtain ⟨e, service₂, hidle, hcount, hout⟩ := last.finishes hc (own.of_progress sent) (by omega)
  obtain ⟨cws, hlen, hcws⟩ := sent.out
  refine ⟨e, ((beats₁.trans service₁.run).trans beats₂).trans service₂.run, hidle, by omega, cws, hlen, ?_⟩
  rw [hout, hcws]

end

end

/-! ### The statements -/

/-- Settles O57: a service leaves the underrun bit alone, and a beat is taken only while no flag is pending. -/
theorem eagerScheduleNeverUnderruns : Obligations.EagerScheduleNeverUnderruns := by
  intro s dev d inv hi hc hd
  have invD : DeviceInv true d := hi ▸ inv d (State.mem_devs_of_dev? hd)
  constructor
  · constructor
    · intro hnone
      by_contra hf
      cases hp : pendingFlag d with
      | some f => cases (eagerTurn_of_pending hd hi hp).symm.trans hnone
      | none => cases (eagerTurn_of_beat hd hi hp hf (invD.inFlight hf).1).symm.trans hnone
    · intro hf
      exact eagerTurn_of_idle hd hi (pendingFlag_of_idle invD hf) hf
  · intro turn t e hturn hstep he
    exact (eagerStep_of_step hc hi hd hturn hstep he).underrun invD

/-- Settles O58: the data phase takes `p` half buffers, and the latch phase follows. -/
theorem eagerFrameCounts : Obligations.EagerFrameCounts := by
  intro s dev d p inv hi hc hd hf own hpos hsent hrd hht htc hte hp
  have hmem := State.mem_devs_of_dev? hd
  have invD : DeviceInv true d := hi ▸ inv d hmem
  have ownD : ReadsOwn s d.fsm d := ⟨List.mem_map_of_mem hmem, own⟩
  have hlimit : d.total.toNat ≤ 2 ^ 30 := ownD.total_le hc invD
  have hsent0 : d.sent.toNat = 0 := by rw [hsent]; rfl
  obtain ⟨k, rfl⟩ : ∃ k, p = k + 1 := ⟨p - 1, by omega⟩
  have start : Approaching d.fsm .ht 48 d := by
    refine ⟨invD, rfl, ?_, hht, htc, hte, ?_, ?_⟩ <;> obtain hf | hf := hf <;> simp [hf, hrd, raisedAt, halfLength]
  obtain ⟨mid, run₁, sent, latch⟩ := start.dataPhase hc ownD hf (k := k) (by omega) (by omega)
  have hmid := sent.sent
  obtain ⟨e, run₂, hidle, hcount, cws₂, hlen₂, hout₂⟩ :=
    latch.latchPhase hc ⟨(ownD.of_progress sent).config, nofun⟩ (by omega)
  obtain ⟨cws₁, hlen₁, hout₁⟩ := sent.out
  have run := run₁.trans run₂
  have hn : 48 * (k + 1) + 48 + (k + 1 + 2) = 49 * (k + 1) + 50 := by ring
  refine ⟨s.putDev dev e, e, cws₁ ++ cws₂, ?_, rfl, othersSame_of_devs_putDev rfl, State.putDev_dev?_same e hd, hidle,
    by omega, run.underrun hi invD, by simp [hlen₁, hlen₂], by simp [hout₂, hout₁]⟩
  rw [hn]
  exact runEager_of_eagerRun run hc hi hd

end Sys2Proof.Machine
end

section
/-! PROOFS. The driver commands (40_driver_commands.md). Each command asks its checks first, so what it does is said once for checks
that pass and once for checks that fail; what is left to each statement is which checks pass, and the device it leaves as one record.
`SET` also needs what the encoder puts into a half (`holdsLeds_writeHalf_same`) and that the other half keeps its codewords. -/

namespace Sys2Proof.Machine

open Sys2Proof Sys2Proof.Safety

/-! ### What a well-formed configuration says of a device (R5, R6) -/

theorem cfg_wellFormed_of_mem {s : State} {d : Device} (hc : s.config.WellFormed) (hd : d ∈ s.devs) : d.cfg.WellFormed := by
  obtain ⟨-, hbounds, -⟩ := hc
  exact hbounds d.cfg (List.mem_map_of_mem hd)

/-- An LED count within its bounds is not truncated to a word (R7, R73). -/
theorem ledMax_toNat_ofNat {c : DevConfig} (hc : c.WellFormed) : (BitVec.ofNat 32 c.ledMax).toNat = c.ledMax := by
  obtain ⟨⟨-, hmax⟩, -⟩ := hc
  simp only [ledLimit] at hmax
  rw [BitVec.toNat_ofNat, Nat.mod_eq_of_lt (by omega)]

/-! ### The tick counts of INIT (R70, R81) -/

theorem symbolsOfTicks_toNat {T : Nat} (hT : T ≤ 65535) :
    (symbolsOfTicks T).hval.toNat = 17 * T / 25 ∧ (symbolsOfTicks T).lval.toNat = 8 * T / 25 := by
  simp only [symbolsOfTicks, BitVec.toNat_ofNat]
  omega

/-- Four ticks are the least number that INIT accepts. -/
theorem tickCountsUsable_iff {c : DevConfig} (hT : c.ticks ≤ 65535) : tickCountsUsable c = true ↔ 4 ≤ c.ticks := by
  obtain ⟨hh, hl⟩ := symbolsOfTicks_toNat hT
  simp only [tickCountsUsable, tickCounts, hh, hl, Bool.and_eq_true, decide_eq_true_eq]
  omega

/-! ### INIT (R70) -/

section

variable {s : State}

theorem exec_init_of_inited (hi : s.inited = true) : exec .init s = .next (s.withRes 1) := if_pos hi

theorem exec_init_of_usable (hi : s.inited = false) (hu : ∀ d ∈ s.devs, tickCountsUsable d.cfg = true) :
    exec .init s =
      .next { s with devs := s.devs.map initDevice, pix := zeroBuffers s.devs s.pix, inited := true, res := 1 } := by
  simp only [exec, execInit, hi, List.all_eq_true.2 hu, Bool.false_eq_true, if_false, if_true]

theorem exec_init_of_not_usable (hi : s.inited = false) {d : Device} (hd : d ∈ s.devs)
    (hu : ¬ tickCountsUsable d.cfg = true) : exec .init s = .next (s.withRes 0) := by
  have hall : ¬ (s.devs.all fun d => tickCountsUsable d.cfg) = true := fun h => hu (List.all_eq_true.1 h d hd)
  simp only [exec, execInit, hi, hall, Bool.false_eq_true, if_false, State.fail]

end

/-! ### The checks, in the order of R74 -/

section

variable {s : State} {dev : Byte} {d : Device} {base count : Word} {r : FailReason}

theorem requireInited_of_some (h : s.dev? dev = some d) :
    requireInited s dev = if s.inited = false then .error .notInitialised else .ok d := by
  cases hi : s.inited <;> simp [requireInited, requireDevice, h, hi]

theorem requireIdle_of_some (h : s.dev? dev = some d) :
    requireIdle s dev =
      if s.inited = false then .error .notInitialised else if d.fsm ≠ .idle then .error .notIdle else .ok d := by
  rw [requireIdle, requireInited_of_some h]
  by_cases hi : s.inited = false
  · simp only [if_pos hi]
  · by_cases hf : d.fsm = .idle <;> simp only [if_neg hi, hf, ne_eq, not_true, not_false_eq_true, if_true, if_false]

theorem checkSet_of_none (h : s.dev? dev = none) : checkSet s dev base count = .error .badDevice := by
  simp only [checkSet, requireIdle_of_none h]

theorem checkSet_of_some (h : s.dev? dev = some d) :
    checkSet s dev base count =
      if s.inited = false then .error .notInitialised
      else if d.fsm ≠ .idle then .error .notIdle
      else if base = 0 then .error .nullBuffer
      else if count = 0 then .error .zeroLength
      else if d.cfg.ledMax < count.toNat then .error .oversize
      else .ok d := by
  rw [checkSet, requireIdle_of_some h]
  by_cases hi : s.inited = false
  · simp only [if_pos hi]
  · by_cases hf : d.fsm ≠ .idle
    · simp only [if_neg hi, if_pos hf]
    · simp only [if_neg hi, if_neg hf]

/-! ### A command whose checks pass, and one whose checks fail (R130) -/

theorem exec_set_of_error (h : checkSet s dev base count = .error r) :
    exec (.set dev base count) s = .next (s.withRes 0) := by
  simp only [exec, execSet, h, State.fail]

theorem exec_reset_of_ok (h : requireIdle s dev = .ok d) :
    exec (.reset dev) s = .next ((s.putDev dev (forceReset d)).withRes 1) := by
  simp only [exec, execReset, h]

theorem exec_reset_of_error (h : requireIdle s dev = .error r) : exec (.reset dev) s = .next (s.withRes 0) := by
  simp only [exec, execReset, h, State.fail]

theorem exec_getLedCount_of_ok (h : requireInited s dev = .ok d) :
    exec (.getLedCount dev) s = .next (s.withRes (BitVec.ofNat 32 d.cfg.ledMax)) := by
  simp only [exec, execGetLedCount, h]

theorem exec_getLedCount_of_error (h : requireInited s dev = .error r) :
    exec (.getLedCount dev) s = .next (s.withRes 0) := by
  simp only [exec, execGetLedCount, h, State.fail]

end

/-! ### What the encoder puts into a half (R82) -/

section

variable {s : State} {d : Device} {first : Nat} {new : Nat → Half16} {cw : Vector Half16 96}

/-- A half's codeword at LED slot `k`, byte slot `c`, bit slot `b`. -/
theorem codewordOf_slot {k c b : Nat} (hc : c < 3) (hb : b < 8) :
    codewordOf s d first (24 * k + 8 * c + b) =
      if first + k < d.total.toNat then
        (if serialBit s d.pixBase.toNat (first + k) c b then d.hval else d.lval)
      else 0 := by
  have hled : (24 * k + 8 * c + b) / 24 = k := by omega
  have hbyte : (24 * k + 8 * c + b) % 24 / 8 = c := by omega
  have hbit : (24 * k + 8 * c + b) % 8 = b := by omega
  have hoffset : channelOffset c = [1, 0, 2].getD c 0 := by interval_cases c <;> rfl
  rw [codewordOf, hled, hbyte, hbit, sentAddr, hoffset]
  rfl

theorem holdsLeds_writeHalf_same (h : Half) :
    HoldsLeds s d (halfIndex h) first (writeHalf h (codewordOf s d first) cw) := by
  intro k c b hk hc hb
  have hhalf : halfIndex h < 2 := by cases h <;> decide
  have hslot : (48 * halfIndex h + 24 * k + 8 * c + b) % 48 = 24 * k + 8 * c + b := by omega
  rw [writeHalf_getElem?, if_pos (by omega), hslot, codewordOf_slot hc hb]

theorem holdsLeds_writeHalf_other {h : Half} {i : Nat} (hi : i ≠ halfIndex h) (held : HoldsLeds s d i first cw) :
    HoldsLeds s d i first (writeHalf h new cw) := by
  intro k c b hk hc hb
  rw [writeHalf_getElem?, if_neg (by omega)]
  exact held k c b hk hc hb

end

/-! ### Devices as one record -/

theorem zeroCodewords_eq_replicate (n : Nat) : zeroCodewords n = Vector.replicate n 0 :=
  Vector.toArray_inj.1 (by simp)

/-- `ForceReset` of a device at rest aborts nothing (R111). -/
theorem forceReset_of_disabled {d : Device} (hch : d.chEn = false) (hdma : d.dmaEn = false) :
    forceReset d =
      { d with
        cw := Vector.replicate 96 0, total := BitVec.ofNat 32 d.cfg.ledMax, sent := 0
        dmaSrc := .cwbuf, dmaLen := 96, dmaRd := 0, dmaEn := true
        htif := false, tcif := false, teif := false, htie := true, tcie := true, teie := true
        chEn := true, out := d.out ++ [OutItem.en], fsm := .reset } := by
  apply Device.ext_fields <;> simp [hch, hdma, zeroCodewords_eq_replicate]

/-! ### The statements -/

/-- Settles O15: four ticks make the tick counts usable, and the buffers are zeroed device by device. -/
theorem initCompletes : Obligations.InitCompletes := by
  intro s hi hticks
  have usable : ∀ d ∈ s.devs, tickCountsUsable d.cfg = true := fun d hd =>
    (tickCountsUsable_iff (hticks d hd).2).2 (hticks d hd).1
  refine ⟨_, exec_init_of_usable hi usable, rfl, ?_, fun d hd a hlo hhi => ?_, fun a hout => ?_⟩
  · rw [← zeroCodewords_eq_replicate]
    rfl
  · exact (zeroBuffers_read a s.devs s.pix).trans
      (if_pos (List.any_eq_true.2 ⟨d, hd, DevConfig.owns_iff.2 ⟨hlo, hhi⟩⟩))
  · refine (zeroBuffers_read a s.devs s.pix).trans (if_neg fun hany => ?_)
    obtain ⟨d, hd, howns⟩ := List.any_eq_true.1 hany
    exact hout d hd (DevConfig.owns_iff.1 howns)

/-- Settles O17: half 1 is written last and leaves what half 0 was given. -/
theorem setCompletes : Obligations.SetCompletes := by
  intro s dev d base count ha hlow hhigh
  have readLow : halfReadable s (setBuffer base count d) 0 = true := halfReadable_iff.2 hlow
  have readHigh : halfReadable s (setBuffer base count d) 2 = true := halfReadable_iff.2 hhigh
  refine ⟨_, exec_set_of_startSet_ok ha (startSet_ok.2 ⟨readLow, readHigh, rfl⟩), ?_, ?_⟩
  · exact holdsLeds_writeHalf_other (h := .h1) (d := setBuffer base count d) nofun (holdsLeds_writeHalf_same .h0)
  · exact holdsLeds_writeHalf_same (d := setBuffer base count d) .h1

/-- Settles O16: fewer than four ticks on one device are enough for INIT to fail. -/
theorem initChangesNothing : Obligations.InitChangesNothing := by
  refine ⟨fun s hi => exec_init_of_inited hi, fun s hi ⟨d, hd, hticks⟩ => exec_init_of_not_usable hi hd ?_⟩
  rw [tickCountsUsable_iff (by omega)]
  omega

/-- Settles O18. -/
theorem setRejects : Obligations.SetRejects := fun _ _ _ _ =>
  ⟨checkSet_of_none, fun _ => checkSet_of_some, fun _ => exec_set_of_error⟩

/-- Settles O22: the checks pass, and there is nothing to abort. -/
theorem resetCompletes : Obligations.ResetCompletes := by
  intro s dev d ⟨hdev, hi⟩ hf hch hdma
  rw [exec_reset_of_ok (requireIdle_ok.2 ⟨hdev, hi, hf⟩), forceReset_of_disabled hch hdma]
  rfl

/-- Settles O23: checks that pass exclude each of the three cases. -/
theorem resetRejects : Obligations.ResetRejects := by
  intro s dev hbad
  cases hcheck : requireIdle s dev with
  | error r => exact exec_reset_of_error hcheck
  | ok d =>
    obtain ⟨hdev, hi, hf⟩ := requireIdle_ok.1 hcheck
    obtain hnone | hnot | ⟨e, he, hbusy⟩ := hbad
    · cases hnone.symm.trans hdev
    · cases hnot.symm.trans hi
    · cases he.symm.trans hdev
      exact absurd hf hbusy

/-- Settles O24: the count of a well-formed configuration is at least 1 and fits in a word. -/
theorem getLedCountAnswers : Obligations.GetLedCountAnswers := by
  refine ⟨fun s dev d hready => exec_getLedCount_of_ok (requireInited_ok.2 hready), fun s dev hbad => ?_,
    fun s dev d hc hdev => ?_⟩
  · cases hcheck : requireInited s dev with
    | error r => exact exec_getLedCount_of_error hcheck
    | ok d =>
      obtain ⟨hdev, hi⟩ := requireInited_ok.1 hcheck
      obtain hnone | hnot := hbad
      · cases hnone.symm.trans hdev
      · cases hnot.symm.trans hi
  · have wf := cfg_wellFormed_of_mem hc (State.mem_devs_of_dev? hdev)
    have count := ledMax_toNat_ofNat wf
    obtain ⟨⟨hpos, -⟩, -⟩ := wf
    refine ⟨count, fun hzero => ?_⟩
    have : d.cfg.ledMax = 0 := count.symm.trans (congrArg BitVec.toNat hzero)
    omega

end Sys2Proof.Machine
end

section
/-! PROOFS. The double buffer between the handler and the reader (41_encoder.md, R87, R88). All of it rests on one account of a beat in
`Transfer` that records no underrun (`ReaderMove`): the reader goes on in its half, or crosses into the other one while no data flag is
pending. So the handler always refills the half the reader is not in (`vacatedHalf_of_pendingFlag`). -/

namespace Sys2Proof.Machine

open Sys2Proof Sys2Proof.Safety

/-! ### The step of a turn, and the flag it services -/

theorem stepEffect_of_nextTurn {s t : State} {turn : Turn} {ts : List Turn} (hn : NextTurn s turn ts)
    (h : step s = .next t) : StepEffect s turn t :=
  (runTurn_effect ((step_eq hn).symm.trans h)).of_sched

/-- A data flag, by its name (R21). -/
def DataFlag.isPending (f : DataFlag) (d : Device) : Bool :=
  match f with
  | .ht => d.htif
  | .tc => d.tcif

/-- The handler services no flag that is not pending (R100); only an `EVT` word put in does. -/
theorem pendingFlag_of_servicedFlag {s : State} {k : Nat} {d : Device} {turn : Turn} {f : Flag}
    (hturn : ∀ w : Half16, turn ≠ .evt w) (h : servicedFlag s k d turn = some f) : pendingFlag d = some f := by
  cases turn with
  | host => cases h
  | beat => cases h
  | fault => cases h
  | evt w => exact absurd rfl (hturn w)
  | isr dev =>
    simp only [servicedFlag, takeInterrupt] at h
    split_ifs at h
    exact h

theorem isPending_of_pendingFlag {d : Device} {f : DataFlag} (h : pendingFlag d = some f.toFlag) : f.isPending d = true := by
  unfold pendingFlag at h
  split_ifs at h with _ hht htc
  · cases f <;> cases h
  · cases f with
    | ht => exact (Bool.and_eq_true_iff.1 hht).1
    | tc => cases h
  · cases f with
    | ht => cases h
    | tc => exact (Bool.and_eq_true_iff.1 htc).1

/-- A step that records no underrun found none recorded (R23). -/
theorem KeepsHistory.underrun_eq_false {inited : Bool} {d e : Device} (h : KeepsHistory inited d e)
    (hu : e.underrun = false) : d.underrun = false :=
  Bool.eq_false_iff.2 fun hd => Bool.eq_false_iff.1 hu (h.underrun hd)

/-! ### A beat -/

/-- A codeword on its way to the compare register, in one record (R35, R91). -/
theorem deliver_eq (v : Half16) (d : Device) :
    deliver v d = { d with ccr := v, out := if d.chEn then d.out ++ [.cw v] else d.out } := by
  unfold deliver
  split <;> rfl

section

variable {s : State} {d e : Device}

/-- A beat of a device in flight, in one record (R91, R92, R98). -/
theorem eq_of_beatDevice (inv : DeviceInv true d) (hf : d.fsm ≠ .idle) (hb : beatDevice d = .ok e) :
    ∃ v, fetchCodeword d = some v ∧ e =
      { d with
        ccr := v
        out := d.out ++ [.cw v]
        dmaRd := if d.dmaRd.toNat + 1 = d.dmaLen.toNat then 0 else d.dmaRd + 1
        htif := d.htif || decide (d.dmaRd.toNat + 1 = d.dmaLen.toNat / 2)
        tcif := d.tcif || decide (d.dmaRd.toNat + 1 = d.dmaLen.toNat)
        underrun := d.underrun || (decide (d.fsm = .transfer) && (d.htif || d.tcif) &&
          (decide (d.dmaRd.toNat + 1 = d.dmaLen.toNat / 2) || decide (d.dmaRd.toNat + 1 = d.dmaLen.toNat))) } := by
  obtain ⟨-, hch, -⟩ := inv.inFlight hf
  have hnext := dmaRd_succ_toNat inv
  have hne : d.dmaRd + 1 ≠ 0 := fun h0 => by rw [h0] at hnext; cases hnext
  have hend : d.dmaRd + 1 = d.dmaLen ↔ d.dmaRd.toNat + 1 = d.dmaLen.toNat := by rw [← BitVec.toNat_inj, hnext]
  have hmid : d.dmaRd + 1 = d.dmaLen / 2 ↔ d.dmaRd.toNat + 1 = d.dmaLen.toNat / 2 := by
    rw [← BitVec.toNat_inj, hnext, BitVec.toNat_udiv]; rfl
  obtain ⟨v, hv, rfl⟩ := beatDevice_ok hb
  refine ⟨v, hv, ?_⟩
  rw [deliver_eq, advanceReader_eq (by exact hne)]
  simp only [hend, hmid, hch, if_true]

/-- Where a beat in `Transfer` takes the reader when no refill is late (R91, R92, R98). -/
inductive ReaderMove (d e : Device) : Prop
  /-- It goes on in its half, and the data flags stay as they were. -/
  | within : (d.dmaRd.toNat + 1) / 48 = d.dmaRd.toNat / 48 → e.dmaRd.toNat = d.dmaRd.toNat + 1 →
      e.htif = d.htif → e.tcif = d.tcif → ReaderMove d e
  /-- It crosses into the other half while no data flag is pending, and raises that of the half it has left. -/
  | cross : d.dmaRd.toNat % 48 = 47 → e.dmaRd.toNat = 48 * (1 - d.dmaRd.toNat / 48) →
      d.htif = false → d.tcif = false → e.htif = decide (48 ≤ e.dmaRd.toNat) → e.tcif = decide (e.dmaRd.toNat < 48) →
      ReaderMove d e

theorem readerMove_of_beatDevice (inv : DeviceInv true d) (hf : d.fsm = .transfer) (hb : beatDevice d = .ok e)
    (hu : e.underrun = false) : ReaderMove d e := by
  have hlen : d.dmaLen.toNat = 96 := by rw [(inv.codewordBuffer (.inl hf)).2]; rfl
  have hlt := inv.reader
  have hnext := dmaRd_succ_toNat inv
  obtain ⟨v, -, rfl⟩ := eq_of_beatDevice inv (by rw [hf]; nofun) hb
  rw [hlen] at hlt
  simp only [hlen, hf, decide_true, Bool.true_and, Bool.or_eq_false_iff, Bool.and_eq_false_iff,
    decide_eq_false_iff_not] at hu
  obtain ⟨-, hlate⟩ := hu
  have hread : (if d.dmaRd.toNat + 1 = d.dmaLen.toNat then (0 : Half16) else d.dmaRd + 1).toNat =
      if d.dmaRd.toNat + 1 = 96 then 0 else d.dmaRd.toNat + 1 := by
    rw [apply_ite BitVec.toNat, hnext, hlen]
    rfl
  by_cases hcross : d.dmaRd.toNat + 1 = 48 ∨ d.dmaRd.toNat + 1 = 96
  · obtain ⟨hht, htc⟩ := hlate.resolve_right (by omega)
    refine .cross (by omega) (hread.trans (by split <;> omega)) hht htc ?_ ?_
    · simp only [hread, hht, Bool.false_or, decide_eq_decide]
      split <;> omega
    · simp only [hread, htc, Bool.false_or, decide_eq_decide]
      split <;> omega
  · obtain ⟨hmid, hend⟩ := not_or.1 hcross
    refine .within (by omega) (hread.trans (if_neg hend)) ?_ ?_
    · simp [hlen, hmid]
    · simp [hlen, hend]

/-! ### The double buffer (R87, R88) -/

/-- The error flag is none of the rule's. -/
theorem doubleBuffer_raiseError (h : DoubleBuffer d) : DoubleBuffer (raiseError d) := h

theorem doubleBuffer_clearError (h : DoubleBuffer d) : DoubleBuffer (clearError d) := h

/-- Outside `Transfer` the rule asks nothing. -/
theorem doubleBuffer_of_not_transfer (hf : d.fsm ≠ .transfer) : DoubleBuffer d := fun ht => absurd ht hf

/-- A pending flag may be cleared. -/
theorem doubleBuffer_countPair_clearData (flag : DataFlag) (h : DoubleBuffer d) :
    DoubleBuffer (countPair (clearData flag d)) := by
  intro hf hu
  cases flag with
  | ht =>
    obtain ⟨-, -, htc⟩ := h hf hu
    exact ⟨by simp, by simp, htc⟩
  | tc =>
    obtain ⟨-, hht, -⟩ := h hf hu
    exact ⟨by simp, hht, by simp⟩

theorem doubleBuffer_of_onData {flag : DataFlag} (h : DoubleBuffer d) (ho : onData s flag d = .ok e) : DoubleBuffer e := by
  have counted := doubleBuffer_countPair_clearData flag h
  cases onData_cases ho with
  | refill => exact counted
  | startLatch => exact doubleBuffer_of_not_transfer (by simp)
  | count => exact counted
  | finish => exact doubleBuffer_of_not_transfer (by simp)

theorem doubleBuffer_onError (b : Bool) (h : DoubleBuffer d) : DoubleBuffer (onError b d) := by
  cases b with
  | false => exact doubleBuffer_clearError h
  | true => exact doubleBuffer_of_not_transfer (by simp [onError])

/-- A reader that stays in its half stays out of the vacated one; when it crosses, the vacated half is the one it leaves. -/
theorem doubleBuffer_of_beatDevice (inv : DeviceInv true d) (hne : d.fsm ≠ .idle) (h : DoubleBuffer d)
    (hb : beatDevice d = .ok e) : DoubleBuffer e := by
  intro hf hu
  have hfsm : e.fsm = d.fsm := by obtain ⟨v, -, rfl⟩ := eq_of_beatDevice inv hne hb; rfl
  have hud := (keepsHistory_of_beatDevice (inited := true) hb).underrun_eq_false hu
  obtain ⟨hone, hht, htc⟩ := h (hfsm ▸ hf) hud
  cases readerMove_of_beatDevice inv (hfsm ▸ hf) hb hu with
  | within hside hrd hht' htc' =>
    rw [hht', htc', hrd]
    exact ⟨hone, fun hp => by have := hht hp; omega, fun hp => by have := htc hp; omega⟩
  | cross _ _ _ _ hht' htc' =>
    rw [hht', htc']
    simp only [decide_eq_true_eq]
    omega

theorem doubleBuffer_of_turnMove {turn : Turn} {k : Nat} (m : TurnMove s turn k d e) (inv : DeviceInv s.inited d)
    (h : DoubleBuffer d) : DoubleBuffer e := by
  cases m with
  | set _ _ _ _ hs =>
    obtain ⟨-, -, rfl⟩ := startSet_ok.1 hs
    intro _ _
    simp
  | reset => exact doubleBuffer_of_not_transfer (by simp)
  | data _ ho => exact doubleBuffer_of_onData h ho
  | error => exact doubleBuffer_onError s.inited h
  | beat _ _ hen hb =>
    have hf : d.fsm ≠ .idle := by simpa [hen] using (enables_eq_of_deviceInv inv).1
    exact doubleBuffer_of_beatDevice (inited_of_inFlight inv hf ▸ inv) hf h hb
  | fault => exact doubleBuffer_raiseError h

theorem StepEffect.keepsDoubleBuffer {t : State} {turn : Turn} (effect : StepEffect s turn t) (inv : BlockInv s)
    (h : ∀ d ∈ s.devs, DoubleBuffer d) : ∀ e ∈ t.devs, DoubleBuffer e := by
  intro e he
  obtain ⟨k, hk, rfl⟩ := List.mem_iff_getElem.1 he
  have hd := List.getElem?_eq_getElem (effect.length ▸ hk : k < s.devs.length)
  have hmem := List.mem_of_getElem? hd
  obtain ⟨-, heq⟩ | ⟨-, -, -, heq, -⟩ | ⟨-, -, -, m⟩ := step_device effect hd (List.getElem?_eq_getElem hk)
  · rw [heq]; exact h _ hmem
  · rw [heq]; exact doubleBuffer_of_not_transfer (by simp)
  · exact doubleBuffer_of_turnMove m (inv _ hmem) (h _ hmem)

/-- The handler refills the half the reader is not in. -/
theorem vacatedHalf_of_pendingFlag {flag : DataFlag} (inv : DeviceInv true d) (h : DoubleBuffer d) (hf : d.fsm = .transfer)
    (hu : d.underrun = false) (hp : pendingFlag d = some flag.toFlag) :
    halfIndex (vacatedHalf flag) = 1 - d.dmaRd.toNat / 48 := by
  have hlt : d.dmaRd.toNat < 96 := by simpa [(inv.codewordBuffer (.inl hf)).2] using inv.reader
  have hpending := isPending_of_pendingFlag hp
  obtain ⟨-, hht, htc⟩ := h hf hu
  cases flag with
  | ht =>
    have := hht hpending
    simp only [vacatedHalf, halfIndex]
    omega
  | tc =>
    have := htc hpending
    simp only [vacatedHalf, halfIndex]
    omega

end

/-! ### The statements -/

/-- Settles O51: each kind of move keeps the rule of its device, and `step_device` says that there are no others. -/
theorem stepKeepsDoubleBuffer : Obligations.StepKeepsDoubleBuffer := by
  intro s t inv h hstep
  obtain ⟨-, ⟨-, rfl⟩ | ⟨turn, ts, -, -, effect⟩⟩ := step_effect hstep
  · exact h
  · exact effect.keepsDoubleBuffer inv h

/-- Settles O52: a refill writes the half the reader is not in, and every other service ends the transfer. -/
theorem encoderAvoidsReader : Obligations.EncoderAvoidsReader := by
  intro s t ts dev d e inv hdb hn ⟨hd, hf⟩ hu hstep he hfe
  have invD := inv d (State.mem_devs_of_dev? hd)
  have hi := inited_of_inFlight invD (by rw [hf]; nofun)
  obtain ⟨-, rfl⟩ | ⟨-, -, -, -, hhost, -⟩ | ⟨-, -, -, m⟩ := step_device (stepEffect_of_nextTurn hn hstep) hd he
  · exact ⟨rfl, rfl⟩
  · cases hhost
  · cases m with
    | set hhost => cases hhost
    | reset hhost => cases hhost
    | beat hbeat => cases hbeat
    | fault hfault => cases hfault
    | error => simp [onError, hi] at hfe
    | @data flag _ hserviced ho =>
      have hp := pendingFlag_of_servicedFlag (by simp) hserviced
      have hside := vacatedHalf_of_pendingFlag (hi ▸ invD) hdb hf hu hp
      cases onData_cases ho with
      | startLatch => simp at hfe
      | finish => simp at hfe
      | count hcount => simp [hf] at hcount
      | refill =>
        refine ⟨by cases flag <;> rfl, ?_⟩
        simp only [setHalf_cw, setCw_cw]
        rw [writeHalf_getElem?, if_neg (by omega)]

end Sys2Proof.Machine
end

section
/-! PROOFS. The encoder's data (41_encoder.md): the tick counts, the three codewords, and the data stream of a transfer (R82, R89). A
half of the double buffer is filled with 48 codewords of the stream (`codewordOf_eq_streamCodeword`), so a `SET` leaves the first 96 of
them there (`cw_of_startSet`). -/

namespace Sys2Proof.Machine

open Sys2Proof Sys2Proof.Safety

/-! ### Clearing a data flag changes nothing else -/

@[simp] theorem clearData_pixBase (flag : DataFlag) (d : Device) : (clearData flag d).pixBase = d.pixBase := by
  cases flag <;> rfl
@[simp] theorem clearData_total (flag : DataFlag) (d : Device) : (clearData flag d).total = d.total := by cases flag <;> rfl
@[simp] theorem clearData_sent (flag : DataFlag) (d : Device) : (clearData flag d).sent = d.sent := by cases flag <;> rfl
@[simp] theorem clearData_hval (flag : DataFlag) (d : Device) : (clearData flag d).hval = d.hval := by cases flag <;> rfl
@[simp] theorem clearData_lval (flag : DataFlag) (d : Device) : (clearData flag d).lval = d.lval := by cases flag <;> rfl
@[simp] theorem clearData_dmaRd (flag : DataFlag) (d : Device) : (clearData flag d).dmaRd = d.dmaRd := by cases flag <;> rfl
@[simp] theorem clearData_out (flag : DataFlag) (d : Device) : (clearData flag d).out = d.out := by cases flag <;> rfl

/-! ### The data stream (R82, R89) -/

section

variable {s t : State} {d e : Device}

/-- What the encoder puts into a half is a piece of the stream. -/
theorem codewordOf_eq_streamCodeword (s : State) (d : Device) (first j : Nat) :
    codewordOf s d first j = streamCodeword s d (24 * first + j) := by
  have slot := codewordOf_slot (s := s) (d := d) (first := first) (k := j / 24) (c := j % 24 / 8) (b := j % 8)
    (by omega) (by omega)
  have hj : 24 * (j / 24) + 8 * (j % 24 / 8) + j % 8 = j := by omega
  have hled : (24 * first + j) / 24 = first + j / 24 := by omega
  have hbyte : (24 * first + j) % 24 = j % 24 := by omega
  have hbit : (24 * first + j) % 8 = j % 8 := by omega
  rw [hj] at slot
  rw [slot, streamCodeword, hled, hbyte, hbit]

/-- What the stream of a transfer depends on, beside the pixels. -/
structure SameTransfer (d e : Device) : Prop where
  pixBase : e.pixBase = d.pixBase
  total : e.total = d.total
  hval : e.hval = d.hval
  lval : e.lval = d.lval

/-- The pixels of a transfer are the same in both blocks (R152). -/
def SamePixels (s t : State) (d : Device) : Prop :=
  ∀ a, d.pixBase.toNat ≤ a → a < d.pixBase.toNat + 3 * d.total.toNat → t.pix.read a = s.pix.read a

theorem streamCodeword_of_sameTransfer (same : SameTransfer d e) (j : Nat) : streamCodeword s e j = streamCodeword s d j := by
  obtain ⟨hbase, htotal, hhval, hlval⟩ := same
  simp only [streamCodeword, hbase, htotal, hhval, hlval]

theorem streamCodeword_of_samePixels (same : SamePixels s t d) (j : Nat) : streamCodeword t d j = streamCodeword s d j := by
  unfold streamCodeword
  split
  · next hled =>
    have hoffset : [1, 0, 2].getD (j % 24 / 8) 0 < 3 := by
      have : j % 24 / 8 < 3 := by omega
      interval_cases j % 24 / 8 <;> decide
    have hread := same (d.pixBase.toNat + 3 * (j / 24) + [1, 0, 2].getD (j % 24 / 8) 0) (by omega) (by omega)
    have hbit : serialBit t d.pixBase.toNat (j / 24) (j % 24 / 8) (j % 8) =
        serialBit s d.pixBase.toNat (j / 24) (j % 24 / 8) (j % 8) := by
      simp only [serialBit, State.pixByte, hread]
    rw [hbit]
  · rfl

/-- After the last LED the stream is low. -/
theorem streamCodeword_of_le {j : Nat} (h : 24 * d.total.toNat ≤ j) : streamCodeword s d j = 0 :=
  if_neg (by omega)

/-! ### SET (R71) -/

theorem toNat_pos_of_ne_zero {count : Word} (h : count ≠ 0) : 0 < count.toNat :=
  Nat.pos_of_ne_zero fun h0 => h (BitVec.eq_of_toNat_eq h0)

theorem startSet_of_exec_set {dev : Byte} {base count : Word} (ha : SetAllowed s dev d base count)
    (h : exec (.set dev base count) s = .next t) (he : t.dev? dev = some e) :
    startSet s base count d = .ok e ∧ t.pix = s.pix := by
  have ⟨⟨hdev, _⟩, _⟩ := ha
  cases hs : startSet s base count d with
  | error r => cases (exec_set_of_startSet_error ha hs).symm.trans h
  | ok e' =>
    cases (exec_set_of_startSet_ok ha hs).symm.trans h
    cases (State.putDev_dev?_same e' hdev).symm.trans he
    exact ⟨rfl, rfl⟩

/-- After a `SET` the double buffer holds the first 96 codewords of the stream. -/
theorem cw_of_startSet {base count : Word} (h : startSet s base count d = .ok e) {i : Nat} (hi : i < 96) :
    e.cw[i]? = some (streamCodeword s e i) := by
  obtain ⟨-, -, rfl⟩ := startSet_ok.1 h
  rw [streamCodeword_of_sameTransfer (d := setBuffer base count d) (by constructor <;> simp)]
  simp only [setFsm_cw, armCw_cw, setHalf_cw, setCw_cw]
  rw [writeHalf_getElem?, writeHalf_getElem?]
  obtain hlow | hhigh : i < 48 ∨ 48 ≤ i := by omega
  · rw [if_neg (by simp only [halfIndex]; omega), if_pos (by simp only [halfIndex]; omega), codewordOf_eq_streamCodeword]
    congr 2
    omega
  · rw [if_pos (by simp only [halfIndex]; omega), codewordOf_eq_streamCodeword]
    congr 2
    omega

end

/-! ### The statements -/

/-- Settles O14. -/
theorem tickCountsHold : Obligations.TickCounts := by
  intro T hpos hT
  obtain ⟨hh, hl⟩ := symbolsOfTicks_toNat hT
  simp only [Symbols.WellFormed, hh, hl, true_and]
  omega

/-- Settles O39: each of the three is delivered, and `deliver` is one record. -/
theorem codewordsReachCompareRegister : Obligations.CodewordsReachCompareRegister := by
  intro s dev d hd
  have delivered : ∀ symbol : Device → Half16, output dev (fun d => deliver (symbol d) d) s =
      s.putDev dev { d with ccr := symbol d, out := if d.chEn then d.out ++ [.cw (symbol d)] else d.out } := fun symbol => by
    rw [output_of_some hd, deliver_eq]
  exact ⟨congrArg Host.Outcome.next (delivered (bitCodeword · true)), congrArg Host.Outcome.next (delivered (bitCodeword · false)),
    congrArg Host.Outcome.next (delivered fun _ => 0)⟩

/-- Settles O21: the first eight codewords of the stream are the bits of the first byte sent, which is the green one (R37). -/
theorem greenByteCodewords : Obligations.GreenByteCodewords := by
  intro s dev d base count t e ha hgreen hexec he
  have ⟨_, _, _, hpos, _⟩ := ha
  obtain ⟨hs, -⟩ := startSet_of_exec_set ha hexec he
  have hcount := toNat_pos_of_ne_zero hpos
  have bits : ∀ i < 8, streamCodeword s e i = if (0b10110000#8).getLsbD (7 - i) then d.hval else d.lval := by
    intro i hi
    obtain ⟨-, -, rfl⟩ := startSet_ok.1 hs
    have hled : i / 24 = 0 := by omega
    have hbyte : i % 24 / 8 = 0 := by omega
    have hbit : i % 8 = i := by omega
    simp [streamCodeword, serialBit, State.pixByte, hled, hbyte, hbit, hcount, hgreen]
  have taken : e.cw.toList.take 8 = (List.range 8).map (streamCodeword s e) := by
    refine List.ext_getElem (by simp) fun i hi _ => ?_
    have hlt : i < 96 := (hi.trans_le (List.length_take_le ..)).trans (by decide)
    obtain ⟨_, held⟩ := Vector.getElem?_eq_some_iff.1 (cw_of_startSet hs hlt)
    simpa using held
  have listed : (List.range 8).map (streamCodeword s e) =
      (List.range 8).map fun i => if (0b10110000#8).getLsbD (7 - i) then d.hval else d.lval :=
    List.map_congr_left fun i hi => bits i (List.mem_range.1 hi)
  rw [taken, listed]
  rfl

end Sys2Proof.Machine
end

section
/-! PROOFS. The frame (R89, R116): what `SET` begins, the other agents carry on. A frame is followed move by move: what has been sent
stays a beginning of the stream in `Transfer` (`SendingFrame`) and in `Latch` (`LatchingFrame`), and a frame that ends has sent all of
it and 48 zeros (`FrameSent`). -/

namespace Sys2Proof.Safety

open Sys2Proof Sys2Proof.Machine

section

variable {s t : State} {d e : Device} {f : Nat → Half16} {flag : DataFlag}

/-! ### The codewords of the last frame (R24) -/

@[simp] theorem frameCodewords_append_en (out : List OutItem) : frameCodewords (out ++ [.en]) = [] := by
  simp [frameCodewords]

@[simp] theorem frameCodewords_append_cw (out : List OutItem) (v : Half16) :
    frameCodewords (out ++ [.cw v]) = frameCodewords out ++ [v] := by
  simp [frameCodewords]

@[simp] theorem frameCodewords_append_end (out : List OutItem) (c : Callback) :
    frameCodewords (out ++ [.dis, .cb c]) = frameCodewords out := by
  simp [frameCodewords]

/-- A beginning of `f` that gains the next value of `f` is a beginning of `f`. -/
theorem beginning_append {sent : List Half16} {v : Half16} (h : sent = (List.range sent.length).map f)
    (hv : v = f sent.length) : sent ++ [v] = (List.range (sent ++ [v]).length).map f := by
  rw [List.length_append, List.length_singleton, List.range_succ, List.map_append, ← h, hv]
  rfl

/-- What a beat that sends `v` does to a frame (R91). -/
structure Sends (v : Half16) (d e : Device) : Prop where
  fetched : fetchCodeword d = some v
  out : frameCodewords e.out = frameCodewords d.out ++ [v]
  fsm : e.fsm = d.fsm
  sent : e.sent = d.sent
  cw : e.cw = d.cw
  transfer : SameTransfer d e
  reader : e.dmaRd.toNat ≤ d.dmaRd.toNat + 1
  atEnd : e.tcif = true → d.tcif = true ∨ d.dmaRd.toNat + 1 = d.dmaLen.toNat

theorem exists_sends_of_beatDevice (inv : DeviceInv true d) (hf : d.fsm ≠ .idle) (hb : beatDevice d = .ok e) :
    ∃ v, Sends v d e := by
  obtain ⟨v, hv, rfl⟩ := eq_of_beatDevice inv hf hb
  have hread : (if d.dmaRd.toNat + 1 = d.dmaLen.toNat then 0 else d.dmaRd + 1).toNat ≤ d.dmaRd.toNat + 1 := by
    rw [← dmaRd_succ_toNat inv]
    split <;> simp
  exact ⟨v, hv, frameCodewords_append_cw _ _, rfl, rfl, rfl, ⟨rfl, rfl, rfl, rfl⟩, hread, by simp⟩

theorem Sends.length {v : Half16} (h : Sends v d e) :
    (frameCodewords e.out).length = (frameCodewords d.out).length + 1 := by
  rw [h.out, List.length_append, List.length_singleton]

/-! ### How many data flags are pending -/

theorem pendingData_eq_zero (hht : d.htif = false) (htc : d.tcif = false) : pendingData d = 0 := by
  simp [pendingData, hht, htc]

/-- A service takes the number of pending data flags from 1 to 0. -/
theorem pendingData_of_isPending (hone : ¬(d.htif = true ∧ d.tcif = true)) (hp : flag.isPending d = true) :
    pendingData d = 1 ∧ pendingData (countPair (clearData flag d)) = 0 := by
  cases flag with
  | ht =>
    have htc : d.tcif = false := by simpa using fun htc => hone ⟨hp, htc⟩
    exact ⟨by simp [pendingData, htc, show d.htif = true from hp], pendingData_eq_zero rfl htc⟩
  | tc =>
    have hht : d.htif = false := by simpa using fun hht => hone ⟨hht, hp⟩
    exact ⟨by simp [pendingData, hht, show d.tcif = true from hp], pendingData_eq_zero hht rfl⟩

/-! ### A frame in `Transfer` -/

theorem SendingFrame.doubleBuffer (h : SendingFrame s d f) : DoubleBuffer d := fun _ _ => ⟨h.oneFlag, h.htSide, h.tcSide⟩

/-- After a `SET` nothing has been sent, and both halves hold their part of the stream. -/
theorem sendingFrame_of_startSet {base count : Word} (hcount : count ≠ 0) (h : startSet s base count d = .ok e) :
    SendingFrame s e (streamCodeword s e) := by
  have held : ∀ {i}, i < 96 → e.cw[i]? = some (streamCodeword s e i) := cw_of_startSet h
  have hpos := toNat_pos_of_ne_zero hcount
  obtain ⟨hout, hsent, htotal, hrd, hht, htc⟩ : e.out = d.out ++ [.en] ∧ e.sent = 0 ∧ e.total = count ∧ e.dmaRd = 0 ∧
      e.htif = false ∧ e.tcif = false := by
    obtain ⟨-, -, rfl⟩ := startSet_ok.1 h
    simp
  have hnone := pendingData_eq_zero hht htc
  exact
    { stream := fun _ => rfl
      sent := by simp [hout]
      progress := by simp [hout, hsent, hnone, hrd]
      even := by simp [hsent]
      side := by simp [hrd, hsent, hnone]
      oneFlag := by simp [hht]
      htSide := by simp [hht]
      tcSide := by simp [htc]
      remains := by simpa [hsent, htotal] using hpos
      reading := fun j hj => by simpa [hrd, hout] using held (i := j) (by omega)
      next := fun _ j hj => by simpa [hrd, hout] using held (i := 48 + j) (by omega) }

/-- What the reader fetches is the next codeword of the stream. -/
theorem SendingFrame.fetched (h : SendingFrame s d f) (inv : DeviceInv true d) (hf : d.fsm = .transfer) {v : Half16}
    (hv : fetchCodeword d = some v) : v = f (frameCodewords d.out).length := by
  have hsrc := (inv.codewordBuffer (.inl hf)).1
  have hprogress := h.progress
  have heven := h.even
  have hread := h.reading (d.dmaRd.toNat % 48) (by omega)
  simp only [fetchCodeword, hsrc] at hv
  rw [show 48 * (d.dmaRd.toNat / 48) + d.dmaRd.toNat % 48 = d.dmaRd.toNat by omega, hv,
    show 48 * ((frameCodewords d.out).length / 48) + d.dmaRd.toNat % 48 = (frameCodewords d.out).length by omega] at hread
  exact Option.some.inj hread

/-- A beat without underrun sends the next codeword of the stream. -/
theorem SendingFrame.beat (h : SendingFrame s d f) (inv : DeviceInv true d) (hf : d.fsm = .transfer)
    (hb : beatDevice d = .ok e) (hu : e.underrun = false) : SendingFrame s e f := by
  have hne : d.fsm ≠ .idle := by rw [hf]; nofun
  have move := readerMove_of_beatDevice inv hf hb hu
  obtain ⟨v, sends⟩ := exists_sends_of_beatDevice inv hne hb
  obtain ⟨hone, hht, htc⟩ := doubleBuffer_of_beatDevice inv hne h.doubleBuffer hb (sends.fsm.trans hf) hu
  have hlen := sends.length
  obtain ⟨hv, hout, -, hsent, hcw, same, -, -⟩ := sends
  have stream := fun j => (h.stream j).trans (streamCodeword_of_sameTransfer same j).symm
  have began := beginning_append h.sent (h.fetched inv hf hv)
  rw [← hout] at began
  have hprogress := h.progress
  have heven := h.even
  have hside := h.side
  cases move with
  | within hhalf hrd hht' htc' =>
    have hpending : pendingData e = pendingData d := by simp only [pendingData, hht', htc']
    have hpiece : ((frameCodewords d.out).length + 1) / 48 = (frameCodewords d.out).length / 48 := by omega
    exact
      { stream, sent := began, oneFlag := hone, htSide := hht, tcSide := htc
        progress := by rw [hlen, hsent, hpending, hrd]; omega
        even := by rw [hsent]; exact heven
        side := by rw [hrd, hhalf, hsent, hpending]; exact hside
        remains := by rw [hsent, same.total]; exact h.remains
        reading := by rw [hcw, hrd, hhalf, hlen, hpiece]; exact h.reading
        next := by rw [hpending, hcw, hrd, hhalf, hlen, hpiece]; exact h.next }
  | cross hlast hrd hht' htc' hht'' htc'' =>
    have hnone := pendingData_eq_zero hht' htc'
    have hpending : pendingData e = 1 := by
      simp only [pendingData, hht'', htc'', decide_eq_true_eq]
      split_ifs <;> omega
    have hhalf : e.dmaRd.toNat / 48 = 1 - d.dmaRd.toNat / 48 := by omega
    have hpiece : ((frameCodewords d.out).length + 1) / 48 = (frameCodewords d.out).length / 48 + 1 := by omega
    exact
      { stream, sent := began, oneFlag := hone, htSide := hht, tcSide := htc
        progress := by rw [hlen, hsent, hpending, hrd]; omega
        even := by rw [hsent]; exact heven
        side := by rw [hhalf, hsent, hpending]; omega
        remains := by rw [hsent, same.total]; exact h.remains
        reading := by rw [hcw, hhalf, hlen, hpiece]; exact h.next hnone
        next := fun hzero => by omega }

/-- With a flag pending, the two LEDs its service will count have gone out. -/
theorem SendingFrame.length_of_pending (h : SendingFrame s d f) (hp : flag.isPending d = true) :
    (frameCodewords d.out).length = 24 * (d.sent.toNat + 2) + d.dmaRd.toNat % 48 := by
  have hprogress := h.progress
  obtain ⟨hpending, -⟩ := pendingData_of_isPending h.oneFlag hp
  omega

/-- A device after a refill that leaves the codewords `cw` (R105). -/
def refilled (flag : DataFlag) (cw : Vector Half16 96) (d : Device) : Device :=
  setHalf (vacatedHalf flag) (setCw cw (countPair (clearData flag d)))

section

variable (flag : DataFlag) (cw : Vector Half16 96) (d : Device)

@[simp] theorem refilled_cw : (refilled flag cw d).cw = cw := rfl
@[simp] theorem refilled_sent : (refilled flag cw d).sent = d.sent + 2 := by simp [refilled]
@[simp] theorem refilled_total : (refilled flag cw d).total = d.total := by simp [refilled]
@[simp] theorem refilled_dmaRd : (refilled flag cw d).dmaRd = d.dmaRd := by simp [refilled]
@[simp] theorem refilled_out : (refilled flag cw d).out = d.out := by simp [refilled]

theorem sameTransfer_refilled : SameTransfer d (refilled flag cw d) := by constructor <;> simp [refilled]

end

/-- A refill puts the next piece of the stream into the half the reader is not in. -/
theorem SendingFrame.refill (h : SendingFrame s d f) (hf : d.fsm = .transfer) (hu : d.underrun = false)
    (hp : flag.isPending d = true) (hhalf : halfIndex (vacatedHalf flag) = 1 - d.dmaRd.toNat / 48)
    (hsent : (d.sent + 2).toNat = d.sent.toNat + 2) (hleft : (d.sent + 2).toNat < d.total.toNat) :
    SendingFrame s (refilled flag (writeHalf (vacatedHalf flag) (codewordOf s d ((d.sent + 2).toNat + 2)) d.cw) d) f := by
  obtain ⟨hpending, hserved⟩ := pendingData_of_isPending h.oneFlag hp
  have hnone : ∀ cw, pendingData (refilled flag cw d) = 0 := fun _ => hserved
  obtain ⟨hone, hht, htc⟩ := doubleBuffer_countPair_clearData flag h.doubleBuffer (by cases flag <;> exact hf)
    (by cases flag <;> exact hu)
  have hlen := h.length_of_pending hp
  have heven := h.even
  have hside := h.side
  exact
    { stream := fun j => (h.stream j).trans (streamCodeword_of_sameTransfer (sameTransfer_refilled flag _ d) j).symm
      sent := by rw [refilled_out]; exact h.sent
      progress := by rw [refilled_out, refilled_sent, refilled_dmaRd, hnone, hsent]; omega
      even := by rw [refilled_sent, hsent]; omega
      side := by rw [refilled_sent, refilled_dmaRd, hnone, hsent]; omega
      oneFlag := hone, htSide := hht, tcSide := htc
      remains := by rw [refilled_sent, refilled_total]; exact hleft
      reading := fun j hj => by
        rw [refilled_cw, refilled_dmaRd, refilled_out, writeHalf_getElem?, if_neg (by omega)]
        exact h.reading j hj
      next := fun _ j hj => by
        rw [refilled_cw, refilled_dmaRd, refilled_out, writeHalf_getElem?, if_pos (by omega), codewordOf_eq_streamCodeword,
          ← h.stream, hsent]
        congr 2
        omega }

/-- Once all LEDs have gone out, the latch goes on with the stream, whose rest is low. -/
theorem SendingFrame.startLatch (h : SendingFrame s d f) (hp : flag.isPending d = true)
    (hdone : d.total.toNat ≤ d.sent.toNat + 2) : LatchingFrame (startLatch (countPair (clearData flag d))) f := by
  have hlen := h.length_of_pending hp
  exact
    { low := fun j hj => (h.stream j).trans (streamCodeword_of_le (by simpa using hj))
      sent := by simpa using h.sent
      zeros := by simp; omega
      whole := by simp }

/-! ### A frame in `Latch` -/

/-- A beat sends one more zero. -/
theorem LatchingFrame.beat (h : LatchingFrame d f) (inv : DeviceInv true d) (hf : d.fsm = .latch)
    (hb : beatDevice d = .ok e) : LatchingFrame e f := by
  obtain ⟨hsrc, hbuffer⟩ := inv.latchBuffer hf
  obtain ⟨v, sends⟩ := exists_sends_of_beatDevice inv (by rw [hf]; nofun) hb
  have hlen := sends.length
  obtain ⟨hv, hout, -, -, -, same, hrd, hend⟩ := sends
  have hv0 : v = 0 := by
    obtain ⟨hcw, -⟩ | ⟨-, hmem⟩ := fetchCodeword_mem hv
    · cases hsrc.symm.trans hcw
    · exact inv.latchLow v hmem
  have hzeros := h.zeros
  refine { low := by rw [same.total]; exact h.low, sent := ?_, zeros := ?_, whole := fun htc => ?_ }
  · rw [hout]
    exact beginning_append h.sent (hv0.trans (h.low _ (by omega)).symm)
  · rw [hlen, same.total]
    omega
  · rw [hlen, same.total]
    obtain hbefore | hnow := hend htc
    · have := h.whole hbefore
      omega
    · have : d.dmaLen.toNat = 48 := by rw [hbuffer]; rfl
      omega

/-- In the middle of the latch buffer the frame only goes on (R107). -/
theorem LatchingFrame.count (h : LatchingFrame d f) : LatchingFrame (countPair (clearData .ht d)) f := { h with }

/-- The frame of device `d` has ended: all of the stream `f` has gone out, and at least 48 zeros (R116). -/
structure FrameSent (d : Device) (f : Nat → Half16) : Prop where
  sent : frameCodewords d.out = (List.range (frameCodewords d.out).length).map f
  zeros : 24 * d.total.toNat + 48 ≤ (frameCodewords d.out).length
  low : ∀ j, 24 * d.total.toNat ≤ j → f j = 0

theorem LatchingFrame.finish (h : LatchingFrame d f) (htc : d.tcif = true) :
    FrameSent (finish (countPair (clearData .tc d))) f := by
  have hout : frameCodewords (Machine.finish (countPair (clearData .tc d))).out = frameCodewords d.out := by simp
  have htotal : (Machine.finish (countPair (clearData .tc d))).total = d.total := by simp
  constructor
  · rw [hout]; exact h.sent
  · rw [hout, htotal]; exact h.whole htc
  · rw [htotal]; exact h.low

/-! ### Every move of a frame -/

/-- A device that sends a frame is not at rest. -/
theorem ne_idle_of_frame (hf : d.fsm = .transfer ∨ d.fsm = .latch) : d.fsm ≠ .idle := by
  rintro hidle
  simp [hidle] at hf

/-- What a step leaves of a frame: one that goes on stands well, and one that has ended has been sent. -/
structure FrameKept (s : State) (d : Device) (f : Nat → Half16) : Prop where
  ok : d.fsm = .transfer ∨ d.fsm = .latch → FrameOk s d f
  ended : d.fsm = .idle → FrameSent d f

theorem FrameKept.of_ok (hf : d.fsm ≠ .idle) (h : FrameOk s d f) : FrameKept s d f := ⟨fun _ => h, fun hi => absurd hi hf⟩

theorem FrameKept.of_sending (hf : d.fsm = .transfer) (h : SendingFrame s d f) : FrameKept s d f :=
  .of_ok (by rw [hf]; nofun) ⟨fun _ => h, fun hl => absurd (hf.symm.trans hl) nofun⟩

theorem FrameKept.of_latching (hf : d.fsm = .latch) (h : LatchingFrame d f) : FrameKept s d f :=
  .of_ok (by rw [hf]; nofun) ⟨fun ht => absurd (hf.symm.trans ht) nofun, fun _ => h⟩

theorem FrameKept.of_sent (hf : d.fsm = .idle) (h : FrameSent d f) : FrameKept s d f :=
  ⟨fun hl => by simp [hf] at hl, fun _ => h⟩

/-- An aborted frame carries nothing on (R103, R111). -/
theorem FrameKept.of_reset (hf : d.fsm = .reset) : FrameKept s d f := ⟨fun hl => by simp [hf] at hl, fun hi => by simp [hf] at hi⟩

theorem FrameKept.of_samePixels (same : SamePixels s t d) (h : FrameKept s d f) : FrameKept t d f where
  ok hf :=
    ⟨fun ht =>
      have sending := (h.ok hf).1 ht
      { sending with stream := fun j => (sending.stream j).trans (streamCodeword_of_samePixels same j).symm },
      (h.ok hf).2⟩
  ended := h.ended

section

variable (inv : DeviceInv true d) (hf : d.fsm = .transfer ∨ d.fsm = .latch) (h : FrameOk s d f)

include inv hf h

theorem frameKept_of_beatDevice (hb : beatDevice d = .ok e) (hu : e.underrun = false) : FrameKept s e f := by
  obtain ⟨v, sends⟩ := exists_sends_of_beatDevice inv (ne_idle_of_frame hf) hb
  have hfsm := sends.fsm
  obtain ⟨sending, latching⟩ := h
  obtain ht | hl := hf
  · exact .of_sending (hfsm.trans ht) ((sending ht).beat inv ht hb hu)
  · exact .of_latching (hfsm.trans hl) ((latching hl).beat inv hl hb)

theorem frameKept_of_onData (hmax : d.cfg.ledMax ≤ ledLimit) (hu : d.underrun = false)
    (hp : pendingFlag d = some flag.toFlag) (ho : onData s flag d = .ok e) : FrameKept s e f := by
  have hpending := isPending_of_pendingFlag hp
  obtain ⟨sending, latching⟩ := h
  have exact_sum : d.fsm = .transfer → (d.sent + 2).toNat = d.sent.toNat + 2 := fun ht => by
    have hremains := (sending ht).remains
    have htotal := inv.length.1
    simp only [ledLimit] at hmax
    exact sent_add_two_toNat (by omega)
  cases onData_cases ho with
  | refill ht hleft =>
    have hhalf := vacatedHalf_of_pendingFlag inv (sending ht).doubleBuffer ht hu hp
    exact .of_sending (by cases flag <;> exact ht) ((sending ht).refill ht hu hpending hhalf (exact_sum ht) hleft)
  | startLatch hto hdone =>
    have ht : d.fsm = .transfer := by
      obtain ht | hr := hto
      · exact ht
      · simp [hr] at hf
    exact .of_latching (startLatch_fsm _) ((sending ht).startLatch hpending (exact_sum ht ▸ hdone))
  | count hto =>
    obtain hi | ⟨hr, -⟩ | ⟨hl, rfl⟩ := hto
    · simp [hi] at hf
    · simp [hr] at hf
    · exact .of_latching hl (latching hl).count
  | finish hl htc =>
    subst htc
    exact .of_sent (finish_fsm _) ((latching hl).finish hpending)

end

/-- Every move of the block's agents carries a frame on, as long as no underrun is recorded. -/
theorem frameKept_of_turnMove {turn : Turn} {k : Nat} (m : TurnMove s turn k d e) (hturn : ∀ w : Half16, turn ≠ .evt w)
    (hi : s.inited = true) (inv : DeviceInv true d) (hmax : d.cfg.ledMax ≤ ledLimit)
    (hf : d.fsm = .transfer ∨ d.fsm = .latch) (hu : e.underrun = false) (h : FrameOk s d f) : FrameKept s e f := by
  have hne := ne_idle_of_frame hf
  cases m with
  | set _ _ _ ha =>
    obtain ⟨-, hidle, -⟩ := ha
    exact absurd hidle hne
  | reset _ _ _ _ hidle => exact absurd hidle hne
  | error => exact .of_reset (by simp [onError, hi])
  | beat _ _ _ hb => exact frameKept_of_beatDevice inv hf h hb hu
  | fault => exact .of_ok hne ⟨fun ht => { h.1 ht with }, fun hl => { h.2 hl with }⟩
  | data hserviced ho =>
    have hud := (keepsHistory_of_onData (inited := true) ho).underrun_eq_false hu
    exact frameKept_of_onData inv hf h hmax hud (pendingFlag_of_servicedFlag hturn hserviced) ho

end

/-! ### The statements -/

/-- Settles O59: a `SET` leaves the device in `Transfer` with nothing sent, and does not touch the pixels. -/
theorem setBeginsFrame : Obligations.SetBeginsFrame := by
  intro s t dev d e base count ha hexec he
  have ⟨_, _, _, hcount, _⟩ := ha
  obtain ⟨hs, hpix⟩ := startSet_of_exec_set ha hexec he
  obtain ⟨hfsm, hout⟩ : e.fsm = .transfer ∧ e.out = d.out ++ [.en] := by
    obtain ⟨-, -, rfl⟩ := startSet_ok.1 hs
    simp
  have stream : streamCodeword t e = streamCodeword s e := by
    funext j
    exact streamCodeword_of_samePixels (fun _ _ _ => by rw [hpix]) j
  have kept := FrameKept.of_samePixels (t := t) (fun _ _ _ => by rw [hpix])
    (.of_sending hfsm (sendingFrame_of_startSet hcount hs))
  rw [stream, hout, frameCodewords_append_en]
  exact ⟨kept.ok (.inl hfsm), rfl⟩

/-- Settles O60: a step leaves the device alone, and then the pixels in flight are those the host has not written, or it is a move of
the device's agent, and then no pixel changes. -/
theorem frameCarriesTheData : Obligations.FrameCarriesTheData := by
  intro s t turn ts dev d e f inv hn hturn hstep hd he hf hu hpix hok
  have hne := ne_idle_of_frame hf
  have hmem := State.mem_devs_of_dev? hd
  have hi := inited_of_inFlight (inv d hmem) hne
  have ⟨⟨_, hmax⟩, _⟩ := cfg_wellFormed_of_mem hn.1 hmem
  have kept : FrameKept t e f := by
    obtain ⟨-, rfl⟩ | ⟨hnot, -⟩ | ⟨-, hsame, -, m⟩ := step_device (stepEffect_of_nextTurn hn hstep) hd he
    · exact .of_samePixels hpix (.of_ok hne hok)
    · cases hnot.symm.trans hi
    · exact .of_samePixels (fun _ _ _ => by rw [hsame])
        (frameKept_of_turnMove m hturn hi (hi ▸ inv d hmem) hmax hf hu hok)
  refine ⟨kept.ok, fun hidle => ?_⟩
  obtain ⟨sent, zeros, low⟩ := kept.ended hidle
  exact ⟨sent, zeros, low⟩

end Sys2Proof.Safety
end

section
/-! PROOFS. The stream and its fault source (R91, R92, R96 to R99). A beat reads the next element of the buffer in use
(`bufferInUse`), and as long as the reader does not wrap, a run of beats sends a slice of that buffer (`SendsSlice`). -/

namespace Sys2Proof.Machine

open Sys2Proof Sys2Proof.Safety

/-! ### The agents of a stream -/

section

variable {s : State} {ts : List Turn} {dev : Byte} {d : Device}

/-- The fault source raises TE of an enabled stream (R96). -/
theorem step_of_fault (hn : NextTurn s (.fault dev) ts) (hd : s.dev? dev = some d) :
    step s = .next ({ s with sched := ts }.putDev dev (if d.dmaEn then raiseError d else d)) := by
  rw [step_eq_onDevice hn rfl]
  exact onDevice_of_ok hd rfl

/-- Neither the reader nor the fault source of a disabled stream acts (R96, R99). -/
theorem step_of_disabled {turn : Turn} (hturn : turn = .beat dev ∨ turn = .fault dev) (hn : NextTurn s turn ts)
    (hd : s.dev? dev = some d) (hen : d.dmaEn = false) : step s = .next { s with sched := ts } := by
  have still : agentStep { s with sched := ts } dev turn d = .ok d := by
    obtain rfl | rfl := hturn <;> simp [agentStep, hen]
  have named : turnDevice turn = some dev := by obtain rfl | rfl := hturn <;> rfl
  rw [step_eq_onDevice hn named, onDevice_of_ok (s := { s with sched := ts }) hd still]
  exact congrArg _ (State.putDev_self hd)

end

/-! ### The buffer in use -/

/-- The buffer the stream reads (R20). -/
def bufferInUse (d : Device) : List Half16 :=
  match d.dmaSrc with
  | .cwbuf => d.cw.toList
  | .latchbuf => d.latch.toList

section

variable {d e : Device} {v : Half16}

theorem fetchCodeword_eq_getElem? (d : Device) : fetchCodeword d = (bufferInUse d)[d.dmaRd.toNat]? := by
  cases hsrc : d.dmaSrc <;> simp [fetchCodeword, bufferInUse, hsrc]

theorem bufferInUse_length_le (d : Device) : (bufferInUse d).length ≤ 96 := by
  unfold bufferInUse
  split <;> simp

/-- A reader that fetches stands far from where its 16 bits wrap. -/
theorem dmaRd_lt_of_fetchCodeword (hv : fetchCodeword d = some v) : d.dmaRd.toNat < 96 := by
  rw [fetchCodeword_eq_getElem?] at hv
  exact (List.getElem?_eq_some_iff.1 hv).1.trans_le (bufferInUse_length_le d)

/-- A beat in one record, in any driver state and for any length of the transfer (R91, R92, R98). -/
theorem advanceReader_deliver_eq (hv : fetchCodeword d = some v) : advanceReader (deliver v d) =
    { d with
      ccr := v
      out := if d.chEn then d.out ++ [.cw v] else d.out
      dmaRd := if d.dmaRd.toNat + 1 = d.dmaLen.toNat then 0 else d.dmaRd + 1
      htif := d.htif || decide (d.dmaRd.toNat + 1 = d.dmaLen.toNat / 2)
      tcif := d.tcif || decide (d.dmaRd.toNat + 1 = d.dmaLen.toNat)
      underrun := d.underrun || (decide (d.fsm = .transfer) && (d.htif || d.tcif) &&
        (decide (d.dmaRd.toNat + 1 = d.dmaLen.toNat / 2) || decide (d.dmaRd.toNat + 1 = d.dmaLen.toNat))) } := by
  have hlt := dmaRd_lt_of_fetchCodeword hv
  have hnext : (d.dmaRd + 1).toNat = d.dmaRd.toNat + 1 := by
    rw [BitVec.toNat_add]
    exact Nat.mod_eq_of_lt (by simp; omega)
  have hne : d.dmaRd + 1 ≠ 0 := fun h0 => by rw [h0] at hnext; cases hnext
  have hend : d.dmaRd + 1 = d.dmaLen ↔ d.dmaRd.toNat + 1 = d.dmaLen.toNat := by rw [← BitVec.toNat_inj, hnext]
  have hmid : d.dmaRd + 1 = d.dmaLen / 2 ↔ d.dmaRd.toNat + 1 = d.dmaLen.toNat / 2 := by
    rw [← BitVec.toNat_inj, hnext, BitVec.toNat_udiv]; rfl
  rw [deliver_eq, advanceReader_eq (by exact hne)]
  simp only [hend, hmid]

/-! ### A slice of the buffer -/

/-- From `d` to `e` the reader has moved on by `n` elements, which have been sent in order, and the transfer is still the same
(R91). -/
structure SendsSlice (n : Nat) (d e : Device) : Prop where
  fsm : e.fsm = d.fsm
  src : e.dmaSrc = d.dmaSrc
  len : e.dmaLen = d.dmaLen
  cw : e.cw = d.cw
  latch : e.latch = d.latch
  reader : e.dmaRd.toNat = d.dmaRd.toNat + n
  out : e.out = d.out ++ (((bufferInUse d).drop d.dmaRd.toNat).take n).map .cw

theorem SendsSlice.refl (d : Device) : SendsSlice 0 d d := ⟨rfl, rfl, rfl, rfl, rfl, rfl, by simp⟩

theorem SendsSlice.bufferInUse_eq {n : Nat} (h : SendsSlice n d e) : bufferInUse e = bufferInUse d := by
  simp only [bufferInUse, h.src, h.cw, h.latch]

/-- Two slices, one after the other, are one slice. -/
theorem SendsSlice.trans {m n : Nat} {f : Device} (h₁ : SendsSlice m d e) (h₂ : SendsSlice n e f) :
    SendsSlice (m + n) d f where
  fsm := h₂.fsm.trans h₁.fsm
  src := h₂.src.trans h₁.src
  len := h₂.len.trans h₁.len
  cw := h₂.cw.trans h₁.cw
  latch := h₂.latch.trans h₁.latch
  reader := by rw [h₂.reader, h₁.reader, Nat.add_assoc]
  out := by
    rw [h₂.out, h₁.out, h₁.bufferInUse_eq, h₁.reader, List.take_add, List.drop_drop, List.map_append, List.append_assoc]

/-- A beat of a device in flight, short of the end of the buffer, sends a slice of one element (R91). -/
theorem exists_sendsSlice_of_inside (inv : DeviceInv true d) (hf : d.fsm ≠ .idle)
    (hin : d.dmaRd.toNat + 1 < d.dmaLen.toNat) : ∃ e, beatDevice d = .ok e ∧ SendsSlice 1 d e := by
  cases hb : beatDevice d with
  | error r => exact absurd hb (beatDevice_ne_error inv (inv.inFlight hf).1 r)
  | ok e =>
    obtain ⟨v, hv, rfl⟩ := eq_of_beatDevice inv hf hb
    have slice : ((bufferInUse d).drop d.dmaRd.toNat).take 1 = [v] := by
      rw [List.take_one, List.head?_drop, ← fetchCodeword_eq_getElem?, hv]
      rfl
    refine ⟨_, rfl, rfl, rfl, rfl, rfl, rfl, ?_, by rw [slice]; rfl⟩
    exact (congrArg BitVec.toNat (if_neg hin.ne)).trans (dmaRd_succ_toNat inv)

end

/-! ### Beats in a row -/

theorem core_run_succ {s t : State} (n : Nat) (h : step s = .next t) : core.run (n + 1) s = core.run n t := by
  simp only [Host.Core.run, core, h]

/-- Beats in a row that stay inside the buffer change their device alone, and send a slice of the buffer. -/
theorem exists_run_of_beats {n : Nat} {s : State} {ts : List Turn} {dev : Byte} {d : Device} (hc : s.config.WellFormed)
    (hs : s.sched = List.replicate n (.beat dev) ++ ts) (hd : s.dev? dev = some d) (inv : DeviceInv true d)
    (hf : d.fsm ≠ .idle) (hin : d.dmaRd.toNat + n < d.dmaLen.toNat) :
    ∃ e, core.run n s = .next ({ s with sched := ts }.putDev dev e) ∧ SendsSlice n d e := by
  induction n generalizing s d with
  | zero =>
    have hts : s.sched = ts := hs
    subst hts
    exact ⟨d, by rw [State.putDev_self hd]; rfl, .refl d⟩
  | succ n ih =>
    obtain ⟨mid, hb, first⟩ := exists_sendsSlice_of_inside inv hf (by omega)
    have hen := (inv.inFlight hf).1
    have hstep : step s = .next ({ s with sched := List.replicate n (Turn.beat dev) ++ ts }.putDev dev mid) := by
      rw [step_eq_onDevice (turn := .beat dev) ⟨hc, hs⟩ rfl]
      exact onDevice_of_ok hd ((if_pos hen).trans hb)
    have hconfig : (s.putDev dev mid).config = s.config :=
      State.putDev_config hd (keepsHistory_of_beatDevice (inited := true) hb).cfg
    obtain ⟨e, hrun, rest⟩ := ih (s := { s with sched := List.replicate n (Turn.beat dev) ++ ts }.putDev dev mid)
      (hconfig ▸ hc) rfl (State.putDev_dev?_same mid hd) (deviceInv_of_beatDevice inv hen hb)
      (first.fsm ▸ hf) (by rw [first.reader, first.len]; omega)
    refine ⟨e, ?_, Nat.add_comm 1 n ▸ first.trans rest⟩
    rw [core_run_succ n hstep, hrun]
    exact congrArg _ (State.putDev_putDev { s with sched := ts } dev mid e)

/-! ### The statements -/

/-- Settles O9: the beat's record, for the codeword that stands at `dma_rd` of the buffer in use. -/
theorem beatCopiesOneCodeword : Obligations.BeatCopiesOneCodeword := by
  intro s ts dev d v hn hd hen hcw hlatch
  have hv : fetchCodeword d = some v := by
    unfold fetchCodeword
    split
    · next hsrc => exact hcw hsrc
    · next hsrc => exact hlatch hsrc
  rw [step_of_beat hn hd hen hv, advanceReader_deliver_eq hv]

/-- Settles O55: the codewords sent are a slice of the buffer in use. -/
theorem beatsStreamTheBuffer : Obligations.BeatsStreamTheBuffer := by
  intro n s ts dev d inv hc hs hd hf hin
  have invD := inv d (State.mem_devs_of_dev? hd)
  obtain ⟨e, hrun, slice⟩ := exists_run_of_beats hc hs hd (inited_of_inFlight invD hf ▸ invD) hf hin
  exact ⟨_, e, hrun, rfl, othersSame_of_devs_putDev rfl, State.putDev_dev?_same e hd, slice.reader, slice.cw, slice.latch,
    slice.out⟩

/-- Settles O11: an enabled stream gains TE, and a disabled one is put back as it was. -/
theorem faultSourceRaisesError : Obligations.FaultSourceRaisesError := by
  intro s ts dev d hn hd
  rw [step_of_fault hn hd]
  split
  · rfl
  · rw [State.putDev_self (s := { s with sched := ts }) hd]

/-- Settles O12: the enables of a device agree, since the driver state fixes both (R26 item 2). -/
theorem disabledStreamIsStill : Obligations.DisabledStreamIsStill := by
  refine ⟨fun s ts dev d hd hen => ⟨fun hn => ?_, fun hn => ?_⟩, fun s d inv hmem => ?_⟩
  · exact step_of_disabled (.inl rfl) hn hd hen
  · exact step_of_disabled (.inr rfl) hn hd hen
  · obtain ⟨hstream, hchannel⟩ := enables_eq_of_deviceInv (inv d hmem)
    exact hstream.trans hchannel.symm

end Sys2Proof.Machine
end

section
/-! PROOFS. The sequencer (43_sequencer.md): what the events do, which one an invocation of the handler runs, and what follows for the
driver state and the callbacks. A data event does to its device exactly what `DataMove` lists (`onData_ok_iff`). What a step does to the
driver state and the trace of a device is said once (`Transition`), and both R114 and the callbacks' rule are read off it. The run from
`Latch` to `Idle` is a run of turns of one device's agents (`agentRun`). -/

namespace Sys2Proof.Machine

open Sys2Proof Sys2Proof.Safety

/-! ### The handler's turn (R100) -/

section

variable {s : State} {dev : Byte} {d : Device}

/-- The flag an invocation services, in the order TE, HT, TC. -/
theorem takeInterrupt_eq (s : State) (d : Device) : takeInterrupt s d =
    if s.inited = true ∧ d.teif = true ∧ d.teie = true then some .te
    else if s.inited = true ∧ d.htif = true ∧ d.htie = true then some .ht
    else if s.inited = true ∧ d.tcif = true ∧ d.tcie = true then some .tc
    else none := by
  cases hi : s.inited <;> simp [takeInterrupt, pendingFlag, hi]

theorem isrTurn_of_due {f : Flag} (hd : s.dev? dev = some d) (hf : takeInterrupt s d = some f) :
    isrTurn dev s = exec (flagInstr dev f) s := by
  simp only [isrTurn, hd, hf]

theorem isrTurn_of_not_due (hd : s.dev? dev = some d) (hf : takeInterrupt s d = none) : isrTurn dev s = .next s := by
  simp only [isrTurn, hd, hf]

/-- No flag of a device at rest is enabled (R26 item 2, R108). -/
theorem takeInterrupt_of_idle {inited : Bool} (inv : DeviceInv inited d) (hf : d.fsm = .idle) : takeInterrupt s d = none := by
  obtain ⟨-, -, hht, htc, hte⟩ := inv.idle hf
  simp [takeInterrupt, pendingFlag, hht, htc, hte]

end

/-! ### A data event (R101, R102, R104 to R109) -/

section

variable {s : State} {dev : Byte} {f : DataFlag} {d e x : Device}

@[simp] theorem clearData_fsm (f : DataFlag) (d : Device) : (clearData f d).fsm = d.fsm := by cases f <;> rfl
@[simp] theorem clearData_cw (f : DataFlag) (d : Device) : (clearData f d).cw = d.cw := by cases f <;> rfl

theorem exec_dataEvent (f : DataFlag) (dev : Byte) (s : State) :
    exec (dataEvent f dev) s = onDevice dev (onData s f) s := by
  cases f <;> rfl

/-- A data event answers unless it is a refill that reads an unallocated byte, and it does what `DataMove` lists. -/
theorem onData_ok_iff : onData s f d = .ok e ↔ DataMove s f d e := by
  refine ⟨onData_cases, fun move => ?_⟩
  have hcw : (countPair (clearData f d)).cw = d.cw := by simp
  have hread : ∀ n, halfReadable s (countPair (clearData f d)) n = halfReadable s d n := fun n => by cases f <;> rfl
  have hcode : ∀ n, codewordOf s (countPair (clearData f d)) n = codewordOf s d n := fun n => by cases f <;> rfl
  have hsent : (countPair (clearData f d)).sent = d.sent + 2 := by simp
  have htotal : (countPair (clearData f d)).total = d.total := by simp
  cases move with
  | refill hf hlt hr =>
    have encoded : encodeHalf s (vacatedHalf f) ((d.sent + 2).toNat + 2) (countPair (clearData f d)) = .ok _ :=
      encodeHalf_ok.2 ⟨(hread _).trans hr, rfl⟩
    rw [hcode, hcw] at encoded
    simp only [onData, advance, clearData_fsm, hf, advTransfer, hsent, htotal, if_pos hlt, encoded]
  | startLatch hf hdone =>
    obtain hf | hf := hf
    · simp only [onData, advance, clearData_fsm, hf, advTransfer, hsent, htotal, if_neg (Nat.not_lt.2 hdone)]
    · simp only [onData, advance, clearData_fsm, hf, advReset, hsent, htotal, if_pos hdone]
  | count hcount =>
    obtain hf | ⟨hf, hlt⟩ | ⟨hf, rfl⟩ := hcount
    · simp only [onData, advance, clearData_fsm, hf]
    · simp only [onData, advance, clearData_fsm, hf, advReset, hsent, htotal, if_neg (Nat.not_le.2 hlt)]
    · simp only [onData, advance, clearData_fsm, hf, advLatch]
  | finish hf htc =>
    subst htc
    simp only [onData, advance, clearData_fsm, hf, advLatch]

/-- What a data event does to its device is what it does to the block. -/
theorem exec_dataEvent_of_dataMove (hd : s.dev? dev = some d) (move : DataMove s f d e) (he : e = x) :
    exec (dataEvent f dev) s = .next (s.putDev dev x) :=
  (exec_dataEvent f dev s).trans (onDevice_of_ok hd (onData_ok_iff.2 (he ▸ move)))

/-- A refill that reads an unallocated byte is a fault (R42, R105). -/
theorem onData_of_not_readable (hf : d.fsm = .transfer) (hlt : (d.sent + 2).toNat < d.total.toNat)
    (hr : halfReadable s d ((d.sent + 2).toNat + 2) = false) : onData s f d = .error .pixOutOfRange := by
  cases ho : onData s f d with
  | error r =>
    obtain ⟨-, -, rfl, -⟩ := onData_error ho
    rfl
  | ok e =>
    cases onData_cases ho with
    | refill _ _ readable => cases hr.symm.trans readable
    | startLatch _ hdone => omega
    | count hcount => simp [hf] at hcount
    | finish hl => cases hf.symm.trans hl

theorem exec_te_of_onError (hd : s.dev? dev = some d) (he : onError s.inited d = e) :
    exec (.te dev) s = .next (s.putDev dev e) :=
  (exec_flagInstr dev .te s).trans (onDevice_of_ok hd (congrArg Except.ok he))

/-- `ForceReset` in one record, in any driver state (R111). -/
theorem forceReset_eq (d : Device) : forceReset d =
    { d with
      out := d.out ++ (if d.chEn = true ∨ d.dmaEn = true then [OutItem.dis] else []) ++ [OutItem.en]
      cw := Vector.replicate 96 0, total := BitVec.ofNat 32 d.cfg.ledMax, sent := 0
      dmaSrc := .cwbuf, dmaLen := 96, dmaRd := 0, dmaEn := true, chEn := true
      htif := false, tcif := false, teif := false, htie := true, tcie := true, teie := true
      fsm := .reset } := by
  apply Device.ext_fields <;> simp [zeroCodewords_eq_replicate]

end

/-! ### The flag a step services -/

section

variable {s t : State} {turn : Turn} {ts : List Turn} {k : Nat} {dev : Byte} {d e : Device}

/-- The step of an agent does not look at the turns that follow. -/
theorem step_eq_onDevice_agentStep (hn : NextTurn s turn ts) (hdev : turnDevice turn = some dev) :
    step s = onDevice dev (agentStep s dev turn) { s with sched := ts } := by
  have same : agentStep { s with sched := ts } = agentStep s := agentStep_congr rfl rfl rfl
  rw [step_eq_onDevice hn hdev, same]

theorem exists_turnDevice_of_serviced {f : Flag} (h : servicedFlag s k d turn = some f) :
    ∃ dev, turnDevice turn = some dev ∧ dev.toNat = k := by
  cases turn with
  | host => cases h
  | beat => cases h
  | fault => cases h
  | isr dev =>
    simp only [servicedFlag] at h
    split_ifs at h with hk
    exact ⟨dev, rfl, hk⟩
  | evt w =>
    simp only [servicedFlag] at h
    split_ifs at h with hk <;> exact ⟨wordDev w, rfl, hk⟩

theorem agentStep_of_serviced {f : Flag} (h : servicedFlag s dev.toNat d turn = some f) :
    agentStep s dev turn d = serviceFlag s f d := by
  cases turn with
  | host => cases h
  | beat => cases h
  | fault => cases h
  | isr => simp only [agentStep, h, serviceDue]
  | evt => simp only [agentStep, h, serviceDue]

/-- A step that services a flag does so to the device. -/
theorem serviceFlag_of_serviced {f : Flag} (hn : NextTurn s turn ts) (hstep : step s = .next t)
    (hd : s.devs[k]? = some d) (he : t.devs[k]? = some e) (hf : servicedFlag s k d turn = some f) :
    serviceFlag s f d = .ok e := by
  obtain ⟨dev, hdev, rfl⟩ := exists_turnDevice_of_serviced hf
  rw [step_eq_onDevice_agentStep hn hdev] at hstep
  obtain ⟨hnone, -⟩ | ⟨d', e', hd', hok, rfl⟩ := onDevice_next hstep
  · cases hd.symm.trans hnone
  · cases hd.symm.trans hd'
    cases (State.putDev_dev?_same e' hd').symm.trans he
    exact (agentStep_of_serviced hf).symm.trans hok

end

/-! ### What a step does to the driver state and the trace (R112 to R114) -/

/-- Every way a step can treat the driver state of device number `k`, with the items its trace gains. -/
inductive Transition (s t : State) (turn : Turn) (k : Nat) (d e : Device) : Prop
  /-- The driver state stays, no TE is serviced, and nothing but codewords is sent. -/
  | stays (cws : List Half16) : ¬(s.inited = true ∧ servicedFlag s k d turn = some .te) → e.fsm = d.fsm →
      e.out = d.out ++ cws.map OutItem.cw → Transition s t turn k d e
  | set {dev base count rest} : turn = .host → dev.toNat = k → decodePacket s.port = .command (.set dev base count) rest →
      d.fsm = .idle → e.fsm = .transfer → t.res = 1 → e.out = d.out ++ [OutItem.en] → Transition s t turn k d e
  | reset {dev rest} : turn = .host → dev.toNat = k → decodePacket s.port = .command (.reset dev) rest →
      d.fsm = .idle → e.fsm = .reset → t.res = 1 → e.out = d.out ++ [OutItem.en] → Transition s t turn k d e
  | startLatch (f : DataFlag) : servicedFlag s k d turn = some f.toFlag → d.fsm = .transfer ∨ d.fsm = .reset →
      e.fsm = .latch → e.sent = d.sent + 2 → d.total.toNat ≤ e.sent.toNat → e.out = d.out → Transition s t turn k d e
  | finish : servicedFlag s k d turn = some .tc → d.fsm = .latch → e.fsm = .idle →
      e.out = d.out ++ [OutItem.dis, .cb .complete] → Transition s t turn k d e
  | forceReset : s.inited = true → servicedFlag s k d turn = some .te → e.fsm = .reset →
      e.out = d.out ++ [OutItem.cb .error] ++ (if d.fsm = .idle then [] else [OutItem.dis]) ++ [OutItem.en] → Transition s t turn k d e

section

variable {s t : State} {turn : Turn} {ts : List Turn} {k : Nat} {d e : Device}

theorem transition_of_onData {f : DataFlag} (hs : servicedFlag s k d turn = some f.toFlag) (ho : onData s f d = .ok e) :
    Transition s t turn k d e := by
  have hne : ¬(s.inited = true ∧ servicedFlag s k d turn = some .te) := by
    rw [hs]
    cases f <;> simp [DataFlag.toFlag]
  cases onData_cases ho with
  | refill => exact .stays [] hne (by simp) (by simp)
  | startLatch hf hdone => exact .startLatch f hs hf (by simp) (by simp) (by simpa using hdone) (by simp)
  | count => exact .stays [] hne (by simp) (by simp)
  | finish hf htc =>
    subst htc
    exact .finish hs hf (by simp) (by simp)

/-- A beat sends at most its codeword. -/
theorem fsm_out_of_beatDevice (h : beatDevice d = .ok e) :
    e.fsm = d.fsm ∧ ∃ cws : List Half16, e.out = d.out ++ cws.map OutItem.cw := by
  obtain ⟨v, hv, rfl⟩ := beatDevice_ok h
  rw [advanceReader_deliver_eq hv]
  refine ⟨rfl, if d.chEn then [v] else [], ?_⟩
  cases d.chEn <;> simp

/-- TE of an initialised block (R103, R111, R113). -/
theorem transition_of_error (inv : DeviceInv s.inited d) (hi : s.inited = true) (hs : servicedFlag s k d turn = some .te) :
    Transition s t turn k d (onError s.inited d) := by
  obtain ⟨hdma, hch⟩ := enables_eq_of_deviceInv inv
  rw [hi]
  exact .forceReset hi hs rfl (by by_cases hf : d.fsm = .idle <;> simp [onError, hdma, hch, hf])

theorem transition_of_turnMove (inv : DeviceInv s.inited d) (hres : turn = .host → t.res = 1)
    (move : TurnMove s turn k d e) : Transition s t turn k d e := by
  cases move with
  | set hhost hp hk hallowed hs =>
    obtain ⟨-, hf, -⟩ := hallowed
    obtain ⟨-, -, rfl⟩ := startSet_ok.1 hs
    exact .set hhost hk hp hf rfl (hres hhost) (by simp)
  | reset hhost hp hk _ hf =>
    obtain ⟨hdma, hch, -⟩ := inv.idle hf
    exact .reset hhost hk hp hf rfl (hres hhost) (by simp [hdma, hch])
  | data hs ho => exact transition_of_onData hs ho
  | error hs =>
    cases hi : s.inited with
    | true => exact hi ▸ transition_of_error inv hi hs
    | false => exact .stays [] (by simp [hi]) rfl (by simp [onError])
  | beat hturn _ _ hb =>
    obtain ⟨hfsm, cws, hout⟩ := fsm_out_of_beatDevice hb
    exact .stays cws (by simp [hturn, servicedFlag]) hfsm hout
  | fault hturn => exact .stays [] (by simp [hturn, servicedFlag]) rfl (by simp)

/-- Every step is one of the listed transitions of every device. -/
theorem transition_of_step (inv : BlockInv s) (hn : NextTurn s turn ts) (hstep : step s = .next t)
    (hd : s.devs[k]? = some d) (he : t.devs[k]? = some e) : Transition s t turn k d e := by
  have invD := inv d (List.mem_of_getElem? hd)
  by_cases hte : s.inited = true ∧ servicedFlag s k d turn = some .te
  · obtain ⟨hi, hs⟩ := hte
    cases serviceFlag_of_serviced hn hstep hd he hs
    exact transition_of_error invD hi hs
  · obtain ⟨-, rfl⟩ | ⟨hi, -, -, rfl, -⟩ | ⟨-, -, hres, move⟩ := step_device (stepEffect_of_nextTurn hn hstep) hd he
    · exact .stays [] hte rfl (by simp)
    · exact .stays [] hte ((invD.quiet hi).1.symm) (by simp)
    · exact transition_of_turnMove invD hres move

theorem count_cb_map_cw (c : Callback) (cws : List Half16) : (cws.map OutItem.cw).count (.cb c) = 0 :=
  List.count_eq_zero.2 (by simp)

end

/-! ### From `Latch` to `Idle` (R107, R110, R117) -/

/-- A run of turns of the agents of device `dev`, as a function on the device. -/
def agentRun (s : State) (dev : Byte) (turns : List Turn) (d : Device) : Except Fault Device :=
  turns.foldlM (fun d turn => agentStep s dev turn d) d

section

variable {s : State} {dev : Byte} {turns turns₂ : List Turn} {d e x : Device}

theorem agentRun_cons_ok {turn : Turn} : agentRun s dev (turn :: turns) d = .ok e ↔
    ∃ mid, agentStep s dev turn d = .ok mid ∧ agentRun s dev turns mid = .ok e := by
  simp only [agentRun, List.foldlM_cons]
  cases agentStep s dev turn d with
  | ok mid => simp [bind, Except.bind]
  | error r => simp [bind, Except.bind]

theorem agentRun_singleton {turn : Turn} (h : agentStep s dev turn d = .ok e) : agentRun s dev [turn] d = .ok e :=
  agentRun_cons_ok.2 ⟨e, h, rfl⟩

theorem agentRun_append (h₁ : agentRun s dev turns d = .ok e) (h₂ : agentRun s dev turns₂ e = .ok x) :
    agentRun s dev (turns ++ turns₂) d = .ok x := by
  rw [agentRun] at h₁
  rw [agentRun, List.foldlM_append, h₁]
  exact h₂

theorem agentRun_congr {s₂ : State} (hc : s.config = s₂.config) (hi : s.inited = s₂.inited) (hp : s.pix = s₂.pix) :
    agentRun s = agentRun s₂ := by
  funext dev turns d
  simp only [agentRun, agentStep_congr hc hi hp]

/-- The block runs as the device does, when the next turns are all those of its agents. -/
theorem core_run_of_agentRun {ts : List Turn} (hc : s.config.WellFormed) (hs : s.sched = turns ++ ts)
    (hturns : ∀ turn ∈ turns, turnDevice turn = some dev) (hd : s.dev? dev = some d)
    (hrun : agentRun s dev turns d = .ok e) :
    core.run turns.length s = .next ({ s with sched := ts }.putDev dev e) := by
  induction turns generalizing s d with
  | nil =>
    cases hrun
    have hts : s.sched = ts := hs
    subst hts
    rw [State.putDev_self hd]
    rfl
  | cons turn turns ih =>
    obtain ⟨hturn, hrest⟩ := List.forall_mem_cons.1 hturns
    obtain ⟨mid, hmid, hrun⟩ := agentRun_cons_ok.1 hrun
    have hn : NextTurn s turn (turns ++ ts) := ⟨hc, hs⟩
    have hstep : step s = .next ({ s with sched := turns ++ ts }.putDev dev mid) :=
      (step_eq_onDevice_agentStep hn hturn).trans (onDevice_of_ok hd hmid)
    have hconfig := (stepEffect_of_nextTurn hn hstep).config_eq
    have rest := ih (s := { s with sched := turns ++ ts }.putDev dev mid) (hconfig ▸ hc) rfl hrest
      (State.putDev_dev?_same mid hd) (agentRun_congr hconfig.symm rfl rfl ▸ hrun)
    rw [List.length_cons, core_run_succ _ hstep, rest]
    exact congrArg _ (State.putDev_putDev { s with sched := ts } dev mid e)

end

section

variable {s : State} {g : Fsm} {f : DataFlag} {dev : Byte} {d : Device} {m : Nat}

/-- The latch buffer holds zeros only, so a beat of `Latch` sends the codeword 0 (R19, R26 item 3). -/
theorem out_sent_of_beatDevice_latch {e : Device} (inv : DeviceInv true d) (hf : d.fsm = .latch)
    (hb : beatDevice d = .ok e) : e.out = d.out ++ [OutItem.cw 0] ∧ e.sent = d.sent := by
  obtain ⟨v, hv, rfl⟩ := eq_of_beatDevice inv (by simp [hf]) hb
  obtain ⟨hsrc, -⟩ | ⟨-, hmem⟩ := fetchCodeword_mem hv
  · cases hsrc.symm.trans (inv.latchBuffer hf).1
  · cases inv.latchLow v hmem
    exact ⟨rfl, rfl⟩

/-- One beat of `Latch`, which raises `f` exactly if it is the last before it. -/
theorem Approaching.latchBeat (h : Approaching .latch f (m + 1) d) :
    ∃ e, agentStep s dev (.beat dev) d = .ok e ∧ e.out = d.out ++ [OutItem.cw 0] ∧ e.sent = d.sent ∧
      (m = 0 → Raised .latch f e) ∧ (m ≠ 0 → Approaching .latch f m e) := by
  obtain ⟨e, beat, -, last, next⟩ := h.beat (s := s)
  cases beat with
  | service hp =>
    have hnone := (pendingFlag_eq_none_iff h.inv (h.fsm ▸ h.inFlight)).2 ⟨h.htif, h.tcif, h.teif⟩
    cases hnone.symm.trans hp
  | beat _ _ hen hb =>
    obtain ⟨hout, hsent⟩ := out_sent_of_beatDevice_latch h.inv h.fsm hb
    exact ⟨e, (if_pos hen).trans hb, hout, hsent, last, next⟩

/-- The beats of `Latch` up to the next data flag. -/
theorem Approaching.latchBeats (h : Approaching .latch f (m + 1) d) :
    ∃ e, agentRun s dev (List.replicate (m + 1) (.beat dev)) d = .ok e ∧ Raised .latch f e ∧
      e.out = d.out ++ List.replicate (m + 1) (OutItem.cw 0) ∧ e.sent = d.sent := by
  induction m generalizing d with
  | zero =>
    obtain ⟨e, beat, hout, hsent, last, -⟩ := h.latchBeat (s := s) (dev := dev)
    exact ⟨e, agentRun_singleton beat, last rfl, hout, hsent⟩
  | succ m ih =>
    obtain ⟨mid, beat, hout, hsent, -, next⟩ := h.latchBeat (s := s) (dev := dev)
    obtain ⟨e, beats, raised, hout', hsent'⟩ := ih (next (Nat.succ_ne_zero m))
    refine ⟨e, agentRun_cons_ok.2 ⟨mid, beat, beats⟩, raised, ?_, hsent'.trans hsent⟩
    rw [hout', hout, List.append_assoc]
    rfl

/-- The invocation that services a raised data flag (R100). -/
theorem Raised.invocation {e : Device} (h : Raised g f d) (hi : s.inited = true) (move : DataMove s f d e) :
    agentRun s dev [.isr dev] d = .ok e := by
  refine agentRun_singleton ((agentStep_isr_of_pending hi h.pending).trans ?_)
  cases f <;> exact onData_ok_iff.2 move

/-- After a service that only counts, the reader approaches the other flag (R107). -/
theorem Raised.approaching_other (h : Raised g f d) :
    Approaching g f.other (halfLength g) (countPair (clearData f d)) := by
  obtain ⟨inv, hfsm, hg, hht, htc, hte, hplace⟩ := h
  have inv' := deviceInv_countPair_clearData f inv
  cases f with
  | ht => exact ⟨inv', hfsm, hg, rfl, htc, hte, hplace, le_rfl⟩
  | tc => exact ⟨inv', hfsm, hg, hht, rfl, hte, hplace, le_rfl⟩

/-- The turns that take a fresh `Latch` to `Idle`. -/
def latchTurns (dev : Byte) : List Turn :=
  List.replicate 24 (Turn.beat dev) ++ [Turn.isr dev] ++ List.replicate 24 (Turn.beat dev) ++ [Turn.isr dev]

theorem turnDevice_of_mem_latchTurns : ∀ turn ∈ latchTurns dev, turnDevice turn = some dev := by
  simp +contextual [latchTurns, or_imp, turnDevice]

theorem Approaching.latchTurns (h : Approaching .latch .ht 24 d) (hi : s.inited = true) :
    ∃ e, agentRun s dev (latchTurns dev) d = .ok e ∧ e.fsm = .idle ∧ e.sent = d.sent + 4 ∧
      e.out = d.out ++ List.replicate 48 (OutItem.cw 0) ++ [OutItem.dis, .cb .complete] := by
  obtain ⟨d₁, beats₁, middle, hout₁, hsent₁⟩ := h.latchBeats (s := s) (dev := dev)
  have service₁ := middle.invocation (dev := dev) hi (.count (.inr (.inr ⟨middle.fsm, rfl⟩)))
  obtain ⟨d₂, beats₂, last, hout₂, hsent₂⟩ := middle.approaching_other.latchBeats (s := s) (dev := dev)
  have service₂ := last.invocation (dev := dev) hi (.finish last.fsm rfl)
  refine ⟨_, agentRun_append (agentRun_append (agentRun_append beats₁ service₁) beats₂) service₂, finish_fsm _, ?_, ?_⟩
  · simp [hsent₂, hsent₁, BitVec.add_assoc]
  · simp [hout₂, hout₁]

end

/-! ### The statements -/

/-- Settles O44, by the transitions of a device. -/
theorem transitionRelation : Obligations.TransitionRelation := by
  intro s t turn ts k d e inv hn hstep hd he hne
  cases transition_of_step inv hn hstep hd he with
  | stays _ _ same => exact absurd same hne
  | set hhost hk hp hf hf' hres hout => exact .inl ⟨hf, hf', hres, hout, hhost, _, _, _, _, hk, hp⟩
  | reset hhost hk hp hf hf' hres hout => exact .inr (.inl ⟨hf, hf', hres, hout, hhost, _, _, hk, hp⟩)
  | startLatch f hs hf hf' hsent hdone hout =>
    exact .inr (.inr (.inl ⟨hf, hf', by cases f <;> simp [hs, DataFlag.toFlag], hsent, hdone, hout⟩))
  | finish hs hf hf' hout => exact .inr (.inr (.inr (.inl ⟨hf, hf', hs, hout⟩)))
  | forceReset hi hs hf' hout => exact .inr (.inr (.inr (.inr ⟨hi, hf', hs, hout⟩)))

/-- Settles O30: the refill of `DataMove`. -/
theorem dataEventRefills : Obligations.DataEventRefills := by
  intro s dev d f ⟨hd, hf⟩ hlt halloc
  refine ⟨writeHalf (vacatedHalf f) (codewordOf s d ((d.sent + 2).toNat + 2)) d.cw,
    exec_dataEvent_of_dataMove hd (.refill hf hlt (halfReadable_iff.2 halloc)) ?_, ?_, ?_⟩
  · cases f <;> rfl
  · cases f <;> exact holdsLeds_writeHalf_same _
  · intro i hi
    rw [writeHalf_getElem?, if_neg fun h => hi (by cases f <;> exact h.2)]

/-- Settles O35: the refill reads both LEDs of the pair that are left. -/
theorem refillFaults : Obligations.RefillFaults := by
  intro s dev d f led off ⟨hd, hf⟩ hlt hled hleft hoff hfree
  have unreadable : halfReadable s d ((d.sent + 2).toNat + 2) = false :=
    Bool.eq_false_iff.2 fun readable => by
      have halloc := halfReadable_iff.1 readable led hled hleft off hoff
      cases hfree.symm.trans halloc
  rw [exec_dataEvent]
  exact onDevice_of_error hd (onData_of_not_readable hf hlt unreadable)

/-- Settles O50: the items of every transition are counted. -/
theorem callbacksOnlyWhereDue : Obligations.CallbacksOnlyWhereDue := by
  intro s t turn ts k d e new inv hn hstep hd he hnew
  have items : ∀ {l}, e.out = d.out ++ l → new = l := fun hout => List.append_cancel_left (hnew.symm.trans hout)
  cases transition_of_step inv hn hstep hd he with
  | stays cws hte same hout =>
    rw [items hout, if_neg hte, if_neg (by rintro ⟨hl, hi⟩; cases hl.symm.trans (same.symm.trans hi))]
    exact ⟨count_cb_map_cw _ cws, count_cb_map_cw _ cws⟩
  | set hhost _ _ hf hf' _ hout => simp [items hout, hhost, servicedFlag, hf]
  | reset hhost _ _ hf hf' _ hout => simp [items hout, hhost, servicedFlag, hf]
  | startLatch f hs _ hf' _ _ hout =>
    rw [items (l := []) (by simpa using hout), hs, hf']
    cases f <;> simp [DataFlag.toFlag]
  | finish hs hf hf' hout => simp [items hout, hs, hf, hf']
  | forceReset hi hs hf' hout =>
    rw [List.append_assoc, List.append_assoc] at hout
    by_cases hf : d.fsm = .idle <;> simp [items hout, hi, hs, hf', hf]

/-- Settles O56: the run of the device is a run of the block. -/
theorem latchRunsToIdle : Obligations.LatchRunsToIdle := by
  intro s ts dev d inv hi hc ⟨hd, hf⟩ hrd hht htc hte hs
  have invD : DeviceInv true d := hi ▸ inv d (State.mem_devs_of_dev? hd)
  have start : Approaching .latch .ht 24 d := ⟨invD, hf, nofun, hht, htc, hte, by rw [hrd]; rfl, le_rfl⟩
  obtain ⟨e, hrun, hidle, hsent, hout⟩ := start.latchTurns (dev := dev) hi
  exact ⟨_, e, core_run_of_agentRun hc hs turnDevice_of_mem_latchTurns hd hrun, rfl, State.putDev_dev?_same e hd, hidle,
    hsent, hout⟩

/-- Settles O8: the handler's turn runs the instruction of the flag it takes. -/
theorem handlerDispatch : Obligations.HandlerDispatch := by
  intro s ts dev d hn hd
  have due := takeInterrupt_eq { s with sched := ts } d
  rw [step_eq hn, runTurn]
  split_ifs at due ⊢
  · exact isrTurn_of_due (f := .te) hd due
  · exact isrTurn_of_due (f := .ht) hd due
  · exact isrTurn_of_due (f := .tc) hd due
  · exact isrTurn_of_not_due hd due

/-- Settles O31: the `startLatch` of `DataMove`. -/
theorem dataEventStartsLatch : Obligations.DataEventStartsLatch := by
  intro s dev d f hd hf hdone
  refine exec_dataEvent_of_dataMove hd (.startLatch hf hdone) ?_
  cases f <;> apply Device.ext_fields <;> simp

/-- Settles O32. -/
theorem dataEventInReset : Obligations.DataEventInReset := by
  intro s dev d f ⟨hd, hf⟩ hlt
  refine exec_dataEvent_of_dataMove hd (.count (.inr (.inl ⟨hf, hlt⟩))) ?_
  cases f <;> rfl

/-- Settles O33: HT only counts, and TC is `Finish`. -/
theorem eventsInLatch : Obligations.EventsInLatch := by
  intro s dev d ⟨hd, hf⟩
  refine ⟨exec_dataEvent_of_dataMove (f := .ht) hd (.count (.inr (.inr ⟨hf, rfl⟩))) rfl,
    exec_dataEvent_of_dataMove (f := .tc) hd (.finish hf rfl) ?_⟩
  apply Device.ext_fields <;> simp

/-- Settles O34: a data event in `Idle` only counts, and with no flag enabled none is due. -/
theorem dataEventInIdle : Obligations.DataEventInIdle := by
  refine ⟨fun s dev d f ⟨hd, hf⟩ => ?_, fun s ts dev d inv hn ⟨hd, hf⟩ => ?_⟩
  · refine exec_dataEvent_of_dataMove hd (.count (.inl hf)) ?_
    cases f <;> rfl
  · exact (step_eq hn).trans (isrTurn_of_not_due hd (takeInterrupt_of_idle (inv d (State.mem_devs_of_dev? hd)) hf))

/-- Settles O36: in an initialised block TE is `ForceReset` after the error callback. -/
theorem errorForcesReset : Obligations.ErrorForcesReset := by
  refine ⟨fun s dev d ⟨hd, hi⟩ => exec_te_of_onError hd ?_, fun s dev d hd hi => exec_te_of_onError hd ?_⟩
  · rw [hi]
    exact forceReset_eq (callback .error (clearError d))
  · rw [hi]
    rfl

end Sys2Proof.Machine
end

section
/-! PROOFS. The pixel writers (44_pixel_store.md). Each of them asks whether the device exists and the block is initialised, then whether
its LEDs are in bounds, and stores a range of LEDs (`storeRange`). So what a writer stores and what it leaves alone is said once, for a
range; what is left to each statement is which range it is, and which check fails. -/

namespace Sys2Proof.Machine

open Sys2Proof Sys2Proof.Safety

/-! ### What a range of stored LEDs reads as (R125) -/

section

variable {c : DevConfig} {first n : Nat}

/-- The byte at offset `k` of a stored LED is its red, green or blue (R125). -/
theorem storePixels_read_channel {i k : Nat} (r g b : Word) (m : Memory) (hlo : first ≤ i) (hhi : i < first + n) (hk : k < 3) :
    (storePixels c r g b first n m).read (c.pixBase + 3 * i + k) =
      if k = 0 then some (colour r) else if k = 1 then some (colour g) else some (colour b) := by
  have hoffset : (c.pixBase + 3 * i + k - c.pixBase) % 3 = k := by omega
  rw [storePixels_read, if_pos (by omega), hoffset]

/-- Every LED of the range holds the colour. -/
theorem storePixels_read_led {i : Nat} (r g b : Word) (m : Memory) (hlo : first ≤ i) (hhi : i < first + n) :
    (storePixels c r g b first n m).read (c.pixBase + 3 * i) = some (r.setWidth 8) ∧
    (storePixels c r g b first n m).read (c.pixBase + 3 * i + 1) = some (g.setWidth 8) ∧
    (storePixels c r g b first n m).read (c.pixBase + 3 * i + 2) = some (b.setWidth 8) :=
  ⟨storePixels_read_channel (k := 0) r g b m hlo hhi (by decide), storePixels_read_channel (k := 1) r g b m hlo hhi (by decide),
    storePixels_read_channel (k := 2) r g b m hlo hhi (by decide)⟩

/-- The frame of a range: a byte of none of its LEDs keeps what it held. -/
theorem storePixels_read_outside {a : Nat} (r g b : Word) (m : Memory)
    (ha : ¬(c.pixBase + 3 * first ≤ a ∧ a < c.pixBase + 3 * (first + n))) :
    (storePixels c r g b first n m).read a = m.read a := by
  rw [storePixels_read, if_neg ha]

end

/-! ### A writer whose checks pass, and one whose checks fail (R123, R130) -/

section

variable {s : State} {dev : Byte} {d : Device} {index first last r g b : Word} {e : FailReason}

theorem requireInited_error (h : s.dev? dev = none ∨ s.inited = false) : ∃ e, requireInited s dev = .error e := by
  cases hcheck : requireInited s dev with
  | error e => exact ⟨e, rfl⟩
  | ok d =>
    obtain ⟨hdev, hi⟩ := requireInited_ok.1 hcheck
    simp [hdev, hi] at h

theorem exec_setColor_of_error (h : requireInited s dev = .error e) :
    exec (.setColor dev index r g b) s = .next (s.withRes 0) := by
  simp only [exec, execSetColor, h, State.fail]

theorem exec_setColor_of_ok (h : requireInited s dev = .ok d) :
    exec (.setColor dev index r g b) s =
      if d.cfg.ledMax ≤ index.toNat then .next (s.withRes 0) else .next (storeRange s d index.toNat 1 r g b) := by
  simp only [exec, execSetColor, h, State.fail]

theorem exec_fillColor_of_error (h : requireInited s dev = .error e) :
    exec (.fillColor dev r g b) s = .next (s.withRes 0) := by
  simp only [exec, execFillColor, h, State.fail]

theorem exec_fillColor_of_ok (h : requireInited s dev = .ok d) :
    exec (.fillColor dev r g b) s = .next (storeRange s d 0 d.cfg.ledMax r g b) := by
  simp only [exec, execFillColor, h]

theorem exec_fillSeg_of_error (h : requireInited s dev = .error e) :
    exec (.fillSeg dev first last r g b) s = .next (s.withRes 0) := by
  simp only [exec, execFillSeg, h, State.fail]

theorem exec_fillSeg_of_ok (h : requireInited s dev = .ok d) :
    exec (.fillSeg dev first last r g b) s =
      if d.cfg.ledMax ≤ last.toNat ∨ last.toNat < first.toNat then .next (s.withRes 0)
      else .next (storeRange s d first.toNat (last.toNat - first.toNat + 1) r g b) := by
  simp only [exec, execFillSeg, h, State.fail]

/-- The bounds are those of the device, and the block need not be initialised for the writer to fail (R120). -/
theorem exec_setColor_of_outOfBounds (hd : s.dev? dev = some d) (hout : d.cfg.ledMax ≤ index.toNat) :
    exec (.setColor dev index r g b) s = .next (s.withRes 0) := by
  by_cases hi : s.inited = true
  · rw [exec_setColor_of_ok (requireInited_ok.2 ⟨hd, hi⟩), if_pos hout]
  · obtain ⟨e, he⟩ := requireInited_error (dev := dev) (.inr (Bool.eq_false_iff.2 hi))
    exact exec_setColor_of_error he

/-- The same for a segment that ends out of bounds or before it starts (R122). -/
theorem exec_fillSeg_of_outOfBounds (hd : s.dev? dev = some d)
    (hout : d.cfg.ledMax ≤ last.toNat ∨ last.toNat < first.toNat) :
    exec (.fillSeg dev first last r g b) s = .next (s.withRes 0) := by
  by_cases hi : s.inited = true
  · rw [exec_fillSeg_of_ok (requireInited_ok.2 ⟨hd, hi⟩), if_pos hout]
  · obtain ⟨e, he⟩ := requireInited_error (dev := dev) (.inr (Bool.eq_false_iff.2 hi))
    exact exec_fillSeg_of_error he

end

/-! ### The statements -/

/-- Settles O25: the range is the one LED. -/
theorem setColorStoresOneLed : Obligations.SetColorStoresOneLed := by
  intro s dev d index r g b hready hlt
  have run := exec_setColor_of_ok (index := index) (r := r) (g := g) (b := b) (requireInited_ok.2 hready)
  rw [if_neg (by omega)] at run
  obtain ⟨hred, hgreen, hblue⟩ :=
    storePixels_read_led (c := d.cfg) (n := 1) r g b s.pix (le_refl index.toNat) (Nat.lt_succ_self _)
  exact ⟨_, run, rfl, hred, hgreen, hblue, fun a ha => storePixels_read_outside r g b s.pix (by omega)⟩

/-- Settles O26: the range is the whole buffer. -/
theorem fillColorStoresAllLeds : Obligations.FillColorStoresAllLeds := by
  intro s dev d r g b hready
  exact ⟨_, exec_fillColor_of_ok (requireInited_ok.2 hready), rfl,
    fun i hi => storePixels_read_led r g b s.pix (Nat.zero_le i) (by omega),
    fun a ha => storePixels_read_outside r g b s.pix (by omega)⟩

/-- Settles O27: the range has `last - first + 1` LEDs. -/
theorem fillSegStoresInclusive : Obligations.FillSegStoresInclusive := by
  intro s dev d first last r g b hready hle hlt
  have run := exec_fillSeg_of_ok (first := first) (last := last) (r := r) (g := g) (b := b) (requireInited_ok.2 hready)
  rw [if_neg (by omega)] at run
  exact ⟨_, run, rfl, fun i hlo hhi => storePixels_read_led r g b s.pix hlo (by omega),
    fun a ha => storePixels_read_outside r g b s.pix (by omega)⟩

/-- Settles O28: both store the same range. -/
theorem fillSegWholeIsFillColor : Obligations.FillSegWholeIsFillColor := by
  intro s dev d first last r g b hready hfirst hlast
  have hcheck := requireInited_ok.2 hready
  have hcount : last.toNat - first.toNat + 1 = d.cfg.ledMax := by omega
  rw [exec_fillSeg_of_ok hcheck, if_neg (by omega), exec_fillColor_of_ok hcheck, hcount, hfirst]

/-- Settles O29: the first check fails for all three writers, and the check of the bounds for the two that have one. -/
theorem writersReject : Obligations.WritersReject := by
  refine ⟨fun s dev index first last r g b hbad => ?_, fun s dev d index r g b => exec_setColor_of_outOfBounds,
    fun s dev d first last r g b => exec_fillSeg_of_outOfBounds⟩
  obtain ⟨e, he⟩ := requireInited_error hbad
  exact ⟨exec_setColor_of_error he, exec_fillColor_of_error he, exec_fillSeg_of_error he⟩

end Sys2Proof.Machine
end

section
/-! PROOFS. The exceptions (60_exceptions.md): a device at rest is inert, and a run that is over stays over. No agent of an `Idle`
device is enabled (`agentStep_of_idle`), so once all devices are `Idle` and no command is left, no turn but an `EVT` word
changes the block (`step_of_runOver`). -/

namespace Sys2Proof.Machine

open Sys2Proof Sys2Proof.Safety

section

variable {s : State} {ts : List Turn} {turn : Turn} {dev : Byte} {d : Device}

/-! ### A device at rest (R158) -/

/-- Neither the stream nor an interrupt of a device at rest is enabled (R26 item 2), so of its agents only an `EVT` word acts. -/
theorem agentStep_of_idle {inited : Bool} (inv : DeviceInv inited d) (hf : d.fsm = .idle) (hturn : ∀ w : Half16, turn ≠ .evt w) :
    agentStep s dev turn d = .ok d := by
  obtain ⟨hstream, -⟩ := inv.idle hf
  cases turn with
  | host => rfl
  | beat _ | fault _ => simp [agentStep, hstream]
  | isr _ => simp [agentStep, servicedFlag, takeInterrupt_of_idle inv hf, serviceDue]
  | evt w => exact absurd rfl (hturn w)

theorem step_of_idle (inv : BlockInv s) (hn : NextTurn s turn ts) (hdev : turnDevice turn = some dev)
    (hturn : ∀ w : Half16, turn ≠ .evt w) (hidle : ∀ d, s.dev? dev = some d → d.fsm = .idle) :
    step s = .next { s with sched := ts } := by
  rw [step_eq_onDevice_agentStep hn hdev]
  exact onDevice_of_unchanged fun d (hd : s.dev? dev = some d) =>
    agentStep_of_idle (inv d (State.mem_devs_of_dev? hd)) (hidle d hd) hturn

/-! ### A run that is over (R171) -/

theorem Device.anyFlag_eq_false (d : Device) : d.anyFlag = false ↔ d.htif = false ∧ d.tcif = false ∧ d.teif = false := by
  simp [Device.anyFlag, and_assoc]

/-- With a device in flight the block is not quiescent. -/
theorem finalObservation_of_inFlight (hmem : d ∈ s.devs) (hf : d.fsm ≠ .idle) : finalObservation s = none :=
  if_neg fun ⟨_, quiet⟩ => hf (quiet d hmem).1

/-- The host has no command left, and every device is at rest. -/
theorem step_of_runOver (inv : BlockInv s) (hover : runOver s) (hn : NextTurn s turn ts) (hturn : ∀ w : Half16, turn ≠ .evt w) :
    step s = .next { s with sched := ts } := by
  obtain ⟨noCommand, quiet⟩ := hover
  have hidle : ∀ dev d, s.dev? dev = some d → d.fsm = .idle := fun dev d hd => (quiet d (State.mem_devs_of_dev? hd)).1
  cases turn with
  | host =>
    rw [step_eq hn]
    exact hostTurn_of_incomplete (s := { s with sched := ts }) noCommand
  | beat dev | fault dev | isr dev => exact step_of_idle inv hn rfl hturn (hidle dev)
  | evt w => exact absurd rfl (hturn w)

/-- Neither the end of a run nor what is observed depends on the turns still planned (log entry 13). -/
theorem finalObservation_sched (s : State) (ts : List Turn) : finalObservation { s with sched := ts } = finalObservation s := rfl

theorem runOver_iff (s : State) : runOver s ↔ decodePacket s.port = .incomplete ∧
    ∀ d ∈ s.devs, d.fsm = .idle ∧ d.dmaEn = false ∧ d.chEn = false ∧ d.htif = false ∧ d.tcif = false ∧ d.teif = false := by
  simp only [runOver, quiescent, Device.anyFlag_eq_false]

/-- The lists of an observation are by device index (R171). -/
theorem observe_getElem? {k : Nat} (hd : s.devs[k]? = some d) :
    (observe s).out[k]? = some d.out ∧ (observe s).underrun[k]? = some d.underrun ∧
      (observe s).buffers[k]? = some (ownBuffer s d) := by
  simp [hd]

end

/-! ### The statement -/

/-- Settles O54: the agents of an `Idle` device are not enabled, and the final observation is `observe`, read by part. -/
theorem idleDeviceIsInert : Obligations.IdleDeviceIsInert := by
  refine ⟨fun s ts dev d turn inv hd hturn hn => ?_, fun s d inv hmem hf => ?_, fun s ts turn inv hover hn hturn => ?_,
    runOver_iff, fun s hover => ?_⟩
  · obtain ⟨hdev, hidle⟩ := hd
    have agent : turnDevice turn = some dev ∧ ∀ w : Half16, turn ≠ .evt w := by
      simp only [List.mem_cons, List.not_mem_nil, or_false] at hturn
      obtain rfl | rfl | rfl := hturn <;> exact ⟨rfl, nofun⟩
    exact step_of_idle inv hn agent.1 agent.2 fun e he => Option.some.inj (hdev.symm.trans he) ▸ hidle
  · obtain ⟨hstream, -⟩ := (inv d hmem).inFlight hf
    exact ⟨hstream, finalObservation_of_inFlight hmem hf⟩
  · exact ⟨step_of_runOver inv hover hn hturn, finalObservation_sched s ts⟩
  · refine ⟨observe s, finalObservation_eq_some.2 ⟨hover, rfl⟩, rfl, List.length_map _, List.length_map _, List.length_map _, fun k d hd => ?_⟩
    obtain ⟨hout, hunderrun, hbuffer⟩ := observe_getElem? hd
    exact ⟨hout, hunderrun, ownBuffer s d, hbuffer, ownBuffer_length s d, fun i hi => ownBuffer_getElem? s d hi⟩

end Sys2Proof.Machine
end

section
/-! PROOFS. The state at power-on (R160, 70_reset_and_hazards.md). -/

namespace Sys2Proof.Machine

open Sys2Proof Sys2Proof.Safety

/-- The configuration is a constant of the devices, which power-on takes as it is given (R5). -/
theorem config_powerOn (c : Config) : (State.powerOn c).config = c :=
  (List.map_map ..).trans (List.map_id c)

/-- No byte of `PIX` holds a value at power-on, not even 0 (R160). -/
theorem pix_read_powerOn (c : Config) (a : Nat) : (State.powerOn c).pix.read a = none := rfl

theorem zeroCodewords_getElem? {n i : Nat} (hi : i < n) : (zeroCodewords n)[i]? = some 0 := by
  rw [zeroCodewords_eq_replicate, Vector.getElem?_replicate_of_lt hi]

/-- Settles O43: every device is `Device.powerOn` of its configuration, whose two buffers hold codewords 0; the other fields are
constants. -/
theorem powerOnState : Obligations.PowerOnState := by
  refine fun c => ⟨rfl, rfl, config_powerOn c, pix_read_powerOn c, List.forall_mem_map.2 fun x _ => ?_⟩
  have hcw : ∀ i : Nat, i < 96 → (Device.powerOn x).cw[i]? = some 0 := fun i => zeroCodewords_getElem?
  have hlatch : ∀ i : Nat, i < 48 → (Device.powerOn x).latch[i]? = some 0 := fun i => zeroCodewords_getElem?
  exact ⟨rfl, rfl, rfl, rfl, rfl, rfl, rfl, hcw, hlatch, rfl, rfl, rfl, rfl, rfl, rfl, rfl, rfl, rfl, rfl, rfl, rfl⟩

end Sys2Proof.Machine
end
